-- ==== Sys2Proof/Word.lean ====
section
/-! DEFINITION. The plain word types of the block: bytes, byte strings, 32-bit register words, audio frames and source
addresses (spec 00_scope.md R9, 20_memory.md R65). -/

namespace Sys2Proof

/-- One byte (R9). -/
abbrev Byte := BitVec 8

/-- A byte string: a datagram, a payload, a stream name (R9). -/
abbrev Bytes := List Byte

/-- A register word, and a word of an operation request (R22, R100). -/
abbrev Word32 := BitVec 32

/-- An audio frame: `bpf` bytes that the block moves as one opaque string (R62, R65). -/
abbrev Frame := Bytes

/-- A source address: an opaque value of SRC_ADDR_W bits, compared for equality only (R7, R237). It is a natural
number; `WellFormed.lean` says that it fits in SRC_ADDR_W bits. DESIGN CHOICE, safe (notes/assumptions/8.md). -/
abbrev SrcAddr := Nat

/-- `sat32(v + 1)` of R10 on a 32-bit count. -/
def satInc (v : Word32) : Word32 :=
  if v = BitVec.allOnes 32 then v else v + 1

/-- `sdiff32(a, b)` of R10: the difference modulo 2^32, read as a signed 32-bit value. -/
def sdiff32 (a b : Word32) : Int :=
  (a - b).toInt

end Sys2Proof
end

