-- ==== Sys2Proof/Config.lean ====
section
/-! DEFINITION. The elaboration-time parameters of the block (spec 00_scope.md R7 and R8), and the reference
configuration REF of 95_test_vectors.md section 0. The parameters are data of the machine (`Machine.State.params`), so
every statement over all states is a statement over all parameter sets. -/

namespace Sys2Proof

/-- The parameters of R7. Each is fixed for the life of a block (R351). -/
structure Params where
  /-- N_SESSIONS: the number of session slots. -/
  nSessions : Nat
  /-- BUF_CAP_FRAMES: the capacity of each playback buffer, in frames. -/
  bufCapFrames : Nat
  /-- MAX_PACKET_SIZE: the largest datagram in bytes, header included. -/
  maxPacketSize : Nat
  /-- SRC_ADDR_W: the width of a source address in bits. -/
  srcAddrW : Nat
  /-- SEQ_TOL_RESET: the reset value of SEQ_TOL. -/
  seqTolReset : Word32
  /-- SESSION_TIMEOUT_RESET: the reset value of SESSION_TIMEOUT, in ticks. -/
  sessionTimeoutReset : Word32
  /-- NOTIFY_START_ON_RESUME: emit STARTED on every entry into Playing, not only on the first. -/
  notifyStartOnResume : Bool
  /-- SR_TABLE: 32 entries, each a rate in Hz or UNMAPPED (`none`). -/
  srTable : List (Option Nat)
  deriving DecidableEq, Repr

/-- A parameter set is well formed (R8). -/
abbrev Params.WF (p : Params) : Prop :=
  1 ≤ p.nSessions ∧ p.nSessions ≤ 256 ∧ 1 ≤ p.bufCapFrames ∧
  1437 ≤ p.maxPacketSize ∧ p.maxPacketSize ≤ 65535 ∧
  (p.srcAddrW = 32 ∨ p.srcAddrW = 128) ∧
  p.srTable.length = 32 ∧ ∀ e ∈ p.srTable, ∀ hz ∈ e, 0 < hz ∧ hz < 2 ^ 20

/-- The default sample-rate table of R88: indices 0 to 20 mapped, 21 to 31 UNMAPPED. -/
def defaultSrTable : List (Option Nat) :=
  [some 6000, some 12000, some 24000, some 48000, some 96000, some 192000, some 384000] ++
  [some 8000, some 16000, some 32000, some 64000, some 128000, some 256000, some 512000] ++
  [some 11025, some 22050, some 44100, some 88200, some 176400, some 352800, some 705600] ++
  List.replicate 11 none

/-- The reference configuration REF of 95_test_vectors.md section 0. R7 leaves these values OPEN: that
`Machine.State.reset` takes this set is a DESIGN CHOICE, unsafe (notes/assumptions/1.md). -/
def Params.reference : Params where
  nSessions := 2
  bufCapFrames := 16
  maxPacketSize := 2048
  srcAddrW := 32
  seqTolReset := 4
  sessionTimeoutReset := 3
  notifyStartOnResume := false
  srTable := defaultSrTable

end Sys2Proof
end

