-- ==== Sys2Proof/Syntax.lean ====
section
/-! DEFINITION. The operations of the block: one constructor of `Instr` for each row of spec/opcode_table.json (16
operation rows of format OP, 8 wire-class rows of format WIRE), and the raw requests that agents hand to the block
(spec 30_encoding.md R92, R100, R101). -/

namespace Sys2Proof

/-- The header record of R142: the operand HDR of ENCODE and the data of DECODE. -/
structure Header where
  subProtocol : BitVec 3
  srIndex : BitVec 5
  nbsMinus1 : BitVec 8
  nbcMinus1 : BitVec 8
  dataType : BitVec 3
  reserved : BitVec 1
  codec : BitVec 4
  name : Bytes
  frameCounter : Word32
  deriving DecidableEq, Repr

/-- The fields of the word `w = le32(DG, 4)` that every wire class leaves free (R80, R92): rate index w[4:0], frame
count minus one w[15:8], channel count minus one w[23:16], data type w[26:24], reserved bit w[27]. -/
structure WireFields where
  srIndex : BitVec 5
  nbsMinus1 : BitVec 8
  nbcMinus1 : BitVec 8
  dataType : BitVec 3
  reserved : BitVec 1
  deriving DecidableEq, Repr

/-- What stands around the word `w` in a received datagram: the source address it came with, the sixteen bytes of the
stream-name field as they are on the wire, the frame counter, and the payload (R80, R91). -/
structure WireBody where
  src : SrcAddr
  nameField : Bytes
  frameCounter : Word32
  payload : Bytes
  deriving DecidableEq, Repr

/-- The operations, one constructor per row of spec/opcode_table.json. The four WIRE_COMPRESSED rows and the three
WIRE_SERVICE rows are told apart by the highest bit set in the codec (the sub-protocol): each constructor holds the bits
that its row leaves free, so that a constructor cannot hold a word of another row. -/
inductive Instr where
  /-- RX_PACKET, OPC 0x01 (R230): receive the datagram `dg` from `src`. -/
  | rxPacket (src : SrcAddr) (dg : Bytes)
  /-- TX_PACKET, OPC 0x02 (R270): frame the payload `pl` of `k` frames. -/
  | txPacket (k : BitVec 16) (pl : Bytes)
  /-- POP, OPC 0x03 (R202): deliver `n` frames of slot `slot`. -/
  | pop (slot : BitVec 8) (n : BitVec 16)
  /-- STOP, OPC 0x04 (R294). -/
  | stop (slot : BitVec 8)
  /-- TICK, OPC 0x05 (R296). -/
  | tick
  /-- CFG_WRITE, OPC 0x06 (R291). -/
  | cfgWrite (reg : BitVec 8) (val : Word32)
  /-- CFG_READ, OPC 0x07 (R290). -/
  | cfgRead (reg : BitVec 8)
  /-- SESSION_READ, OPC 0x08 (R293). -/
  | sessionRead (slot : BitVec 8)
  /-- DEVICE_FAULT, OPC 0x09 (R295). -/
  | deviceFault (slot : BitVec 8)
  /-- RESET, OPC 0x0A (R297). -/
  | reset
  /-- LOOKUP, OPC 0x10 (R120). -/
  | lookup (fc : BitVec 16)
  /-- BYTES_PER_FRAME, OPC 0x11 (R171). -/
  | bytesPerFrame (fc : BitVec 16)
  /-- FRAMES_IN_PAYLOAD, OPC 0x12 (R172). -/
  | framesInPayload (fc : BitVec 16) (len : Word32)
  /-- FRAMES_FIT, OPC 0x13 (R173). -/
  | framesFit (fc : BitVec 16)
  /-- ENCODE, OPC 0x14 (R140). -/
  | encode (hdr : Header) (pl : Bytes)
  /-- DECODE, OPC 0x15 (R141). -/
  | decode (dg : Bytes)
  /-- WIRE_PCM, match 0x00000000 mask 0xF00000E0 (R92): sub-protocol 0, codec 0. -/
  | wirePcm (f : WireFields) (b : WireBody)
  /-- WIRE_COMPRESSED, match 0x80000000 mask 0x800000E0 (R92): sub-protocol 0, codec 8 to 15. -/
  | wireCompressed8 (codecLow : BitVec 3) (f : WireFields) (b : WireBody)
  /-- WIRE_COMPRESSED, match 0x40000000 mask 0xC00000E0 (R92): sub-protocol 0, codec 4 to 7. -/
  | wireCompressed4 (codecLow : BitVec 2) (f : WireFields) (b : WireBody)
  /-- WIRE_COMPRESSED, match 0x20000000 mask 0xE00000E0 (R92): sub-protocol 0, codec 2 or 3. -/
  | wireCompressed2 (codecLow : BitVec 1) (f : WireFields) (b : WireBody)
  /-- WIRE_COMPRESSED, match 0x10000000 mask 0xF00000E0 (R92): sub-protocol 0, codec 1. -/
  | wireCompressed1 (f : WireFields) (b : WireBody)
  /-- WIRE_SERVICE, match 0x00000080 mask 0x00000080 (R92): sub-protocol 4 to 7, any codec. -/
  | wireService4 (subLow : BitVec 2) (codec : BitVec 4) (f : WireFields) (b : WireBody)
  /-- WIRE_SERVICE, match 0x00000040 mask 0x000000C0 (R92): sub-protocol 2 or 3, any codec. -/
  | wireService2 (subLow : BitVec 1) (codec : BitVec 4) (f : WireFields) (b : WireBody)
  /-- WIRE_SERVICE, match 0x00000020 mask 0x000000E0 (R92): sub-protocol 1, any codec. -/
  | wireService1 (codec : BitVec 4) (f : WireFields) (b : WireBody)
  deriving DecidableEq, Repr

/-- What an agent hands to the block, not yet decoded. -/
inductive Request where
  /-- An operation request of R100: two 32-bit words and the sideband SRC, BUF and HDR. -/
  | op (word0 word1 : Word32) (src : SrcAddr) (buf : Bytes) (hdr : Header)
  /-- The arrival of a datagram (R329), presented to the wire-class rows of the opcode table. The model's own entry: it
  does what the RX_PACKET request of the same source and datagram does. DESIGN CHOICE, safe (notes/assumptions/4.md). -/
  | datagram (src : SrcAddr) (dg : Bytes)
  deriving DecidableEq, Repr

end Sys2Proof
end

