-- ==== Sys2Proof/WellFormed.lean ====
section
/-! DEFINITION. The operands an agent can present: sideband sizes (spec 30_encoding.md R100), the width of a source
address (R7), and the shape of a datagram that DECODE accepts (R80, R141). -/

namespace Sys2Proof

/-- BUF is a byte string of 0 to 65535 bytes (R60, R100). -/
abbrev Bytes.WF (b : Bytes) : Prop := b.length ≤ 65535

/-- SRC is SRC_ADDR_W bits (R100). -/
abbrev SrcAddr.WF (p : Params) (a : SrcAddr) : Prop := a < 2 ^ p.srcAddrW

/-- The name of HDR is a byte string of 0 to 255 bytes (R100). -/
abbrev Header.WF (h : Header) : Prop := h.name.length ≤ 255

/-- A valid stream name (R89): 0 to 16 bytes, none of them 0x00. -/
abbrev Bytes.ValidName (n : Bytes) : Prop := n.length ≤ 16 ∧ (0 : Byte) ∉ n

/-- What surrounds the wire word of an acceptable datagram: a name field of 16 bytes, and a length within
MAX_PACKET_SIZE (R80, R141). -/
abbrev WireBody.WF (p : Params) (b : WireBody) : Prop :=
  SrcAddr.WF p b.src ∧ b.nameField.length = 16 ∧ 28 + b.payload.length ≤ p.maxPacketSize

/-- An instruction whose operands an agent can present. -/
abbrev Instr.WF (p : Params) : Instr → Prop
  | .rxPacket src dg => SrcAddr.WF p src ∧ Bytes.WF dg
  | .txPacket _ pl => Bytes.WF pl
  | .pop _ _ => True
  | .stop _ => True
  | .tick => True
  | .cfgWrite _ _ => True
  | .cfgRead _ => True
  | .sessionRead _ => True
  | .deviceFault _ => True
  | .reset => True
  | .lookup _ => True
  | .bytesPerFrame _ => True
  | .framesInPayload _ _ => True
  | .framesFit _ => True
  | .encode hdr pl => Header.WF hdr ∧ Bytes.WF pl
  | .decode dg => Bytes.WF dg
  | .wirePcm _ b => WireBody.WF p b
  | .wireCompressed8 _ _ b => WireBody.WF p b
  | .wireCompressed4 _ _ b => WireBody.WF p b
  | .wireCompressed2 _ _ b => WireBody.WF p b
  | .wireCompressed1 _ b => WireBody.WF p b
  | .wireService4 _ _ _ b => WireBody.WF p b
  | .wireService2 _ _ _ b => WireBody.WF p b
  | .wireService1 _ _ b => WireBody.WF p b

/-- A request whose sideband an agent can drive (R100). -/
abbrev Request.WF (p : Params) : Request → Prop
  | .op _ _ src buf hdr => SrcAddr.WF p src ∧ Bytes.WF buf ∧ Header.WF hdr
  | .datagram src dg => SrcAddr.WF p src ∧ Bytes.WF dg

end Sys2Proof
end

