-- ==== Sys2Proof/Decode.lean ====
section
/-! DEFINITION. The decoder of requests and of received datagrams, and after it the encoder and the rows of the opcode
table (spec 30_encoding.md R80 to R103, opcode_table.json). The byte and field helpers that the packet codec shares stand
here too. -/

namespace Sys2Proof

/-! ## Bytes and fields -/

/-- The magic bytes of every datagram, ASCII "VBAN" (R80). They and the whole layout are what the spec marks as general
knowledge: UNVERIFIED, unsafe for a claim about VBAN itself (notes/assumptions/9.md). -/
def magic : Bytes := [0x56, 0x42, 0x41, 0x4E]

/-- `zeros(n)` of R9. -/
def zeros (n : Nat) : Bytes := List.replicate n 0

/-- `MemRead(off, n)` of R10: the bytes `DG[off .. off+n)` (R60). -/
def memRead (dg : Bytes) (off n : Nat) : Bytes := (dg.drop off).take n

/-- Byte `DG[off]`; the callers have checked that it exists (R60). -/
def byteAt (dg : Bytes) (off : Nat) : Byte := dg.getD off 0

/-- `le32bytes(v)` of R9: least significant byte first. -/
def le32bytes (v : Word32) : Bytes :=
  [v.extractLsb' 0 8, v.extractLsb' 8 8, v.extractLsb' 16 8, v.extractLsb' 24 8]

/-- `le32(B, o)` of R9. -/
def le32 (b : Bytes) (o : Nat) : Word32 :=
  (byteAt b (o + 3) ++ byteAt b (o + 2) ++ byteAt b (o + 1) ++ byteAt b o : BitVec (8 + 8 + 8 + 8))

/-- The part of a name field before its first 0x00, the whole field if there is none (R32, R89). -/
def untilNul (field : Bytes) : Bytes := field.takeWhile (· != 0)

/-- A name padded with 0x00 to the 16 bytes of the wire field (R89). -/
def padName (name : Bytes) : Bytes := name ++ zeros (16 - name.length)

/-- Byte 4 of the header, `{sub_protocol, sr_index}` (R80, R140). -/
def formatSrByte (sub : BitVec 3) (sr : BitVec 5) : Byte := (sub ++ sr : BitVec (3 + 5))

/-- Byte 7 of the header, `{codec, reserved, data_type}` (R80, R140). -/
def formatBitByte (codec : BitVec 4) (reserved : BitVec 1) (dt : BitVec 3) : Byte :=
  (codec ++ reserved ++ dt : BitVec (4 + 1 + 3))

/-- sub_protocol, byte 4 bits [7:5] (R81, R94). -/
def subProtocolOf (b4 : Byte) : BitVec 3 := b4.extractLsb' 5 3

/-- sr_index, byte 4 bits [4:0] (R82, R94). -/
def srIndexOf (b4 : Byte) : BitVec 5 := b4.extractLsb' 0 5

/-- codec, byte 7 bits [7:4] (R87, R94). -/
def codecOf (b7 : Byte) : BitVec 4 := b7.extractLsb' 4 4

/-- The reserved bit, byte 7 bit [3] (R83, R94). -/
def reservedOf (b7 : Byte) : BitVec 1 := b7.extractLsb' 3 1

/-- data_type, byte 7 bits [2:0] (R85, R94). -/
def dataTypeOf (b7 : Byte) : BitVec 3 := b7.extractLsb' 0 3

/-! ## What the decoder refuses -/

/-- Why a request is no instruction. Each has the result the spec gives it: none stops the block. -/
inductive DecodeError where
  /-- word0[7:0] is no operation code of R101 (R102). -/
  | illegalOp (opc : BitVec 8)
  /-- The datagram is shorter than the header (R141). -/
  | truncated
  /-- The datagram is longer than MAX_PACKET_SIZE (R141). -/
  | oversized
  /-- Bytes 0 to 3 are not the magic (R141). -/
  | badMagic
  deriving DecidableEq, Repr

/-- The structural checks of `decode` in R141, in their order; `none` when the datagram passes. -/
def structureError (maxPacketSize : Nat) (dg : Bytes) : Option DecodeError :=
  if dg.length < 28 then some .truncated
  else if maxPacketSize < dg.length then some .oversized
  else if memRead dg 0 4 ≠ magic then some .badMagic
  else none

/-! ## Operation requests -/

/-- OPC, word0[7:0] (R100). -/
def opcOf (word0 : Word32) : BitVec 8 := word0.extractLsb' 0 8

/-- IDX, word0[15:8] (R100). -/
def idxOf (word0 : Word32) : BitVec 8 := word0.extractLsb' 8 8

/-- ARG, word0[31:16] (R100). -/
def argOf (word0 : Word32) : BitVec 16 := word0.extractLsb' 16 16

/-- The instruction of an operation request: OPC alone selects it, and the fields it does not use are ignored (R100,
R101). -/
def decodeOp (word0 word1 : Word32) (src : SrcAddr) (buf : Bytes) (hdr : Header) : Except DecodeError Instr :=
  match (opcOf word0).toNat with
  | 0x01 => .ok (.rxPacket src buf)
  | 0x02 => .ok (.txPacket (argOf word0) buf)
  | 0x03 => .ok (.pop (idxOf word0) (argOf word0))
  | 0x04 => .ok (.stop (idxOf word0))
  | 0x05 => .ok .tick
  | 0x06 => .ok (.cfgWrite (idxOf word0) word1)
  | 0x07 => .ok (.cfgRead (idxOf word0))
  | 0x08 => .ok (.sessionRead (idxOf word0))
  | 0x09 => .ok (.deviceFault (idxOf word0))
  | 0x0A => .ok .reset
  | 0x10 => .ok (.lookup (argOf word0))
  | 0x11 => .ok (.bytesPerFrame (argOf word0))
  | 0x12 => .ok (.framesInPayload (argOf word0) word1)
  | 0x13 => .ok (.framesFit (argOf word0))
  | 0x14 => .ok (.encode hdr buf)
  | 0x15 => .ok (.decode buf)
  | _ => .error (.illegalOp (opcOf word0))

/-! ## The wire classes of a datagram -/

/-- The free fields of the wire word, from bytes 4 to 7 of the datagram (R80, R94). -/
def wireFieldsOf (dg : Bytes) : WireFields where
  srIndex := srIndexOf (byteAt dg 4)
  nbsMinus1 := byteAt dg 5
  nbcMinus1 := byteAt dg 6
  dataType := dataTypeOf (byteAt dg 7)
  reserved := reservedOf (byteAt dg 7)

/-- What stands around the wire word in a datagram (R80). -/
def wireBodyOf (src : SrcAddr) (dg : Bytes) : WireBody where
  src := src
  nameField := memRead dg 8 16
  frameCounter := le32 dg 24
  payload := dg.drop 28

/-- The WIRE row that a sub-protocol and a codec select (R92): SERVICE for a non-zero sub-protocol, else COMPRESSED for
a non-zero codec, else PCM. -/
def wireInstr (sub : BitVec 3) (codec : BitVec 4) (f : WireFields) (b : WireBody) : Instr :=
  if sub.getLsbD 2 then .wireService4 (sub.extractLsb' 0 2) codec f b
  else if sub.getLsbD 1 then .wireService2 (sub.extractLsb' 0 1) codec f b
  else if sub.getLsbD 0 then .wireService1 codec f b
  else if codec.getLsbD 3 then .wireCompressed8 (codec.extractLsb' 0 3) f b
  else if codec.getLsbD 2 then .wireCompressed4 (codec.extractLsb' 0 2) f b
  else if codec.getLsbD 1 then .wireCompressed2 (codec.extractLsb' 0 1) f b
  else if codec.getLsbD 0 then .wireCompressed1 f b
  else .wirePcm f b

/-- The wire-class instruction of a datagram that passes the structural checks (R92, R141). -/
def decodeDatagram (maxPacketSize : Nat) (src : SrcAddr) (dg : Bytes) : Except DecodeError Instr :=
  match structureError maxPacketSize dg with
  | some e => .error e
  | none =>
    .ok (wireInstr (subProtocolOf (byteAt dg 4)) (codecOf (byteAt dg 7)) (wireFieldsOf dg) (wireBodyOf src dg))

/-- The decoder: the instruction of a request, or the reason why it is none. -/
def decode (p : Params) : Request → Except DecodeError Instr
  | .op word0 word1 src buf hdr => decodeOp word0 word1 src buf hdr
  | .datagram src dg => decodeDatagram p.maxPacketSize src dg

/-! ## The encoder -/

/-- word0 of R100. -/
def opWord (opc idx : BitVec 8) (arg : BitVec 16) : Word32 := (arg ++ idx ++ opc : BitVec (16 + 8 + 8))

/-- The header record of zeros that stands in HDR when an operation does not use it. -/
def zeroHeader : Header where
  subProtocol := 0
  srIndex := 0
  nbsMinus1 := 0
  nbcMinus1 := 0
  dataType := 0
  reserved := 0
  codec := 0
  name := []
  frameCounter := 0

/-- An operation request whose unused fields are 0 (R104: a missing operand is 0). -/
def opRequest (opc : BitVec 8) (idx : BitVec 8 := 0) (arg : BitVec 16 := 0) (val : Word32 := 0) (src : SrcAddr := 0)
    (buf : Bytes := []) (hdr : Header := zeroHeader) : Request :=
  .op (opWord opc idx arg) val src buf hdr

/-- The bytes of a datagram from its header fields (R80). -/
def datagramBytes (sub : BitVec 3) (codec : BitVec 4) (f : WireFields) (nameField : Bytes) (ctr : Word32)
    (payload : Bytes) : Bytes :=
  magic ++ [formatSrByte sub f.srIndex, f.nbsMinus1, f.nbcMinus1, formatBitByte codec f.reserved f.dataType] ++
    nameField ++ le32bytes ctr ++ payload

/-- The datagram of a wire-class instruction, given the bits its row fixes and frees. -/
def wireDatagram (sub : BitVec 3) (codec : BitVec 4) (f : WireFields) (b : WireBody) : Bytes :=
  datagramBytes sub codec f b.nameField b.frameCounter b.payload

/-- The encoder: the request of an instruction, written from the same tables (R80, R92, R100, R101). -/
def encode : Instr → Request
  | .rxPacket src dg => opRequest 0x01 (src := src) (buf := dg)
  | .txPacket k pl => opRequest 0x02 (arg := k) (buf := pl)
  | .pop slot n => opRequest 0x03 (idx := slot) (arg := n)
  | .stop slot => opRequest 0x04 (idx := slot)
  | .tick => opRequest 0x05
  | .cfgWrite reg val => opRequest 0x06 (idx := reg) (val := val)
  | .cfgRead reg => opRequest 0x07 (idx := reg)
  | .sessionRead slot => opRequest 0x08 (idx := slot)
  | .deviceFault slot => opRequest 0x09 (idx := slot)
  | .reset => opRequest 0x0A
  | .lookup fc => opRequest 0x10 (arg := fc)
  | .bytesPerFrame fc => opRequest 0x11 (arg := fc)
  | .framesInPayload fc len => opRequest 0x12 (arg := fc) (val := len)
  | .framesFit fc => opRequest 0x13 (arg := fc)
  | .encode hdr pl => opRequest 0x14 (buf := pl) (hdr := hdr)
  | .decode dg => opRequest 0x15 (buf := dg)
  | .wirePcm f b => .datagram b.src (wireDatagram 0 0 f b)
  | .wireCompressed8 c f b => .datagram b.src (wireDatagram 0 (1#1 ++ c : BitVec (1 + 3)) f b)
  | .wireCompressed4 c f b => .datagram b.src (wireDatagram 0 (1#2 ++ c : BitVec (2 + 2)) f b)
  | .wireCompressed2 c f b => .datagram b.src (wireDatagram 0 (1#3 ++ c : BitVec (3 + 1)) f b)
  | .wireCompressed1 f b => .datagram b.src (wireDatagram 0 1 f b)
  | .wireService4 u c f b => .datagram b.src (wireDatagram (1#1 ++ u : BitVec (1 + 2)) c f b)
  | .wireService2 u c f b => .datagram b.src (wireDatagram (1#2 ++ u : BitVec (2 + 1)) c f b)
  | .wireService1 c f b => .datagram b.src (wireDatagram 1 c f b)

/-! ## The rows of the opcode table -/

/-- The two formats of the opcode table: a row is matched against word0 of a request (OP), or against the word
`w = le32(DG, 4)` of a datagram (WIRE). -/
inductive RowFormat where
  | op
  | wire
  deriving DecidableEq, Repr

/-- A row of spec/opcode_table.json: `word &&& mask = pattern` selects it. -/
structure TableRow where
  format : RowFormat
  pattern : Word32
  mask : Word32
  deriving DecidableEq, Repr

/-- The row of an operation code (R101). -/
def opRow (opc : Word32) : TableRow := ⟨.op, opc, 0x000000FF⟩

/-- The opcode-table row of each constructor. -/
def rowOf : Instr → TableRow
  | .rxPacket _ _ => opRow 0x01
  | .txPacket _ _ => opRow 0x02
  | .pop _ _ => opRow 0x03
  | .stop _ => opRow 0x04
  | .tick => opRow 0x05
  | .cfgWrite _ _ => opRow 0x06
  | .cfgRead _ => opRow 0x07
  | .sessionRead _ => opRow 0x08
  | .deviceFault _ => opRow 0x09
  | .reset => opRow 0x0A
  | .lookup _ => opRow 0x10
  | .bytesPerFrame _ => opRow 0x11
  | .framesInPayload _ _ => opRow 0x12
  | .framesFit _ => opRow 0x13
  | .encode _ _ => opRow 0x14
  | .decode _ => opRow 0x15
  | .wirePcm _ _ => ⟨.wire, 0x00000000, 0xF00000E0⟩
  | .wireCompressed8 _ _ _ => ⟨.wire, 0x80000000, 0x800000E0⟩
  | .wireCompressed4 _ _ _ => ⟨.wire, 0x40000000, 0xC00000E0⟩
  | .wireCompressed2 _ _ _ => ⟨.wire, 0x20000000, 0xE00000E0⟩
  | .wireCompressed1 _ _ => ⟨.wire, 0x10000000, 0xF00000E0⟩
  | .wireService4 _ _ _ _ => ⟨.wire, 0x00000080, 0x00000080⟩
  | .wireService2 _ _ _ _ => ⟨.wire, 0x00000040, 0x000000C0⟩
  | .wireService1 _ _ _ => ⟨.wire, 0x00000020, 0x000000E0⟩

/-- The word of a request that the table's rows are matched against, and the format it is matched in. -/
def tableWordOf : Request → RowFormat × Word32
  | .op word0 _ _ _ _ => (.op, word0)
  | .datagram _ dg => (.wire, le32 dg 4)

/-- A request's table word selects a row. -/
def TableRow.Selects (row : TableRow) (r : Request) : Prop :=
  row.format = (tableWordOf r).1 ∧ (tableWordOf r).2 &&& row.mask = row.pattern

/-! ## Words of the opcode table, as the host numbers them -/

/-- The datagram whose bytes 4 to 7 are the wire word `w` and whose other operand bytes are 0 (R80). -/
def datagramOfWord (w : Word32) : Bytes := magic ++ le32bytes w ++ zeros 20

/-- The request of a table word: an operation request where the low byte is an operation code of R101, else the arrival
of a datagram that holds `w` as its wire word. The two formats of the table share the 32 bits; no row's own word, with
its free bits 0, is read two ways. DESIGN CHOICE, safe (notes/assumptions/5.md). -/
def requestOfTableWord (nbits w : Nat) : Request :=
  let v := w % 2 ^ nbits
  let word0 := BitVec.ofNat 32 v
  let word1 := BitVec.ofNat 32 (v / 2 ^ 32)
  match decodeOp word0 word1 0 [] zeroHeader with
  | .ok _ => .op word0 word1 0 [] zeroHeader
  | .error _ => .datagram 0 (datagramOfWord word0)

/-- The instruction that the decoder reads from a table word. A request is two 32-bit words (R103), so a longer word is
none. -/
def decodeTableWord (nbits w : Nat) : Option Instr :=
  if 64 < nbits then none
  else (decode Params.reference (requestOfTableWord nbits w)).toOption

end Sys2Proof
end

