-- ==== Sys2Proof/Machine/State.lean ====
section
/-! DEFINITION. The state of the block as plain data (spec 10_state.md R20 to R42), what an operation returns (R41,
60_exceptions.md R320), the reasons a step could stop, and the machine right after reset (70_reset_and_hazards.md R350). -/

namespace Sys2Proof.Machine

/-! ## Value types -/

/-- bits_per_sample: one of 8, 16, 24, 32 (R35, R122). -/
inductive BitDepth where
  | d8
  | d16
  | d24
  | d32
  deriving DecidableEq, Repr

/-- byte_order has the single value LE (R35, R62). -/
inductive ByteOrder where
  | le
  deriving DecidableEq, Repr

/-- A FormatDescriptor (R35). The sample rate in Hz and the channel count are numbers, not bit fields: DESIGN CHOICE, safe
(notes/assumptions/12.md). -/
structure FormatDescriptor where
  sampleRate : Nat
  bitsPerSample : BitDepth
  channelCount : Nat
  byteOrder : ByteOrder
  deriving DecidableEq, Repr

/-- PlaybackState (R36). -/
inductive PlaybackState where
  | idle
  | buffering
  | playing
  | draining
  deriving DecidableEq, Repr

/-! ## Session slots -/

/-- A session slot (R37). -/
structure Slot where
  /-- The slot holds a session. -/
  valid : Bool
  /-- StreamKey source address. -/
  src : SrcAddr
  /-- StreamKey stream name. -/
  name : Bytes
  /-- The playback state. -/
  state : PlaybackState
  /-- A format has been negotiated. -/
  fmtValid : Bool
  /-- The negotiated format. -/
  fmt : FormatDescriptor
  /-- `lastSeq` holds a value. -/
  seqValid : Bool
  /-- The last accepted frame counter. -/
  lastSeq : Word32
  /-- The playback buffer's queue, oldest frame first. -/
  fifo : List Frame
  /-- Silence is to be prepended before the next real frames. -/
  prependPending : Bool
  /-- playback_started has been emitted for this session. -/
  startedNotified : Bool
  /-- Ticks since the last accepted packet, saturating. -/
  idleTicks : Word32
  deriving DecidableEq, Repr

/-- The format of a cleared slot, `{0, 8, 1, LE}` (R39). -/
def FormatDescriptor.cleared : FormatDescriptor := ⟨0, .d8, 1, .le⟩

/-- A cleared (free) slot (R39). -/
def Slot.cleared : Slot where
  valid := false
  src := 0
  name := []
  state := .idle
  fmtValid := false
  fmt := .cleared
  seqValid := false
  lastSeq := 0
  fifo := []
  prependPending := false
  startedNotified := false
  idleTicks := 0

/-! ## The register file -/

/-- The mapped registers, by name (R23). -/
inductive Reg where
  | ctrl
  | rxDepthMask
  | lwmMs
  | seqTol
  | sessionTimeout
  | udpPort
  | txFormat
  | txSeq
  | filterName0
  | filterName1
  | filterName2
  | filterName3
  | txName0
  | txName1
  | txName2
  | txName3
  | statRxAccepted
  | statRxMalformed
  | statRxUnsupported
  | statRxRejected
  | statRxForwarded
  | statRxLateDropped
  | statFrameLossEvents
  | statGapSilenceFrames
  | statOverflowDropped
  | statCountMismatch
  | statTxPackets
  | statTxErrors
  | statUnderruns
  | statSeqResets
  deriving DecidableEq, Repr

/-- The register file `reg` (R22, R23): thirty registers of 32 bits. -/
structure Regs where
  /-- CTRL (0x00, R24). -/
  ctrl : Word32
  /-- RX_DEPTH_MASK (0x01, R25). -/
  rxDepthMask : Word32
  /-- LWM_MS (0x02, R26). -/
  lwmMs : Word32
  /-- SEQ_TOL (0x03, R27). -/
  seqTol : Word32
  /-- SESSION_TIMEOUT (0x04, R28). -/
  sessionTimeout : Word32
  /-- UDP_PORT (0x05, R29). -/
  udpPort : Word32
  /-- TX_FORMAT (0x06, R30). -/
  txFormat : Word32
  /-- TX_SEQ (0x07, R31). -/
  txSeq : Word32
  /-- FILTER_NAME0 (0x08, R32). -/
  filterName0 : Word32
  /-- FILTER_NAME1 (0x09, R32). -/
  filterName1 : Word32
  /-- FILTER_NAME2 (0x0A, R32). -/
  filterName2 : Word32
  /-- FILTER_NAME3 (0x0B, R32). -/
  filterName3 : Word32
  /-- TX_NAME0 (0x0C, R33). -/
  txName0 : Word32
  /-- TX_NAME1 (0x0D, R33). -/
  txName1 : Word32
  /-- TX_NAME2 (0x0E, R33). -/
  txName2 : Word32
  /-- TX_NAME3 (0x0F, R33). -/
  txName3 : Word32
  /-- STAT_RX_ACCEPTED (0x10, R34). -/
  statRxAccepted : Word32
  /-- STAT_RX_MALFORMED (0x11, R34). -/
  statRxMalformed : Word32
  /-- STAT_RX_UNSUPPORTED (0x12, R34). -/
  statRxUnsupported : Word32
  /-- STAT_RX_REJECTED (0x13, R34). -/
  statRxRejected : Word32
  /-- STAT_RX_FORWARDED (0x14, R34). -/
  statRxForwarded : Word32
  /-- STAT_RX_LATE_DROPPED (0x15, R34). -/
  statRxLateDropped : Word32
  /-- STAT_FRAME_LOSS_EVENTS (0x16, R34). -/
  statFrameLossEvents : Word32
  /-- STAT_GAP_SILENCE_FRAMES (0x17, R34). -/
  statGapSilenceFrames : Word32
  /-- STAT_OVERFLOW_DROPPED (0x18, R34). -/
  statOverflowDropped : Word32
  /-- STAT_COUNT_MISMATCH (0x19, R34). -/
  statCountMismatch : Word32
  /-- STAT_TX_PACKETS (0x1A, R34). -/
  statTxPackets : Word32
  /-- STAT_TX_ERRORS (0x1B, R34). -/
  statTxErrors : Word32
  /-- STAT_UNDERRUNS (0x1C, R34). -/
  statUnderruns : Word32
  /-- STAT_SEQ_RESETS (0x1D, R34). -/
  statSeqResets : Word32
  deriving DecidableEq, Repr

/-- The reset values of R23 and R350. -/
def Regs.reset (p : Params) : Regs where
  ctrl := 0x00000000
  rxDepthMask := 0x00000002
  lwmMs := 0x00000064
  seqTol := p.seqTolReset
  sessionTimeout := p.sessionTimeoutReset
  udpPort := 0x00001B44
  txFormat := 0x00010103
  txSeq := 0
  filterName0 := 0
  filterName1 := 0
  filterName2 := 0
  filterName3 := 0
  txName0 := 0
  txName1 := 0
  txName2 := 0
  txName3 := 0
  statRxAccepted := 0
  statRxMalformed := 0
  statRxUnsupported := 0
  statRxRejected := 0
  statRxForwarded := 0
  statRxLateDropped := 0
  statFrameLossEvents := 0
  statGapSilenceFrames := 0
  statOverflowDropped := 0
  statCountMismatch := 0
  statTxPackets := 0
  statTxErrors := 0
  statUnderruns := 0
  statSeqResets := 0

/-! ## Outputs -/

/-- Where a forwarded datagram goes (R40, R151). -/
inductive ForwardKind where
  | compressed
  | service
  deriving DecidableEq, Repr

/-- An event of the event stream (R40). -/
inductive Event where
  /-- STARTED(i): the notification playback_started for slot i. -/
  | started (i : Nat)
  /-- STOPPED(i): the notification playback_stopped for slot i. -/
  | stopped (i : Nat)
  /-- RECONFIGURE(i, d): the buffer/device reconfiguration request for slot i. -/
  | reconfigure (i : Nat) (d : FormatDescriptor)
  /-- FORWARD(kind, src, DG): a datagram forwarded unprocessed. -/
  | forward (kind : ForwardKind) (src : SrcAddr) (dg : Bytes)
  deriving DecidableEq, Repr

/-- The result codes of R320, in the order of their numbers 0 to 26. -/
inductive ResultCode where
  | ok
  | malformedTruncated
  | malformedOversized
  | malformedBadMagic
  | malformedPayloadNotMultiple
  | malformedPayloadShort
  | unsupportedRate
  | unsupportedDepth
  | unsupportedRxCapability
  | rejectedNameMismatch
  | rejectedSeqRegression
  | rejectedNoSlot
  | rejectedDraining
  | droppedLate
  | forwardedCompressed
  | forwardedService
  | encodeTooLarge
  | encodeBadName
  | txBadCount
  | txPayloadMismatch
  | popNotPlaying
  | popUnderrun
  | popDrained
  | noSession
  | cfgUnmapped
  | cfgReadOnly
  | illegalOp
  deriving DecidableEq, Repr

/-- What SESSION_READ returns (R293). -/
structure SessionView where
  valid : Bool
  src : SrcAddr
  name : Bytes
  state : PlaybackState
  fmtValid : Bool
  fmt : FormatDescriptor
  seqValid : Bool
  lastSeq : Word32
  fill : Nat
  fifo : List Frame
  threshold : Nat
  prependPending : Bool
  startedNotified : Bool
  idleTicks : Word32
  deriving DecidableEq, Repr

/-- The data record of a result (R41, R322). -/
inductive ResultData where
  /-- No data. -/
  | none
  /-- A register's value (CFG_READ, R290). -/
  | word (v : Word32)
  /-- The format code looked up, with an UNSUPPORTED_x error (R322). -/
  | formatCode (fc : BitVec 16)
  /-- The slot index, with NO_SESSION (R322). -/
  | slotIndex (i : BitVec 8)
  /-- A format descriptor (LOOKUP, R120). -/
  | descriptor (d : FormatDescriptor)
  /-- A number (BYTES_PER_FRAME, FRAMES_IN_PAYLOAD, FRAMES_FIT, and the sessions torn down by TICK). -/
  | count (n : Nat)
  /-- The bytes of a datagram (ENCODE, TX_PACKET). -/
  | bytes (b : Bytes)
  /-- A header record and a payload (DECODE, R141). -/
  | packet (h : Header) (pl : Bytes)
  /-- The frames delivered by POP, oldest first (R202). -/
  | frames (fs : List Frame)
  /-- What an accepted RX_PACKET returns (R41): slot, flags word, gap, frames dropped by overflow. -/
  | rx (slot : Nat) (flags : Word32) (gap : Word32) (dropped : Nat)
  /-- A session slot (SESSION_READ, R293). -/
  | session (v : SessionView)
  /-- The playback state after a STOP (R294). -/
  | playback (st : PlaybackState)
  deriving DecidableEq, Repr

/-- The result `(code, data)` of an operation (R41). -/
structure Result where
  code : ResultCode
  data : ResultData
  deriving DecidableEq, Repr

/-! ## Why a step stops -/

/-- Faults. The block has none: "No input makes the block hang, fault, enter an undefined state or stop taking requests"
(R327, 93_implementation_defined.md), so the type has no constructor and no step can answer a fault. -/
inductive Fault where
  deriving DecidableEq, Repr

/-- Refusals. -/
inductive Refusal where
  /-- An instruction of the opcode table without a meaning yet, by its mnemonic. Raised only by an arm of `exec` that has
  no meaning; no arm is left so. Safe: the model stops where the block goes on. -/
  | notModelled (mnemonic : String)
  deriving DecidableEq, Repr

/-! ## The state -/

/-- The state of the block: the tuple `(reg, s, E)` of R20, beside the parameters that are fixed for its life (R351), and
two fields of the model's own for its request interface (R6): the requests not yet taken, and the last result. -/
structure State where
  /-- The elaboration-time parameters (R7). No operation changes them (R351). -/
  params : Params
  /-- The register file (R22). -/
  regs : Regs
  /-- The session slots `s[0 .. N_SESSIONS-1]` (R37). -/
  slots : List Slot
  /-- The event stream E, oldest event first (R40). -/
  events : List Event
  /-- The requests the agents will have taken, in the total order of R70, next one first. The model's own field: it holds
  the environment's choice of that order. DESIGN CHOICE, safe (notes/assumptions/2.md). -/
  requests : List Request
  /-- The result of the last operation taken, `none` before the first. The model's own field: the response port of R41.
  DESIGN CHOICE, safe (notes/assumptions/3.md). -/
  result : Option Result
  deriving DecidableEq, Repr

/-- The block after power-on, for any parameter set (R350): E is empty and every slot is cleared. No request has arrived
and no result has been returned. -/
def State.powerOn (p : Params) : State where
  params := p
  regs := Regs.reset p
  slots := List.replicate p.nSessions Slot.cleared
  events := []
  requests := []
  result := Option.none

/-- The machine right after reset (R350), with the parameters of the reference configuration. The spec leaves the
parameters OPEN: DESIGN CHOICE, unsafe (notes/assumptions/1.md). -/
def State.reset : State := State.powerOn Params.reference

end Sys2Proof.Machine
end

