-- ==== Sys2Proof/Machine/Ops.lean ====
section
/-! DEFINITION. The operations every unit shares: the register file's one home (spec 10_state.md R22, R23), ending an
operation with a result (60_exceptions.md R320, R323), and reading and updating a session slot (10_state.md R37). -/

namespace Sys2Proof.Machine

/-! ## The register file -/

/-- The register at an index of the register space; `none` where the index is unmapped (R22, R23). -/
def regOfIndex (idx : BitVec 8) : Option Reg :=
  match idx.toNat with
  | 0x00 => some .ctrl
  | 0x01 => some .rxDepthMask
  | 0x02 => some .lwmMs
  | 0x03 => some .seqTol
  | 0x04 => some .sessionTimeout
  | 0x05 => some .udpPort
  | 0x06 => some .txFormat
  | 0x07 => some .txSeq
  | 0x08 => some .filterName0
  | 0x09 => some .filterName1
  | 0x0A => some .filterName2
  | 0x0B => some .filterName3
  | 0x0C => some .txName0
  | 0x0D => some .txName1
  | 0x0E => some .txName2
  | 0x0F => some .txName3
  | 0x10 => some .statRxAccepted
  | 0x11 => some .statRxMalformed
  | 0x12 => some .statRxUnsupported
  | 0x13 => some .statRxRejected
  | 0x14 => some .statRxForwarded
  | 0x15 => some .statRxLateDropped
  | 0x16 => some .statFrameLossEvents
  | 0x17 => some .statGapSilenceFrames
  | 0x18 => some .statOverflowDropped
  | 0x19 => some .statCountMismatch
  | 0x1A => some .statTxPackets
  | 0x1B => some .statTxErrors
  | 0x1C => some .statUnderruns
  | 0x1D => some .statSeqResets
  | _ => none

/-- The stored value of a register. -/
def Regs.raw (r : Regs) : Reg → Word32
  | .ctrl => r.ctrl
  | .rxDepthMask => r.rxDepthMask
  | .lwmMs => r.lwmMs
  | .seqTol => r.seqTol
  | .sessionTimeout => r.sessionTimeout
  | .udpPort => r.udpPort
  | .txFormat => r.txFormat
  | .txSeq => r.txSeq
  | .filterName0 => r.filterName0
  | .filterName1 => r.filterName1
  | .filterName2 => r.filterName2
  | .filterName3 => r.filterName3
  | .txName0 => r.txName0
  | .txName1 => r.txName1
  | .txName2 => r.txName2
  | .txName3 => r.txName3
  | .statRxAccepted => r.statRxAccepted
  | .statRxMalformed => r.statRxMalformed
  | .statRxUnsupported => r.statRxUnsupported
  | .statRxRejected => r.statRxRejected
  | .statRxForwarded => r.statRxForwarded
  | .statRxLateDropped => r.statRxLateDropped
  | .statFrameLossEvents => r.statFrameLossEvents
  | .statGapSilenceFrames => r.statGapSilenceFrames
  | .statOverflowDropped => r.statOverflowDropped
  | .statCountMismatch => r.statCountMismatch
  | .statTxPackets => r.statTxPackets
  | .statTxErrors => r.statTxErrors
  | .statUnderruns => r.statUnderruns
  | .statSeqResets => r.statSeqResets

/-- Store a value as it is. -/
def Regs.setRaw (r : Regs) (k : Reg) (v : Word32) : Regs :=
  match k with
  | .ctrl => { r with ctrl := v }
  | .rxDepthMask => { r with rxDepthMask := v }
  | .lwmMs => { r with lwmMs := v }
  | .seqTol => { r with seqTol := v }
  | .sessionTimeout => { r with sessionTimeout := v }
  | .udpPort => { r with udpPort := v }
  | .txFormat => { r with txFormat := v }
  | .txSeq => { r with txSeq := v }
  | .filterName0 => { r with filterName0 := v }
  | .filterName1 => { r with filterName1 := v }
  | .filterName2 => { r with filterName2 := v }
  | .filterName3 => { r with filterName3 := v }
  | .txName0 => { r with txName0 := v }
  | .txName1 => { r with txName1 := v }
  | .txName2 => { r with txName2 := v }
  | .txName3 => { r with txName3 := v }
  | .statRxAccepted => { r with statRxAccepted := v }
  | .statRxMalformed => { r with statRxMalformed := v }
  | .statRxUnsupported => { r with statRxUnsupported := v }
  | .statRxRejected => { r with statRxRejected := v }
  | .statRxForwarded => { r with statRxForwarded := v }
  | .statRxLateDropped => { r with statRxLateDropped := v }
  | .statFrameLossEvents => { r with statFrameLossEvents := v }
  | .statGapSilenceFrames => { r with statGapSilenceFrames := v }
  | .statOverflowDropped => { r with statOverflowDropped := v }
  | .statCountMismatch => { r with statCountMismatch := v }
  | .statTxPackets => { r with statTxPackets := v }
  | .statTxErrors => { r with statTxErrors := v }
  | .statUnderruns => { r with statUnderruns := v }
  | .statSeqResets => { r with statSeqResets := v }

/-- The bits a register has: all but its reserved bits (R23); for a register CFG_WRITE can write, the WMASK of R291. -/
def regMask : Reg → Word32
  | .ctrl => 0x00000003
  | .rxDepthMask => 0x0000000F
  | .lwmMs => 0x0000FFFF
  | .seqTol => 0xFFFFFFFF
  | .sessionTimeout => 0xFFFFFFFF
  | .udpPort => 0x0000FFFF
  | .txFormat => 0x00F7FFFF
  | .txSeq => 0xFFFFFFFF
  | .filterName0 => 0xFFFFFFFF
  | .filterName1 => 0xFFFFFFFF
  | .filterName2 => 0xFFFFFFFF
  | .filterName3 => 0xFFFFFFFF
  | .txName0 => 0xFFFFFFFF
  | .txName1 => 0xFFFFFFFF
  | .txName2 => 0xFFFFFFFF
  | .txName3 => 0xFFFFFFFF
  | .statRxAccepted => 0xFFFFFFFF
  | .statRxMalformed => 0xFFFFFFFF
  | .statRxUnsupported => 0xFFFFFFFF
  | .statRxRejected => 0xFFFFFFFF
  | .statRxForwarded => 0xFFFFFFFF
  | .statRxLateDropped => 0xFFFFFFFF
  | .statFrameLossEvents => 0xFFFFFFFF
  | .statGapSilenceFrames => 0xFFFFFFFF
  | .statOverflowDropped => 0xFFFFFFFF
  | .statCountMismatch => 0xFFFFFFFF
  | .statTxPackets => 0xFFFFFFFF
  | .statTxErrors => 0xFFFFFFFF
  | .statUnderruns => 0xFFFFFFFF
  | .statSeqResets => 0xFFFFFFFF

/-- Read a register: reserved bits read as 0 (R22), whatever is stored. DESIGN CHOICE, safe (notes/assumptions/10.md). -/
def Regs.get (r : Regs) (k : Reg) : Word32 := r.raw k &&& regMask k

/-- Write a register: reserved bits ignore the write (R22, R291). -/
def Regs.set (r : Regs) (k : Reg) (v : Word32) : Regs := r.setRaw k (v &&& regMask k)

/-- `counter <- wrap32(counter + n)` (R12). -/
def Regs.bump (r : Regs) (k : Reg) (n : Nat) : Regs := r.set k (r.get k + BitVec.ofNat 32 n)

/-- A statistics counter: read only (R22, R34). -/
def Reg.readOnly (k : Reg) : Bool :=
  match k with
  | .ctrl => false
  | .rxDepthMask => false
  | .lwmMs => false
  | .seqTol => false
  | .sessionTimeout => false
  | .udpPort => false
  | .txFormat => false
  | .txSeq => false
  | .filterName0 => false
  | .filterName1 => false
  | .filterName2 => false
  | .filterName3 => false
  | .txName0 => false
  | .txName1 => false
  | .txName2 => false
  | .txName3 => false
  | .statRxAccepted => true
  | .statRxMalformed => true
  | .statRxUnsupported => true
  | .statRxRejected => true
  | .statRxForwarded => true
  | .statRxLateDropped => true
  | .statFrameLossEvents => true
  | .statGapSilenceFrames => true
  | .statOverflowDropped => true
  | .statCountMismatch => true
  | .statTxPackets => true
  | .statTxErrors => true
  | .statUnderruns => true
  | .statSeqResets => true

/-! ## Ending an operation -/

/-- End an operation with a result (`return` and `raise` of R10). Every operation checks all it may refuse before it
writes, so a `raise` has nothing to undo (R323): this is the whole of the block's error mechanism, which takes no trap
(R326). -/
def finish (code : ResultCode) (data : ResultData) (s : State) : State :=
  { s with result := some ⟨code, data⟩ }

/-- Add `n` to a statistics counter of the machine (R12). -/
def count (k : Reg) (n : Nat) (s : State) : State :=
  { s with regs := s.regs.bump k n }

/-- `emit` for a list of events, in order (R10, R40): the stream is append-only. -/
def emit (es : List Event) (s : State) : State :=
  { s with events := s.events ++ es }

/-! ## Session slots -/

/-- The slot an operation names, when the index is below N_SESSIONS (R68), which is the length of the slot list in every
state a run reaches. DESIGN CHOICE, safe (notes/assumptions/11.md). -/
def State.slot? (s : State) (i : Nat) : Option Slot := s.slots[i]?

/-- Slot `i` when it holds a session; POP, STOP and DEVICE_FAULT answer NO_SESSION where it does not (R320). -/
def State.session? (s : State) (i : Nat) : Option Slot :=
  match s.slot? i with
  | some sl => if sl.valid then some sl else none
  | none => none

/-- Replace slot `i` and emit the events of the change. -/
def putSlot (i : Nat) (sl : Slot) (es : List Event) (s : State) : State :=
  { s with slots := s.slots.set i sl, events := s.events ++ es }

/-- Run a procedure on every slot in ascending order. It answers the new slot and the events it emits; a count is summed
over the slots (R292, R296). -/
def sweep (f : Nat → Slot → Slot × List Event × Nat) : Nat → List Slot → List Slot × List Event × Nat
  | _, [] => ([], [], 0)
  | i, sl :: rest =>
    let here := f i sl
    let later := sweep f (i + 1) rest
    (here.1 :: later.1, here.2.1 ++ later.2.1, here.2.2 + later.2.2)

/-- `raise NO_SESSION(i)` (R320, R322). -/
def raiseNoSession (i : BitVec 8) (s : State) : State := finish .noSession (.slotIndex i) s

end Sys2Proof.Machine
end

