-- ==== Sys2Proof/Machine/Operands.lean ====
section
/-! DEFINITION. The operand forms of the operations: register fields and names (spec 10_state.md R24 to R33), the format
code and the format table (30_encoding.md R85, R86, R88; 40_format_table.md R120, R123), frame arithmetic
(42_frame_arithmetic.md R170 to R176), the fill threshold (43_playback_buffer.md R195) and the fields of a header
(30_encoding.md R84, R92). -/

namespace Sys2Proof.Machine

/-! ## Register fields -/

/-- CTRL.FILTER_EN (R24). -/
def filterEnabled (r : Regs) : Bool := (r.get .ctrl).getLsbD 0

/-- CTRL.PREPEND_SILENCE (R24). -/
def prependSilence (r : Regs) : Bool := (r.get .ctrl).getLsbD 1

/-- The sixteen bytes that four name registers hold: byte 4k+j is bits [8j+7:8j] of word k (R32, R63). -/
def nameField (w0 w1 w2 w3 : Word32) : Bytes := le32bytes w0 ++ le32bytes w1 ++ le32bytes w2 ++ le32bytes w3

/-- The effective filter name (R32). -/
def filterName (r : Regs) : Bytes :=
  untilNul (nameField (r.get .filterName0) (r.get .filterName1) (r.get .filterName2) (r.get .filterName3))

/-- The effective transmit name (R33). -/
def txName (r : Regs) : Bytes :=
  untilNul (nameField (r.get .txName0) (r.get .txName1) (r.get .txName2) (r.get .txName3))

/-- TX_FORMAT.SR_INDEX, bits [4:0] (R30). -/
def txSrIndex (f : Word32) : BitVec 5 := f.extractLsb' 0 5

/-- TX_FORMAT.SUB_PROTOCOL, bits [7:5] (R30). -/
def txSubProtocol (f : Word32) : BitVec 3 := f.extractLsb' 5 3

/-- TX_FORMAT.NBC_MINUS1, bits [15:8] (R30). -/
def txNbcMinus1 (f : Word32) : BitVec 8 := f.extractLsb' 8 8

/-- TX_FORMAT.DATA_TYPE, bits [18:16] (R30). -/
def txDataType (f : Word32) : BitVec 3 := f.extractLsb' 16 3

/-- TX_FORMAT.CODEC, bits [23:20] (R30). -/
def txCodec (f : Word32) : BitVec 4 := f.extractLsb' 20 4

/-! ## Format codes and the format table -/

/-- The format code: `{nbc_minus1, sr_index, data_type}` (R86). -/
def formatCode (nbc : BitVec 8) (sr : BitVec 5) (dt : BitVec 3) : BitVec 16 := (nbc ++ sr ++ dt : BitVec (8 + 5 + 3))

/-- FC[15:8] (R86). -/
def fcNbc (fc : BitVec 16) : BitVec 8 := fc.extractLsb' 8 8

/-- FC[7:3] (R86). -/
def fcSrIndex (fc : BitVec 16) : BitVec 5 := fc.extractLsb' 3 5

/-- FC[2:0] (R86). -/
def fcDataType (fc : BitVec 16) : BitVec 3 := fc.extractLsb' 0 3

/-- The number of bits of a depth (R35). -/
def BitDepth.bits : BitDepth → Nat
  | .d8 => 8
  | .d16 => 16
  | .d24 => 24
  | .d32 => 32

/-- The depth a data type maps to; data types 4 to 7 are unmapped (R85, R120). -/
def depthOfDataType (dt : BitVec 3) : Option BitDepth :=
  match dt.toNat with
  | 0 => some .d8
  | 1 => some .d16
  | 2 => some .d24
  | 3 => some .d32
  | _ => none

/-- Why a format code is unsupported (R120). -/
inductive LookupError where
  /-- UNSUPPORTED_RATE: the rate index is unmapped. -/
  | rate
  /-- UNSUPPORTED_DEPTH: the data type is 4 to 7. -/
  | depth
  deriving DecidableEq, Repr

/-- SR_TABLE at a rate index; `none` is UNMAPPED (R88). -/
def rateOf (p : Params) (sr : BitVec 5) : Option Nat := (p.srTable[sr.toNat]?).join

/-- `lookup(FC)` of R120: the rate is checked before the depth (R324). -/
def lookup (p : Params) (fc : BitVec 16) : Except LookupError FormatDescriptor :=
  match rateOf p (fcSrIndex fc) with
  | none => .error .rate
  | some hz =>
    match depthOfDataType (fcDataType fc) with
    | none => .error .depth
    | some bits => .ok ⟨hz, bits, (fcNbc fc).toNat + 1, .le⟩

/-- The result code of a failed lookup (R120, R320). -/
def LookupError.code : LookupError → ResultCode
  | .rate => .unsupportedRate
  | .depth => .unsupportedDepth

/-- `depth_bit` of R123. -/
def depthBit : BitDepth → Nat
  | .d8 => 0
  | .d16 => 1
  | .d24 => 2
  | .d32 => 3

/-- `depth_accepted` of R123. -/
def depthAccepted (r : Regs) (d : FormatDescriptor) : Bool := (r.get .rxDepthMask).getLsbD (depthBit d.bitsPerSample)

/-! ## Frame arithmetic -/

/-- Bytes per frame (R170). -/
def bpf (d : FormatDescriptor) : Nat := d.channelCount * (d.bitsPerSample.bits / 8)

/-- `frames_in_payload` of R172; `none` is MALFORMED_PAYLOAD_NOT_MULTIPLE. -/
def framesInPayload (d : FormatDescriptor) (len : Nat) : Option Nat :=
  if len % bpf d ≠ 0 then none else some (len / bpf d)

/-- `frames_fit` of R173. -/
def framesFit (p : Params) (d : FormatDescriptor) : Nat := min 256 ((p.maxPacketSize - 28) / bpf d)

/-- `slice(PL, b, n)` of R175: the first `n` frames of `b` bytes. -/
def slice (pl : Bytes) (b n : Nat) : List Frame := (List.range n).map fun j => memRead pl (j * b) b

/-- `lwm(d)` of R195: the low-water mark in frames. -/
def lowWaterMark (r : Regs) (d : FormatDescriptor) : Nat := d.sampleRate * (r.get .lwmMs).toNat / 1000

/-- `thr` of R195: the target fill level of a session with format `d`. -/
def threshold (p : Params) (r : Regs) (d : FormatDescriptor) : Nat := min (lowWaterMark r d) p.bufCapFrames

/-- A silence frame (R193): zero bytes for every depth, a value the spec doubts for 8 bits (notes/assumptions/9.md). -/
def silenceFrame (d : FormatDescriptor) : Frame := zeros (bpf d)

/-! ## Header fields -/

/-- The format code of a header (R86, R230 stage 3). -/
def headerFormatCode (h : Header) : BitVec 16 := formatCode h.nbcMinus1 h.srIndex h.dataType

/-- The frame count a header declares, 1 to 256 (R84, R94). -/
def headerFrames (h : Header) : Nat := h.nbsMinus1.toNat + 1

/-- The three dispatch classes (R92). -/
inductive WireClass where
  | pcm
  | compressed
  | service
  deriving DecidableEq, Repr

/-- `class(h)` of R92. -/
def wireClass (sub : BitVec 3) (codec : BitVec 4) : WireClass :=
  if sub ≠ 0 then .service else if codec ≠ 0 then .compressed else .pcm

/-- The header record of a wire-class instruction (R94, R142). -/
def wireHeader (sub : BitVec 3) (codec : BitVec 4) (f : WireFields) (b : WireBody) : Header where
  subProtocol := sub
  srIndex := f.srIndex
  nbsMinus1 := f.nbsMinus1
  nbcMinus1 := f.nbcMinus1
  dataType := f.dataType
  reserved := f.reserved
  codec := codec
  name := untilNul b.nameField
  frameCounter := b.frameCounter

end Sys2Proof.Machine
end

