-- ==== Sys2Proof/Machine/Codec.lean ====
section
/-! DEFINITION. The packet codec: ENCODE and DECODE (spec 41_packet_codec.md R140 to R149). They write no state
(46_control.md R299). -/

namespace Sys2Proof.Machine

/-- Why ENCODE refuses (R140). -/
inductive EncodeError where
  /-- ENCODE_BAD_NAME: the name is over 16 bytes or holds 0x00. -/
  | badName
  /-- ENCODE_TOO_LARGE: header and payload exceed MAX_PACKET_SIZE. -/
  | tooLarge
  deriving DecidableEq, Repr

/-- The free wire fields of a header record (R142). -/
def headerFields (h : Header) : WireFields where
  srIndex := h.srIndex
  nbsMinus1 := h.nbsMinus1
  nbcMinus1 := h.nbcMinus1
  dataType := h.dataType
  reserved := h.reserved

/-- `encode(H, PL)` of R140: the name is checked first. -/
def packetEncode (maxPacketSize : Nat) (h : Header) (pl : Bytes) : Except EncodeError Bytes :=
  if 16 < h.name.length ∨ (0 : Byte) ∈ h.name then .error .badName
  else if maxPacketSize < 28 + pl.length then .error .tooLarge
  else .ok (datagramBytes h.subProtocol h.codec (headerFields h) (padName h.name) h.frameCounter pl)

/-- The result code of a failed encode (R320). -/
def EncodeError.code : EncodeError → ResultCode
  | .badName => .encodeBadName
  | .tooLarge => .encodeTooLarge

/-- The header record of a datagram that passes the structural checks (R94, R141). -/
def headerOf (dg : Bytes) : Header where
  subProtocol := subProtocolOf (byteAt dg 4)
  srIndex := srIndexOf (byteAt dg 4)
  nbsMinus1 := byteAt dg 5
  nbcMinus1 := byteAt dg 6
  dataType := dataTypeOf (byteAt dg 7)
  reserved := reservedOf (byteAt dg 7)
  codec := codecOf (byteAt dg 7)
  name := untilNul (memRead dg 8 16)
  frameCounter := le32 dg 24

/-- `decode(DG)` of R141: no field is read before the structural checks have passed (R143). -/
def packetDecode (maxPacketSize : Nat) (dg : Bytes) : Except DecodeError (Header × Bytes) :=
  match structureError maxPacketSize dg with
  | some e => .error e
  | none => .ok (headerOf dg, dg.drop 28)

/-- The result code of a decode error (R141, R298, R320). -/
def decodeErrorCode : DecodeError → ResultCode
  | .illegalOp _ => .illegalOp
  | .truncated => .malformedTruncated
  | .oversized => .malformedOversized
  | .badMagic => .malformedBadMagic

/-- ENCODE (R140). -/
def execEncode (hdr : Header) (pl : Bytes) (s : State) : Host.Outcome State Fault Refusal :=
  .next <|
    match packetEncode s.params.maxPacketSize hdr pl with
    | .error e => finish e.code .none s
    | .ok dg => finish .ok (.bytes dg) s

/-- DECODE (R141). -/
def execDecode (dg : Bytes) (s : State) : Host.Outcome State Fault Refusal :=
  .next <|
    match packetDecode s.params.maxPacketSize dg with
    | .error e => finish (decodeErrorCode e) .none s
    | .ok (h, pl) => finish .ok (.packet h pl) s

end Sys2Proof.Machine
end

