-- ==== Sys2Proof/Machine/Flags.lean ====
section
/-! DEFINITION. The flags word that an accepted RX_PACKET returns: "the block's only condition-code state", part of the
result and stored nowhere (spec 10_state.md R41), and the numbers of the result codes and states (60_exceptions.md R320,
10_state.md R36). -/

namespace Sys2Proof.Machine

/-- One flag at its bit of the flags word. -/
def flagBit (set : Bool) (bit : Nat) : Word32 := if set then BitVec.ofNat 32 (2 ^ bit) else 0

/-- The flags word of R41: [0] NEW_SESSION, [1] FMT_CHANGED, [2] GAP, [3] COUNT_MISMATCH, [4] OVERFLOW,
[5] ENTERED_PLAYING, [31:6] 0. -/
def rxFlags (newSession fmtChanged gap countMismatch overflow enteredPlaying : Bool) : Word32 :=
  flagBit newSession 0 ||| flagBit fmtChanged 1 ||| flagBit gap 2 ||| flagBit countMismatch 3 |||
    flagBit overflow 4 ||| flagBit enteredPlaying 5

/-- The number of a result code (R320). -/
def ResultCode.number : ResultCode → Nat
  | .ok => 0
  | .malformedTruncated => 1
  | .malformedOversized => 2
  | .malformedBadMagic => 3
  | .malformedPayloadNotMultiple => 4
  | .malformedPayloadShort => 5
  | .unsupportedRate => 6
  | .unsupportedDepth => 7
  | .unsupportedRxCapability => 8
  | .rejectedNameMismatch => 9
  | .rejectedSeqRegression => 10
  | .rejectedNoSlot => 11
  | .rejectedDraining => 12
  | .droppedLate => 13
  | .forwardedCompressed => 14
  | .forwardedService => 15
  | .encodeTooLarge => 16
  | .encodeBadName => 17
  | .txBadCount => 18
  | .txPayloadMismatch => 19
  | .popNotPlaying => 20
  | .popUnderrun => 21
  | .popDrained => 22
  | .noSession => 23
  | .cfgUnmapped => 24
  | .cfgReadOnly => 25
  | .illegalOp => 26

/-- The success kind of R320 and R321: the operation committed every write it shows. -/
def ResultCode.isSuccess : ResultCode → Bool
  | .ok | .forwardedCompressed | .forwardedService | .popNotPlaying | .popUnderrun | .popDrained => true
  | .malformedTruncated | .malformedOversized | .malformedBadMagic | .malformedPayloadNotMultiple
  | .malformedPayloadShort | .unsupportedRate | .unsupportedDepth | .unsupportedRxCapability
  | .rejectedNameMismatch | .rejectedSeqRegression | .rejectedNoSlot | .rejectedDraining | .droppedLate
  | .encodeTooLarge | .encodeBadName | .txBadCount | .txPayloadMismatch | .noSession | .cfgUnmapped
  | .cfgReadOnly | .illegalOp => false

/-- The code of a playback state, as SESSION_READ and STOP return it (R36). -/
def PlaybackState.number : PlaybackState → Nat
  | .idle => 0
  | .buffering => 1
  | .playing => 2
  | .draining => 3

end Sys2Proof.Machine
end

