-- ==== Sys2Proof/Machine/Playback.lean ====
section
/-! DEFINITION. The playback buffer and its state machine (spec 43_playback_buffer.md R190 to R209): the FIFO
primitives, the transitions with their side effects, teardown, freeing, reset and format change of one slot, and POP.
A procedure that changes a slot answers the new slot and the events it emits, oldest first. -/

namespace Sys2Proof.Machine

/-! ## The queue -/

/-- `FifoPush` of R191 on a queue and the count of frames dropped so far: a full queue first drops its oldest frame. -/
def fifoPush (cap : Nat) (q : List Frame × Nat) (f : Frame) : List Frame × Nat :=
  if q.1.length = cap then (q.1.drop 1 ++ [f], q.2 + 1) else (q.1 ++ [f], q.2)

/-- Push the frames of a list in order, one FifoPush each (R200). -/
def pushFrames (cap : Nat) (fs : List Frame) (q : List Frame × Nat) : List Frame × Nat := fs.foldl (fifoPush cap) q

/-- The last `n` frames of a queue (R194). -/
def newest (n : Nat) (fs : List Frame) : List Frame := fs.drop (fs.length - n)

/-- `push_silence` of R193 in the closed form of R194: `m` silence frames `z`, for any `m` however large. No more than
the capacity of them is ever built. DEDUCED, safe (notes/assumptions/7.md). -/
def pushSilence (cap : Nat) (z : Frame) (m : Nat) (q : List Frame × Nat) : List Frame × Nat :=
  (newest cap (q.1 ++ List.replicate (min m cap) z), q.2 + (q.1.length + m - cap))

/-- `FifoPop` of R192: the `k` oldest frames, and the queue without them. -/
def fifoPop (fs : List Frame) (k : Nat) : List Frame × List Frame := (fs.take k, fs.drop k)

/-! ## Transitions -/

/-- `set_state(i, new)` of R197, the only way a slot's state changes. `resume` is NOTIFY_START_ON_RESUME and `prepend`
is CTRL.PREPEND_SILENCE. -/
def setState (resume prepend : Bool) (i : Nat) (new : PlaybackState) (sl : Slot) : Slot × List Event :=
  let leaves := sl.state = .playing ∧ new ≠ .playing
  let enters := new = .playing ∧ sl.state ≠ .playing
  ({ sl with
      state := new
      prependPending := if new = .buffering then prepend else sl.prependPending
      startedNotified := if enters then true else sl.startedNotified },
    (if leaves then [Event.stopped i] else []) ++
      (if enters ∧ (sl.startedNotified = false ∨ resume = true) then [Event.started i] else []))

/-- `free(i)` of R205: the transition to Idle, then the cleared slot. -/
def freeSlot (resume prepend : Bool) (i : Nat) (sl : Slot) : Slot × List Event :=
  (Slot.cleared, (setState resume prepend i .idle sl).2)

/-- `teardown(i)` of R204. -/
def teardown (resume prepend : Bool) (i : Nat) (sl : Slot) : Slot × List Event :=
  match sl.state with
  | .playing => setState resume prepend i .draining sl
  | .draining => (sl, [])
  | .idle => freeSlot resume prepend i sl
  | .buffering => freeSlot resume prepend i sl

/-- `session_reset(i)` of R206: the slot and its StreamKey stay, everything else is cleared. -/
def sessionReset (resume prepend : Bool) (i : Nat) (sl : Slot) : Slot × List Event :=
  let x := setState resume prepend i .idle sl
  ({ x.1 with
      fifo := []
      fmtValid := false
      fmt := .cleared
      seqValid := false
      lastSeq := 0
      prependPending := false
      startedNotified := false
      idleTicks := 0 }, x.2)

/-- `enter_format(i, d)` of R207: STOPPED, if any, comes before RECONFIGURE (R325). -/
def enterFormat (resume prepend : Bool) (i : Nat) (d : FormatDescriptor) (sl : Slot) : Slot × List Event :=
  let x := setState resume prepend i .buffering sl
  ({ x.1 with fifo := [], fmt := d, fmtValid := true }, x.2 ++ [Event.reconfigure i d])

/-- `check_start(i)` of R200; `thr` is the slot's threshold. -/
def checkStart (resume prepend : Bool) (thr i : Nat) (sl : Slot) : Slot × List Event :=
  if sl.state = .buffering ∧ thr ≤ sl.fifo.length then setState resume prepend i .playing sl else (sl, [])

/-- The queue after `push_block` of R200, and the frames dropped on the way: prepended silence if it is pending, then
the gap fill, then the packet's frames. -/
def pushedQueue (cap thr : Nat) (frames : List Frame) (fill : Nat) (sl : Slot) : List Frame × Nat :=
  let z := silenceFrame sl.fmt
  let q0 : List Frame × Nat := (sl.fifo, 0)
  let q1 := if sl.prependPending then pushSilence cap z thr q0 else q0
  pushFrames cap frames (pushSilence cap z fill q1)

/-- `push_block(i, frames, fill)` of R200 on the slot; its two counters are added by the caller. It answers the slot,
the events, and the frames dropped by overflow. -/
def pushBlock (p : Params) (r : Regs) (i : Nat) (frames : List Frame) (fill : Nat) (sl : Slot) :
    Slot × List Event × Nat :=
  let thr := threshold p r sl.fmt
  let q := pushedQueue p.bufCapFrames thr frames fill sl
  let x := checkStart p.notifyStartOnResume (prependSilence r) thr i { sl with fifo := q.1, prependPending := false }
  (x.1, x.2, q.2)

/-! ## POP -/

/-- POP from a Playing slot (R202, R203): fewer frames than requested is an underrun. -/
def popPlaying (s : State) (i n : Nat) (sl : Slot) : State :=
  let out := fifoPop sl.fifo (min n sl.fifo.length)
  if sl.fifo.length < n then
    let x := setState s.params.notifyStartOnResume (prependSilence s.regs) i .buffering { sl with fifo := out.2 }
    finish .popUnderrun (.frames out.1) (count .statUnderruns 1 (putSlot i x.1 x.2 s))
  else
    finish .ok (.frames out.1) (putSlot i { sl with fifo := out.2 } [] s)

/-- POP from a Draining slot (R202, R209): the POP that finds or leaves the queue empty frees the slot. -/
def popDraining (s : State) (i n : Nat) (sl : Slot) : State :=
  let out := fifoPop sl.fifo (min n sl.fifo.length)
  if out.2 = [] then
    let x := freeSlot s.params.notifyStartOnResume (prependSilence s.regs) i { sl with fifo := out.2 }
    finish .popDrained (.frames out.1) (putSlot i x.1 x.2 s)
  else
    finish .ok (.frames out.1) (putSlot i { sl with fifo := out.2 } [] s)

/-- POP (R202). -/
def execPop (slot : BitVec 8) (n : BitVec 16) (s : State) : Host.Outcome State Fault Refusal :=
  .next <|
    match s.session? slot.toNat with
    | none => raiseNoSession slot s
    | some sl =>
      match sl.state with
      | .idle => finish .popNotPlaying (.frames []) s
      | .buffering => finish .popNotPlaying (.frames []) s
      | .playing => popPlaying s slot.toNat n.toNat sl
      | .draining => popDraining s slot.toNat n.toNat sl

end Sys2Proof.Machine
end

