-- ==== Sys2Proof/Machine/Control.lean ====
section
/-! DEFINITION. The control operations CFG_READ, CFG_WRITE, SESSION_READ, STOP, DEVICE_FAULT, TICK and RESET (spec
46_control.md R290 to R297). -/

namespace Sys2Proof.Machine

/-! ## Register access -/

/-- CFG_READ (R290). An unmapped index answers CFG_UNMAPPED with value 0 (R322). -/
def execCfgRead (reg : BitVec 8) (s : State) : Host.Outcome State Fault Refusal :=
  .next <|
    match regOfIndex reg with
    | none => finish .cfgUnmapped (.word 0) s
    | some k => finish .ok (.word (s.regs.get k)) s

/-- The registers whose write runs the filter-change teardown (R291). -/
def isFilterReg : Reg → Bool
  | .ctrl | .filterName0 | .filterName1 | .filterName2 | .filterName3 => true
  | .rxDepthMask | .lwmMs | .seqTol | .sessionTimeout | .udpPort | .txFormat | .txSeq
  | .txName0 | .txName1 | .txName2 | .txName3
  | .statRxAccepted | .statRxMalformed | .statRxUnsupported | .statRxRejected | .statRxForwarded | .statRxLateDropped
  | .statFrameLossEvents | .statGapSilenceFrames | .statOverflowDropped | .statCountMismatch | .statTxPackets
  | .statTxErrors | .statUnderruns | .statSeqResets => false

/-- What a filter change does to one slot (R292): a session the new filter would refuse is torn down. -/
def filterSlot (p : Params) (r : Regs) (i : Nat) (sl : Slot) : Slot × List Event × Nat :=
  if sl.valid = true ∧ sl.state ≠ .draining ∧ sl.name ≠ filterName r then
    let x := teardown p.notifyStartOnResume (prependSilence r) i sl
    (x.1, x.2, 1)
  else (sl, [], 0)

/-- `filter_change()` of R292. -/
def filterChange (s : State) : State :=
  if filterEnabled s.regs then
    let w := sweep (filterSlot s.params s.regs) 0 s.slots
    { s with slots := w.1, events := s.events ++ w.2.1 }
  else s

/-- CFG_WRITE (R291). -/
def execCfgWrite (reg : BitVec 8) (val : Word32) (s : State) : Host.Outcome State Fault Refusal :=
  .next <|
    match regOfIndex reg with
    | none => finish .cfgUnmapped .none s
    | some k =>
      if k.readOnly then finish .cfgReadOnly .none s
      else
        let written := { s with regs := s.regs.set k val }
        finish .ok .none (if isFilterReg k then filterChange written else written)

/-! ## Session control -/

/-- The view of a slot that SESSION_READ returns (R293). -/
def sessionView (p : Params) (r : Regs) (sl : Slot) : SessionView where
  valid := sl.valid
  src := sl.src
  name := sl.name
  state := sl.state
  fmtValid := sl.fmtValid
  fmt := sl.fmt
  seqValid := sl.seqValid
  lastSeq := sl.lastSeq
  fill := sl.fifo.length
  fifo := sl.fifo
  threshold := if sl.fmtValid then threshold p r sl.fmt else 0
  prependPending := sl.prependPending
  startedNotified := sl.startedNotified
  idleTicks := sl.idleTicks

/-- SESSION_READ (R293): a free slot is no error. -/
def execSessionRead (slot : BitVec 8) (s : State) : Host.Outcome State Fault Refusal :=
  .next <|
    match s.slot? slot.toNat with
    | none => raiseNoSession slot s
    | some sl => finish .ok (.session (sessionView s.params s.regs sl)) s

/-- STOP (R294): the result carries the state after the stop. -/
def execStop (slot : BitVec 8) (s : State) : Host.Outcome State Fault Refusal :=
  .next <|
    match s.session? slot.toNat with
    | none => raiseNoSession slot s
    | some sl =>
      let x := teardown s.params.notifyStartOnResume (prependSilence s.regs) slot.toNat sl
      finish .ok (.playback x.1.state) (putSlot slot.toNat x.1 x.2 s)

/-- DEVICE_FAULT (R295): the slot is freed at once, Draining included. -/
def execDeviceFault (slot : BitVec 8) (s : State) : Host.Outcome State Fault Refusal :=
  .next <|
    match s.session? slot.toNat with
    | none => raiseNoSession slot s
    | some sl =>
      let x := freeSlot s.params.notifyStartOnResume (prependSilence s.regs) slot.toNat sl
      finish .ok .none (putSlot slot.toNat x.1 x.2 s)

/-- What a TICK does to one slot (R296); the count is 1 where the session is torn down. -/
def tickSlot (p : Params) (r : Regs) (i : Nat) (sl : Slot) : Slot × List Event × Nat :=
  if sl.valid = true ∧ sl.state ≠ .draining then
    let aged := { sl with idleTicks := satInc sl.idleTicks }
    let timeout := r.get .sessionTimeout
    if timeout ≠ 0 ∧ timeout ≤ aged.idleTicks then
      let x := teardown p.notifyStartOnResume (prependSilence r) i aged
      (x.1, x.2, 1)
    else (aged, [], 0)
  else (sl, [], 0)

/-- TICK (R296). -/
def execTick (s : State) : Host.Outcome State Fault Refusal :=
  let w := sweep (tickSlot s.params s.regs) 0 s.slots
  .next (finish .ok (.count w.2.2) { s with slots := w.1, events := s.events ++ w.2.1 })

/-- RESET (R297): every register and every slot; the event stream stays. -/
def execReset (s : State) : Host.Outcome State Fault Refusal :=
  .next (finish .ok .none
    { s with regs := Regs.reset s.params, slots := List.replicate s.params.nSessions Slot.cleared })

end Sys2Proof.Machine
end

