-- ==== Sys2Proof/Machine/FormatTable.lean ====
section
/-! DEFINITION. LOOKUP (spec 40_format_table.md R120) and the frame-arithmetic queries BYTES_PER_FRAME,
FRAMES_IN_PAYLOAD and FRAMES_FIT (42_frame_arithmetic.md R171 to R173). They write no state (46_control.md R299). -/

namespace Sys2Proof.Machine

/-- Look a format code up and continue with its descriptor; an unmapped code ends the operation with its UNSUPPORTED
code and the format code (R120, R322). -/
def withLookup (fc : BitVec 16) (s : State) (k : FormatDescriptor → State) : State :=
  match lookup s.params fc with
  | .error e => finish e.code (.formatCode fc) s
  | .ok d => k d

/-- LOOKUP (R120). -/
def execLookup (fc : BitVec 16) (s : State) : Host.Outcome State Fault Refusal :=
  .next (withLookup fc s fun d => finish .ok (.descriptor d) s)

/-- BYTES_PER_FRAME (R171). -/
def execBytesPerFrame (fc : BitVec 16) (s : State) : Host.Outcome State Fault Refusal :=
  .next (withLookup fc s fun d => finish .ok (.count (bpf d)) s)

/-- FRAMES_IN_PAYLOAD (R172). -/
def execFramesInPayload (fc : BitVec 16) (len : Word32) (s : State) : Host.Outcome State Fault Refusal :=
  .next <| withLookup fc s fun d =>
    match framesInPayload d len.toNat with
    | none => finish .malformedPayloadNotMultiple .none s
    | some n => finish .ok (.count n) s

/-- FRAMES_FIT (R173). -/
def execFramesFit (fc : BitVec 16) (s : State) : Host.Outcome State Fault Refusal :=
  .next (withLookup fc s fun d => finish .ok (.count (framesFit s.params d)) s)

end Sys2Proof.Machine
end

