-- ==== Sys2Proof/Machine/Receive.lean ====
section
/-! DEFINITION. The receive path: RX_PACKET and the wire classes it dispatches a datagram to (spec 44_receive_session.md
R230 to R246, 41_packet_codec.md R150 and R151). The checks of stages 3 to 9 are one function that reads the state and
writes nothing; what they answer is either a refusal or a plan for the commit of stage 10 (R323). -/

namespace Sys2Proof.Machine

/-! ## What the checks answer -/

/-- Why stages 3 to 9 refuse a PCM packet (R230, R320). -/
inductive RxRefusal where
  /-- UNSUPPORTED_RATE or UNSUPPORTED_DEPTH of the format code (stage 3). -/
  | unsupported (e : LookupError) (fc : BitVec 16)
  /-- MALFORMED_PAYLOAD_NOT_MULTIPLE (stage 4). -/
  | payloadNotMultiple
  /-- MALFORMED_PAYLOAD_SHORT (stage 4). -/
  | payloadShort
  /-- REJECTED_NAME_MISMATCH (stage 5). -/
  | nameMismatch
  /-- UNSUPPORTED_RX_CAPABILITY of the format code (stage 6). -/
  | rxCapability (fc : BitVec 16)
  /-- REJECTED_NO_SLOT (stage 7). -/
  | noSlot
  /-- REJECTED_DRAINING (stage 8). -/
  | draining
  /-- REJECTED_SEQ_REGRESSION of the session in a slot, which is reset (stage 9). -/
  | seqRegression (slot : Nat)
  /-- DROPPED_LATE (stage 9). -/
  | late
  deriving DecidableEq, Repr

/-- What an accepted packet commits (stage 10). -/
structure RxPlan where
  /-- The session's slot. -/
  slot : Nat
  /-- The packet creates the session. -/
  isNew : Bool
  /-- The packet's format. -/
  fmt : FormatDescriptor
  /-- The sliced frames. -/
  frames : List Frame
  /-- The header's frame count, n_hdr. -/
  nHdr : Nat
  /-- Header and payload frame counts differ. -/
  mism : Bool
  /-- The packets lost before this one. -/
  gap : Nat
  deriving DecidableEq, Repr

/-! ## Stages 7 to 9 -/

/-- The session of a StreamKey (R237). -/
def findSession (slots : List Slot) (src : SrcAddr) (name : Bytes) : Option Nat :=
  slots.findIdx? fun sl => sl.valid && decide (sl.src = src) && decide (sl.name = name)

/-- The lowest free slot (R237). -/
def findFree (slots : List Slot) : Option Nat := slots.findIdx? fun sl => !sl.valid

/-- Stages 8 and 9 for an existing session (R238, R239): the gap, or the refusal. -/
def classifyCounter (tol : Word32) (i : Nat) (sl : Slot) (ctr : Word32) : Except RxRefusal Nat :=
  if sl.state = .draining then .error .draining
  else if sl.seqValid then
    let dlt := sdiff32 ctr sl.lastSeq
    if dlt ≤ 0 then
      if -dlt > (tol.toNat : Int) then .error (.seqRegression i) else .error .late
    else .ok (dlt - 1).toNat
  else .ok 0

/-- Stages 7 to 9: the slot, whether the packet creates its session, and the gap. -/
def admitStream (r : Regs) (slots : List Slot) (src : SrcAddr) (h : Header) : Except RxRefusal (Nat × Bool × Nat) :=
  match findSession slots src h.name with
  | some i =>
    match classifyCounter (r.get .seqTol) i ((slots[i]?).getD Slot.cleared) h.frameCounter with
    | .error e => .error e
    | .ok gap => .ok (i, false, gap)
  | none =>
    match findFree slots with
    | none => .error .noSlot
    | some i => .ok (i, true, 0)

/-! ## Stages 3 to 9 -/

/-- Stages 3 to 9 of R230, in their order. -/
def rxCheck (s : State) (src : SrcAddr) (h : Header) (pl : Bytes) : Except RxRefusal RxPlan :=
  let fc := headerFormatCode h
  match lookup s.params fc with
  | .error e => .error (.unsupported e fc)
  | .ok d =>
    let n := headerFrames h
    if pl.length % bpf d ≠ 0 then .error .payloadNotMultiple
    else if pl.length / bpf d < n then .error .payloadShort
    else if filterEnabled s.regs = true ∧ h.name ≠ filterName s.regs then .error .nameMismatch
    else if depthAccepted s.regs d = false then .error (.rxCapability fc)
    else
      match admitStream s.regs s.slots src h with
      | .error e => .error e
      | .ok (i, isNew, gap) =>
        .ok { slot := i, isNew := isNew, fmt := d, frames := slice pl (bpf d) n, nHdr := n
              mism := decide (n ≠ pl.length / bpf d), gap := gap }

/-! ## Effects -/

/-- The result of a refusal (R230, R320, R322). UNSUPPORTED_RX_CAPABILITY carries the format code as the other
UNSUPPORTED_x do: DEDUCED, unsafe (notes/assumptions/6.md). -/
def RxRefusal.result : RxRefusal → ResultCode × ResultData
  | .unsupported e fc => (e.code, .formatCode fc)
  | .payloadNotMultiple => (.malformedPayloadNotMultiple, .none)
  | .payloadShort => (.malformedPayloadShort, .none)
  | .nameMismatch => (.rejectedNameMismatch, .none)
  | .rxCapability fc => (.unsupportedRxCapability, .formatCode fc)
  | .noSlot => (.rejectedNoSlot, .none)
  | .draining => (.rejectedDraining, .none)
  | .seqRegression _ => (.rejectedSeqRegression, .none)
  | .late => (.droppedLate, .none)

/-- The statistics counter of a refusal's raising line (R230, R34). -/
def RxRefusal.counter : RxRefusal → Reg
  | .unsupported _ _ => .statRxUnsupported
  | .payloadNotMultiple => .statRxMalformed
  | .payloadShort => .statRxMalformed
  | .nameMismatch => .statRxRejected
  | .rxCapability _ => .statRxUnsupported
  | .noSlot => .statRxRejected
  | .draining => .statRxRejected
  | .seqRegression _ => .statRxRejected
  | .late => .statRxLateDropped

/-- The regression reset, the one write a refusal keeps beside its counter (R239, R323). -/
def regressionReset (i : Nat) (s : State) : State :=
  let x := sessionReset s.params.notifyStartOnResume (prependSilence s.regs) i ((s.slot? i).getD Slot.cleared)
  count .statSeqResets 1 (putSlot i x.1 x.2 s)

/-- End RX_PACKET with a refusal (R230, R323). -/
def rxRefuse (e : RxRefusal) (s : State) : State :=
  let kept := match e with
    | .seqRegression i => regressionReset i s
    | _ => s
  finish e.result.1 e.result.2 (count e.counter 1 kept)

/-- The slot before format negotiation: a new session takes the packet's StreamKey (R237, stage 10). -/
def admittedSlot (plan : RxPlan) (src : SrcAddr) (name : Bytes) (sl : Slot) : Slot :=
  if plan.isNew then { sl with valid := true, src := src, name := name } else sl

/-- The packet changes the session's format; a first format is no change (R240). -/
def formatChanges (plan : RxPlan) (sl : Slot) : Bool := sl.fmtValid && decide (sl.fmt ≠ plan.fmt)

/-- Format negotiation (R240): a first or a new format enters, an equal one changes nothing. -/
def negotiate (resume prepend : Bool) (plan : RxPlan) (sl : Slot) : Slot × List Event :=
  if sl.fmtValid = false ∨ sl.fmt ≠ plan.fmt then enterFormat resume prepend plan.slot plan.fmt sl else (sl, [])

/-- The gap fill in frames (R241): none when the packet changed the format. -/
def gapFill (plan : RxPlan) (sl : Slot) : Nat := if formatChanges plan sl then 0 else plan.gap * plan.nHdr

/-- The counters of an accepted packet (R34, R242). -/
def acceptedCounters (plan : RxPlan) (fill dropped : Nat) (r : Regs) : Regs :=
  ((((r.bump .statCountMismatch (if plan.mism then 1 else 0)).bump .statFrameLossEvents (if 0 < plan.gap then 1 else 0)).bump
    .statGapSilenceFrames fill).bump .statOverflowDropped dropped).bump .statRxAccepted 1

/-- Stage 10 of R230: commit an accepted packet of stream `(src, name)` with frame counter `ctr` (R240 to R242). -/
def rxCommit (plan : RxPlan) (src : SrcAddr) (name : Bytes) (ctr : Word32) (s : State) : State :=
  let sl0 := admittedSlot plan src name ((s.slot? plan.slot).getD Slot.cleared)
  let fmtd := negotiate s.params.notifyStartOnResume (prependSilence s.regs) plan sl0
  let fill := gapFill plan sl0
  let pushed := pushBlock s.params s.regs plan.slot plan.frames fill fmtd.1
  let dropped := pushed.2.2
  let entered := decide (fmtd.1.state ≠ .playing ∧ pushed.1.state = .playing)
  let flags := rxFlags plan.isNew (formatChanges plan sl0) (decide (0 < plan.gap)) plan.mism (decide (0 < dropped)) entered
  finish .ok (.rx plan.slot flags (BitVec.ofNat 32 plan.gap) dropped)
    (putSlot plan.slot { pushed.1 with lastSeq := ctr, seqValid := true, idleTicks := 0 } (fmtd.2 ++ pushed.2.1)
      { s with regs := acceptedCounters plan fill dropped s.regs })

/-- A PCM packet: stages 3 to 10 (R230). -/
def receivePcm (src : SrcAddr) (h : Header) (pl : Bytes) (s : State) : State :=
  match rxCheck s src h pl with
  | .error e => rxRefuse e s
  | .ok plan => rxCommit plan src h.name h.frameCounter s

/-- `forward(kind, SRC, DG)` of R151. -/
def forward (kind : ForwardKind) (src : SrcAddr) (dg : Bytes) (s : State) : State :=
  let code := match kind with
    | .compressed => ResultCode.forwardedCompressed
    | .service => ResultCode.forwardedService
  finish code .none (count .statRxForwarded 1 (emit [.forward kind src dg] s))

/-- A datagram that fails the structural checks (stage 1, R231), and an illegal request (R298): the request ends with
its code; only a malformed datagram is counted. -/
def rejectRequest (e : DecodeError) (s : State) : State :=
  match e with
  | .illegalOp _ => finish .illegalOp .none s
  | .truncated => finish .malformedTruncated .none (count .statRxMalformed 1 s)
  | .oversized => finish .malformedOversized .none (count .statRxMalformed 1 s)
  | .badMagic => finish .malformedBadMagic .none (count .statRxMalformed 1 s)

/-- RX_PACKET (R230): structure, dispatch by class, and the class's own stages. -/
def execRxPacket (src : SrcAddr) (dg : Bytes) (s : State) : Host.Outcome State Fault Refusal :=
  .next <|
    match packetDecode s.params.maxPacketSize dg with
    | .error e => rejectRequest e s
    | .ok (h, pl) =>
      match wireClass h.subProtocol h.codec with
      | .pcm => receivePcm src h pl s
      | .compressed => forward .compressed src dg s
      | .service => forward .service src dg s

/-! ## The wire classes -/

/-- WIRE_PCM (R92, R150): the packet goes to the format table and the sessions. -/
def execWirePcm (f : WireFields) (b : WireBody) (s : State) : Host.Outcome State Fault Refusal :=
  .next (receivePcm b.src (wireHeader 0 0 f b) b.payload s)

/-- Forward the datagram of a wire class whole (R151). -/
def forwardWire (kind : ForwardKind) (sub : BitVec 3) (codec : BitVec 4) (f : WireFields) (b : WireBody)
    (s : State) : State :=
  forward kind b.src (wireDatagram sub codec f b) s

/-- WIRE_COMPRESSED, codec 8 to 15 (R92, R151). -/
def execWireCompressed8 (codecLow : BitVec 3) (f : WireFields) (b : WireBody) (s : State) :
    Host.Outcome State Fault Refusal :=
  .next (forwardWire .compressed 0 (1#1 ++ codecLow : BitVec (1 + 3)) f b s)

/-- WIRE_COMPRESSED, codec 4 to 7 (R92, R151). -/
def execWireCompressed4 (codecLow : BitVec 2) (f : WireFields) (b : WireBody) (s : State) :
    Host.Outcome State Fault Refusal :=
  .next (forwardWire .compressed 0 (1#2 ++ codecLow : BitVec (2 + 2)) f b s)

/-- WIRE_COMPRESSED, codec 2 or 3 (R92, R151). -/
def execWireCompressed2 (codecLow : BitVec 1) (f : WireFields) (b : WireBody) (s : State) :
    Host.Outcome State Fault Refusal :=
  .next (forwardWire .compressed 0 (1#3 ++ codecLow : BitVec (3 + 1)) f b s)

/-- WIRE_COMPRESSED, codec 1 (R92, R151). -/
def execWireCompressed1 (f : WireFields) (b : WireBody) (s : State) : Host.Outcome State Fault Refusal :=
  .next (forwardWire .compressed 0 1 f b s)

/-- WIRE_SERVICE, sub-protocol 4 to 7 (R92, R151). -/
def execWireService4 (subLow : BitVec 2) (codec : BitVec 4) (f : WireFields) (b : WireBody) (s : State) :
    Host.Outcome State Fault Refusal :=
  .next (forwardWire .service (1#1 ++ subLow : BitVec (1 + 2)) codec f b s)

/-- WIRE_SERVICE, sub-protocol 2 or 3 (R92, R151). -/
def execWireService2 (subLow : BitVec 1) (codec : BitVec 4) (f : WireFields) (b : WireBody) (s : State) :
    Host.Outcome State Fault Refusal :=
  .next (forwardWire .service (1#2 ++ subLow : BitVec (2 + 1)) codec f b s)

/-- WIRE_SERVICE, sub-protocol 1 (R92, R151). -/
def execWireService1 (codec : BitVec 4) (f : WireFields) (b : WireBody) (s : State) :
    Host.Outcome State Fault Refusal :=
  .next (forwardWire .service 1 codec f b s)

end Sys2Proof.Machine
end

