-- ==== Sys2Proof/Machine/Transmit.lean ====
section
/-! DEFINITION. TX_PACKET: transmit framing and sequence stamping (spec 45_transmit.md R270 to R275). -/

namespace Sys2Proof.Machine

/-- The header TX_PACKET stamps for a packet of `k` frames (R270, R272): the reserved bit is 0. -/
def txHeader (r : Regs) (k : BitVec 16) : Header where
  subProtocol := txSubProtocol (r.get .txFormat)
  srIndex := txSrIndex (r.get .txFormat)
  nbsMinus1 := (k - 1).setWidth 8
  nbcMinus1 := txNbcMinus1 (r.get .txFormat)
  dataType := txDataType (r.get .txFormat)
  reserved := 0
  codec := txCodec (r.get .txFormat)
  name := txName r
  frameCounter := r.get .txSeq

/-- The format code of TX_FORMAT (R270). -/
def txFormatCode (r : Regs) : BitVec 16 :=
  formatCode (txNbcMinus1 (r.get .txFormat)) (txSrIndex (r.get .txFormat)) (txDataType (r.get .txFormat))

/-- The checks of R270, in their order, and the datagram; an error is its result. -/
def txFrame (p : Params) (r : Regs) (k : BitVec 16) (pl : Bytes) : Except (ResultCode × ResultData) Bytes :=
  if k.toNat < 1 ∨ 256 < k.toNat then .error (.txBadCount, .none)
  else
    let encoded := match packetEncode p.maxPacketSize (txHeader r k) pl with
      | .error e => .error (e.code, .none)
      | .ok dg => .ok dg
    match wireClass (txSubProtocol (r.get .txFormat)) (txCodec (r.get .txFormat)) with
    | .pcm =>
      match lookup p (txFormatCode r) with
      | .error e => .error (e.code, .formatCode (txFormatCode r))
      | .ok d => if pl.length ≠ k.toNat * bpf d then .error (.txPayloadMismatch, .none) else encoded
    | .compressed => encoded
    | .service => encoded

/-- TX_PACKET (R270): TX_SEQ advances only when the operation succeeds (R271). -/
def execTxPacket (k : BitVec 16) (pl : Bytes) (s : State) : Host.Outcome State Fault Refusal :=
  .next <|
    match txFrame s.params s.regs k pl with
    | .error (code, data) => finish code data (count .statTxErrors 1 s)
    | .ok dg =>
      finish .ok (.bytes dg) (count .statTxPackets 1 { s with regs := s.regs.set .txSeq (s.regs.get .txSeq + 1) })

end Sys2Proof.Machine
end

