-- ==== Sys2Proof/Machine/Dispatch.lean ====
section
/-! DEFINITION. The dispatch of instructions to their meanings: one arm per constructor of `Instr`. -/

namespace Sys2Proof.Machine

def exec (i : Instr) (s : State) : Host.Outcome State Fault Refusal :=
  match i with
  | .rxPacket src dg => Sys2Proof.Machine.execRxPacket src dg s
  | .txPacket k pl => Sys2Proof.Machine.execTxPacket k pl s
  | .pop slot n => Sys2Proof.Machine.execPop slot n s
  | .stop slot => Sys2Proof.Machine.execStop slot s
  | .tick => Sys2Proof.Machine.execTick s
  | .cfgWrite reg val => Sys2Proof.Machine.execCfgWrite reg val s
  | .cfgRead reg => Sys2Proof.Machine.execCfgRead reg s
  | .sessionRead slot => Sys2Proof.Machine.execSessionRead slot s
  | .deviceFault slot => Sys2Proof.Machine.execDeviceFault slot s
  | .reset => Sys2Proof.Machine.execReset s
  | .lookup fc => Sys2Proof.Machine.execLookup fc s
  | .bytesPerFrame fc => Sys2Proof.Machine.execBytesPerFrame fc s
  | .framesInPayload fc len => Sys2Proof.Machine.execFramesInPayload fc len s
  | .framesFit fc => Sys2Proof.Machine.execFramesFit fc s
  | .encode hdr pl => Sys2Proof.Machine.execEncode hdr pl s
  | .decode dg => Sys2Proof.Machine.execDecode dg s
  | .wirePcm f b => Sys2Proof.Machine.execWirePcm f b s
  | .wireCompressed8 c f b => Sys2Proof.Machine.execWireCompressed8 c f b s
  | .wireCompressed4 c f b => Sys2Proof.Machine.execWireCompressed4 c f b s
  | .wireCompressed2 c f b => Sys2Proof.Machine.execWireCompressed2 c f b s
  | .wireCompressed1 f b => Sys2Proof.Machine.execWireCompressed1 f b s
  | .wireService4 u c f b => Sys2Proof.Machine.execWireService4 u c f b s
  | .wireService2 u c f b => Sys2Proof.Machine.execWireService2 u c f b s
  | .wireService1 c f b => Sys2Proof.Machine.execWireService1 c f b s

end Sys2Proof.Machine
end

