-- ==== Sys2Proof/Machine/Step.lean ====
section
/-! DEFINITION. One step of the block: take the next request, decode it, run it (spec 00_scope.md R6, 20_memory.md R70).
A block without a request is idle and keeps its state (60_exceptions.md R334). -/

namespace Sys2Proof.Machine

/-- Run a request that has been taken: the meaning of its instruction, or the result of a request that is none
(R231, R298). -/
def runRequest (r : Request) (s : State) : Host.Outcome State Fault Refusal :=
  match decode s.params r with
  | .ok i => exec i s
  | .error e => .next (rejectRequest e s)

/-- One step: the next request is consumed when it is taken (R73). -/
def step (s : State) : Host.Outcome State Fault Refusal :=
  match s.requests with
  | [] => .next s
  | r :: rest => runRequest r { s with requests := rest }

/-- The state in which the request of a table word is the next one taken. -/
def State.withFetchWord (s : State) (nbits w : Nat) : State :=
  { s with requests := requestOfTableWord nbits w :: s.requests }

end Sys2Proof.Machine
end

