-- ==== Sys2Proof/Machine/Pseudo.lean ====
section
/-! DEFINITION. What a host writes: the pseudo-operations of 30_encoding.md R105, the boot order of
70_reset_and_hazards.md R353, and the assembler text of R104. None of it is state or a step of the block: each expands to
operations, or prints one. -/

namespace Sys2Proof.Machine

/-! ## Pseudo-operations -/

/-- The index of a register, in the order of R23. -/
def indexOfReg : Reg → BitVec 8
  | .ctrl => 0x00
  | .rxDepthMask => 0x01
  | .lwmMs => 0x02
  | .seqTol => 0x03
  | .sessionTimeout => 0x04
  | .udpPort => 0x05
  | .txFormat => 0x06
  | .txSeq => 0x07
  | .filterName0 => 0x08
  | .filterName1 => 0x09
  | .filterName2 => 0x0A
  | .filterName3 => 0x0B
  | .txName0 => 0x0C
  | .txName1 => 0x0D
  | .txName2 => 0x0E
  | .txName3 => 0x0F
  | .statRxAccepted => 0x10
  | .statRxMalformed => 0x11
  | .statRxUnsupported => 0x12
  | .statRxRejected => 0x13
  | .statRxForwarded => 0x14
  | .statRxLateDropped => 0x15
  | .statFrameLossEvents => 0x16
  | .statGapSilenceFrames => 0x17
  | .statOverflowDropped => 0x18
  | .statCountMismatch => 0x19
  | .statTxPackets => 0x1A
  | .statTxErrors => 0x1B
  | .statUnderruns => 0x1C
  | .statSeqResets => 0x1D

/-- CFG_WRITE of a register by its name (R104). -/
def writeReg (k : Reg) (v : Word32) : Instr := .cfgWrite (indexOfReg k) v

/-- Word `k` of a name padded with 0x00 to 16 bytes, `w0..w3` of R105. The four words of a name longer than 16 bytes are
those of its first 16: DESIGN CHOICE, unsafe for a claim about such a name (notes/assumptions/14.md). -/
def nameWord (name : Bytes) (k : Nat) : Word32 := le32 (padName name) (4 * k)

/-- The value of CTRL with PREPEND_SILENCE `prepend` and FILTER_EN `filter` (R24, R105). -/
def ctrlValue (prepend filter : Bool) : Word32 := (if prepend then 2 else 0) ||| (if filter then 1 else 0)

/-- SET_FILTER (R105): the filter is disabled while the name is written, and enabled last. -/
def setFilter (name : Bytes) (prepend : Bool) : List Instr :=
  [writeReg .ctrl (ctrlValue prepend false), writeReg .filterName0 (nameWord name 0),
    writeReg .filterName1 (nameWord name 1), writeReg .filterName2 (nameWord name 2),
    writeReg .filterName3 (nameWord name 3), writeReg .ctrl (ctrlValue prepend true)]

/-- CLEAR_FILTER (R105). -/
def clearFilter (prepend : Bool) : List Instr := [writeReg .ctrl (ctrlValue prepend false)]

/-- SET_TX_NAME (R105). -/
def setTxName (name : Bytes) : List Instr :=
  [writeReg .txName0 (nameWord name 0), writeReg .txName1 (nameWord name 1), writeReg .txName2 (nameWord name 2),
    writeReg .txName3 (nameWord name 3)]

/-- SET_TX_FORMAT (R105): `a | b<<5 | (c-1)<<8 | d<<16 | e<<20`, where `c` is the channel count. A count
outside 1 to 256: DESIGN CHOICE, unsafe for a claim about such a count (notes/assumptions/14.md). -/
def setTxFormat (sr : BitVec 5) (sub : BitVec 3) (channels : Nat) (dt : BitVec 3) (codec : BitVec 4) : List Instr :=
  [writeReg .txFormat (sr.setWidth 32 ||| sub.setWidth 32 <<< 5 ||| BitVec.ofNat 32 (channels - 1) <<< 8 |||
    dt.setWidth 32 <<< 16 ||| codec.setWidth 32 <<< 20)]

/-- WIDEN (R105). -/
def widen (depths : Word32) : List Instr := [writeReg .rxDepthMask depths]

/-! ## Boot order -/

/-- The settings of a boot (R353). -/
structure BootSettings where
  depths : Word32
  lwmMs : Word32
  seqTol : Word32
  sessionTimeout : Word32
  udpPort : Word32
  /-- The filter name, `none` for an unfiltered receiver. -/
  filter : Option Bytes
  prepend : Bool
  txName : Bytes
  txSrIndex : BitVec 5
  txSubProtocol : BitVec 3
  txChannels : Nat
  txDataType : BitVec 3
  txCodec : BitVec 4
  /-- The first transmit counter, `none` for 0. -/
  firstCounter : Option Word32
  deriving DecidableEq, Repr

/-- The boot order of R353, before any traffic: reset, receive configuration, filter, transmit configuration. -/
def bootOrder (b : BootSettings) : List Instr :=
  [.reset] ++ widen b.depths ++
    [writeReg .lwmMs b.lwmMs, writeReg .seqTol b.seqTol, writeReg .sessionTimeout b.sessionTimeout,
      writeReg .udpPort b.udpPort] ++
    (match b.filter with
      | some name => setFilter name b.prepend
      | none => clearFilter b.prepend) ++
    setTxName b.txName ++ setTxFormat b.txSrIndex b.txSubProtocol b.txChannels b.txDataType b.txCodec ++
    (match b.firstCounter with
      | some c => [writeReg .txSeq c]
      | none => [])

/-! ## Assembler text

Printed, not parsed: DESIGN CHOICE, safe (notes/assumptions/13.md). -/

/-- A hexadecimal digit. -/
def hexDigit (n : Nat) : Char := if n < 10 then Char.ofNat (48 + n) else Char.ofNat (55 + n)

/-- A byte in two hexadecimal digits (R104). -/
def hexByte (b : Byte) : List Char := [hexDigit (b.toNat / 16), hexDigit (b.toNat % 16)]

/-- Bytes in buffer order, separated by spaces (R104). -/
def hexBytes (b : Bytes) : List Char := [' '].intercalate (b.map hexByte)

/-- A number in decimal (R104). -/
def number (n : Nat) : List Char := Nat.toDigits 10 n

/-- One named operand, `key=value`. -/
def operand (key value : List Char) : List Char := key ++ '=' :: value

/-- A mnemonic and its operands, separated by commas (R104). -/
def asmLine (mnemonic : List Char) (operands : List (List Char)) : List Char :=
  match operands with
  | [] => mnemonic
  | _ :: _ => mnemonic ++ ' ' :: [',', ' '].intercalate operands

/-- The header operand of ENCODE (R104). Its text stands between braces (characters 123 and 125), the name between
double quotes (character 34). -/
def asmHeader (h : Header) : List Char :=
  Char.ofNat 123 :: [',', ' '].intercalate
    [operand ['s', 'u', 'b'] (number h.subProtocol.toNat), operand ['s', 'r'] (number h.srIndex.toNat),
      operand ['n', 'b', 's'] (number h.nbsMinus1.toNat), operand ['n', 'b', 'c'] (number h.nbcMinus1.toNat),
      operand ['d', 't'] (number h.dataType.toNat), operand ['r', 's', 'v'] (number h.reserved.toNat),
      operand ['c', 'o', 'd', 'e', 'c'] (number h.codec.toNat),
      operand ['n', 'a', 'm', 'e'] (Char.ofNat 34 :: h.name.map (fun b => Char.ofNat b.toNat) ++ [Char.ofNat 34]),
      operand ['c', 't', 'r'] (number h.frameCounter.toNat)] ++ [Char.ofNat 125]

/-- The assembler text of an operation (R104). A wire class is no operation: it prints as the RX_PACKET that delivers its
datagram. -/
def asmText (i : Instr) : List Char :=
  let slot (i : BitVec 8) := operand ['s', 'l', 'o', 't'] (number i.toNat)
  let reg (i : BitVec 8) := operand ['r', 'e', 'g'] (number i.toNat)
  let val (v : Word32) := operand ['v', 'a', 'l'] (number v.toNat)
  let fc (v : BitVec 16) := operand ['f', 'c'] (number v.toNat)
  let dg (b : Bytes) := operand ['d', 'g'] (hexBytes b)
  let pl (b : Bytes) := operand ['p', 'l'] (hexBytes b)
  let src (a : SrcAddr) := operand ['s', 'r', 'c'] (number a)
  let rx (a : SrcAddr) (b : Bytes) := asmLine "RX_PACKET".toList [src a, dg b]
  match i with
  | .rxPacket a b => rx a b
  | .txPacket k b => asmLine "TX_PACKET".toList [operand ['k'] (number k.toNat), pl b]
  | .pop s n => asmLine "POP".toList [slot s, operand ['n'] (number n.toNat)]
  | .stop s => asmLine "STOP".toList [slot s]
  | .tick => asmLine "TICK".toList []
  | .cfgWrite r v => asmLine "CFG_WRITE".toList [reg r, val v]
  | .cfgRead r => asmLine "CFG_READ".toList [reg r]
  | .sessionRead s => asmLine "SESSION_READ".toList [slot s]
  | .deviceFault s => asmLine "DEVICE_FAULT".toList [slot s]
  | .reset => asmLine "RESET".toList []
  | .lookup f => asmLine "LOOKUP".toList [fc f]
  | .bytesPerFrame f => asmLine "BYTES_PER_FRAME".toList [fc f]
  | .framesInPayload f n => asmLine "FRAMES_IN_PAYLOAD".toList [fc f, operand ['l', 'e', 'n'] (number n.toNat)]
  | .framesFit f => asmLine "FRAMES_FIT".toList [fc f]
  | .encode h b => asmLine "ENCODE".toList [operand ['h', 'd', 'r'] (asmHeader h), pl b]
  | .decode b => asmLine "DECODE".toList [dg b]
  | .wirePcm f b => rx b.src (wireDatagram 0 0 f b)
  | .wireCompressed8 c f b => rx b.src (wireDatagram 0 (1#1 ++ c : BitVec (1 + 3)) f b)
  | .wireCompressed4 c f b => rx b.src (wireDatagram 0 (1#2 ++ c : BitVec (2 + 2)) f b)
  | .wireCompressed2 c f b => rx b.src (wireDatagram 0 (1#3 ++ c : BitVec (3 + 1)) f b)
  | .wireCompressed1 f b => rx b.src (wireDatagram 0 1 f b)
  | .wireService4 u c f b => rx b.src (wireDatagram (1#1 ++ u : BitVec (1 + 2)) c f b)
  | .wireService2 u c f b => rx b.src (wireDatagram (1#2 ++ u : BitVec (2 + 1)) c f b)
  | .wireService1 c f b => rx b.src (wireDatagram 1 c f b)

end Sys2Proof.Machine
end

