-- ==== Sys2Proof/Safety.lean ====
section
/-! DEFINITION. What a legal state of the block is, in the terms the statements use: the slot invariants of
10_state.md R38, the properties of 43_playback_buffer.md R208, the reserved register bits of R22, and the transitions of
R198. -/

namespace Sys2Proof.Machine

/-- A format descriptor that a lookup can return has 1 to 256 channels (R35). -/
abbrev FormatDescriptor.WF (d : FormatDescriptor) : Prop := 1 ≤ d.channelCount ∧ d.channelCount ≤ 256

/-- The invariants of one slot (R37, R38, R208 a): a queue within the capacity, holding whole frames of the negotiated
format; Idle exactly without a format; no queue and no counter without a format; a valid name and a source address of
SRC_ADDR_W bits; prepend pending only in Buffering; a free slot holds the cleared values. -/
abbrev SlotInv (p : Params) (sl : Slot) : Prop :=
  sl.fifo.length ≤ p.bufCapFrames ∧
  (sl.valid = true → (sl.state = .idle ↔ sl.fmtValid = false)) ∧
  (sl.valid = true → sl.fmtValid = false → sl.fifo = [] ∧ sl.seqValid = false) ∧
  (∀ f ∈ sl.fifo, f.length = bpf sl.fmt) ∧
  (sl.fmtValid = true → FormatDescriptor.WF sl.fmt) ∧
  Bytes.ValidName sl.name ∧ SrcAddr.WF p sl.src ∧
  (sl.prependPending = true → sl.state = .buffering) ∧
  (sl.valid = false → sl = Slot.cleared)

/-- Two slots do not hold the same StreamKey (R38). -/
abbrev DistinctKeys (a b : Slot) : Prop :=
  a.valid = true → b.valid = true → ¬(a.src = b.src ∧ a.name = b.name)

/-- Every reserved register bit is 0 (R22). -/
abbrev RegsInv (r : Regs) : Prop := ∀ k, r.get k = r.raw k

/-- The invariant of the whole block: well-formed parameters (R8), N_SESSIONS slots that each meet `SlotInv`, distinct
StreamKeys, reserved bits 0, and pending requests that an agent can have driven. -/
structure Inv (s : State) : Prop where
  params : s.params.WF
  slotCount : s.slots.length = s.params.nSessions
  slots : ∀ sl ∈ s.slots, SlotInv s.params sl
  keys : s.slots.Pairwise DistinctKeys
  regs : RegsInv s.regs
  requests : ∀ r ∈ s.requests, Request.WF s.params r

/-- The state changes that one operation can make visible on a slot (R198, R297): a slot never leaves Draining but to be
freed, and it enters Draining only from Playing. -/
abbrev AllowedMove (old new : PlaybackState) : Prop :=
  (old = .draining → new = .draining ∨ new = .idle) ∧ (new = .draining → old = .draining ∨ old = .playing)

/-- The advisory condition of R8 for a format: capacity for the threshold and one full packet. -/
abbrev PrependRoom (p : Params) (r : Regs) (d : FormatDescriptor) : Prop := lowWaterMark r d + 256 ≤ p.bufCapFrames

/-! ## The terms of the statements

The definitions below say again, in plain arithmetic on numbers and byte lists, what the rules say of formats, headers and
packets. No definition of the machine uses them, and the format code, the header fields and the byte layout do not go
through the machine's own functions. -/

/-- Format code `fc` is mapped to the descriptor `d` (R86, R120): rate index `fc[7:3]`, data type `fc[2:0]` below 4,
channels `fc[15:8] + 1`. -/
abbrev Maps (p : Params) (fc : Nat) (d : FormatDescriptor) : Prop :=
  (p.srTable[fc / 8 % 32]?).join = some d.sampleRate ∧ fc % 8 ≤ 3 ∧ d.bitsPerSample.bits = 8 * (fc % 8 + 1) ∧
  d.channelCount = fc / 256 + 1 ∧ d.byteOrder = .le

/-- Format code `fc` has an unmapped rate (R120). -/
abbrev UnmappedRate (p : Params) (fc : Nat) : Prop := (p.srTable[fc / 8 % 32]?).join = none

/-- Format code `fc` has a mapped rate and an unmapped data type (R120). -/
abbrev UnmappedDepth (p : Params) (fc : Nat) : Prop := (p.srTable[fc / 8 % 32]?).join ≠ none ∧ 3 < fc % 8

/-- The format code of a header (R86), as a number. -/
abbrev headerCode (h : Header) : Nat := h.nbcMinus1.toNat * 256 + h.srIndex.toNat * 8 + h.dataType.toNat

/-- The datagram of R80, from the numbers of its fields, its name field and its payload. -/
def wireLayout (h : Header) (field pl : Bytes) : Bytes :=
  [0x56, 0x42, 0x41, 0x4E] ++
  [BitVec.ofNat 8 (h.subProtocol.toNat * 32 + h.srIndex.toNat), h.nbsMinus1, h.nbcMinus1,
    BitVec.ofNat 8 (h.codec.toNat * 16 + h.reserved.toNat * 8 + h.dataType.toNat)] ++
  field ++
  [BitVec.ofNat 8 (h.frameCounter.toNat % 256), BitVec.ofNat 8 (h.frameCounter.toNat / 256 % 256),
    BitVec.ofNat 8 (h.frameCounter.toNat / 65536 % 256), BitVec.ofNat 8 (h.frameCounter.toNat / 16777216)] ++
  pl

/-- A datagram of 28 to MAX_PACKET_SIZE bytes with the magic (R141). -/
abbrev WellStructured (p : Params) (dg : Bytes) : Prop :=
  28 ≤ dg.length ∧ dg.length ≤ p.maxPacketSize ∧ dg.take 4 = [0x56, 0x42, 0x41, 0x4E]

/-- A well-structured datagram decodes to the header `h` and the payload `pl` (R80, R94, R141). -/
abbrev Decodes (p : Params) (dg : Bytes) (h : Header) (pl : Bytes) : Prop :=
  WellStructured p dg ∧
  h.subProtocol.toNat = (dg.getD 4 0).toNat / 32 ∧ h.srIndex.toNat = (dg.getD 4 0).toNat % 32 ∧
  h.nbsMinus1 = dg.getD 5 0 ∧ h.nbcMinus1 = dg.getD 6 0 ∧
  h.codec.toNat = (dg.getD 7 0).toNat / 16 ∧ h.reserved.toNat = (dg.getD 7 0).toNat / 8 % 2 ∧
  h.dataType.toNat = (dg.getD 7 0).toNat % 8 ∧
  h.name = ((dg.drop 8).take 16).takeWhile (fun b => b != 0) ∧
  h.frameCounter.toNat = (dg.getD 24 0).toNat + 256 * (dg.getD 25 0).toNat + 65536 * (dg.getD 26 0).toNat +
    16777216 * (dg.getD 27 0).toNat ∧
  pl = dg.drop 28

/-- Instruction `i` delivers a PCM packet of source `src` with header `h` and payload `pl`: an RX_PACKET whose datagram
decodes so, or the WIRE_PCM instruction of that packet (R92, R150). -/
def DeliversPcm (p : Params) (i : Instr) (src : SrcAddr) (h : Header) (pl : Bytes) : Prop :=
  h.subProtocol = 0 ∧ h.codec = 0 ∧
  ((∃ dg, i = .rxPacket src dg ∧ Decodes p dg h pl) ∨
    ∃ field, h.name = field.takeWhile (fun b => b != 0) ∧
      i = .wirePcm ⟨h.srIndex, h.nbsMinus1, h.nbcMinus1, h.dataType, h.reserved⟩ ⟨src, field, h.frameCounter, pl⟩)

/-- Stages 3 and 4 pass (R233, R234): the format is mapped to `d`, and the payload is whole frames, at least as many as the
header declares. -/
abbrev PayloadFits (p : Params) (h : Header) (pl : Bytes) (d : FormatDescriptor) : Prop :=
  Maps p (headerCode h) d ∧ pl.length % bpf d = 0 ∧ (h.nbsMinus1.toNat + 1) * bpf d ≤ pl.length

/-- The name that four register words hold (R32, R33): byte `4k+j` of the field is bits `[8j+7:8j]` of word `k`, and the
name is the bytes before the first 0x00, all sixteen where there is none. -/
def nameInWords (w0 w1 w2 w3 : Word32) : Bytes :=
  ([w0, w1, w2, w3].flatMap fun w => (List.range 4).map fun j => BitVec.ofNat 8 (w.toNat / 256 ^ j)).takeWhile
    fun b => b != 0

/-- The effective filter name, from FILTER_NAME0 to FILTER_NAME3 (R32). -/
abbrev effectiveFilterName (r : Regs) : Bytes :=
  nameInWords (r.get .filterName0) (r.get .filterName1) (r.get .filterName2) (r.get .filterName3)

/-- The effective transmit name, from TX_NAME0 to TX_NAME3 (R33). -/
abbrev effectiveTxName (r : Regs) : Bytes :=
  nameInWords (r.get .txName0) (r.get .txName1) (r.get .txName2) (r.get .txName3)

/-- Stage 5 passes (R235): no filter, or the filter's name. -/
abbrev PassesFilter (r : Regs) (name : Bytes) : Prop := (r.get .ctrl).getLsbD 0 = true → name = effectiveFilterName r

/-- Stage 6 passes (R123, R236): the bit of the depth is set in RX_DEPTH_MASK. -/
abbrev DepthEnabled (r : Regs) (d : FormatDescriptor) : Prop :=
  (r.get .rxDepthMask).getLsbD (d.bitsPerSample.bits / 8 - 1) = true

/-- Stages 3 to 6 pass (R233 to R236). -/
abbrev Admissible (s : State) (h : Header) (pl : Bytes) (d : FormatDescriptor) : Prop :=
  PayloadFits s.params h pl d ∧ PassesFilter s.regs h.name ∧ DepthEnabled s.regs d

/-- Slot `k` is `sl`, the session of a StreamKey (R237). -/
abbrev SessionAt (s : State) (k : Nat) (src : SrcAddr) (name : Bytes) (sl : Slot) : Prop :=
  s.slots[k]? = some sl ∧ sl.valid = true ∧ sl.src = src ∧ sl.name = name

/-- No slot holds a session of the StreamKey (R237). -/
abbrev NoSessionOf (s : State) (src : SrcAddr) (name : Bytes) : Prop :=
  ∀ sl ∈ s.slots, sl.valid = true → ¬(sl.src = src ∧ sl.name = name)

/-- Slot `k` is the lowest free slot (R237). -/
abbrev LowestFree (s : State) (k : Nat) : Prop :=
  (∃ sl, s.slots[k]? = some sl ∧ sl.valid = false) ∧ ∀ j < k, ∀ sl, s.slots[j]? = some sl → sl.valid = true

/-- An index without a session: at or above N_SESSIONS, or a free slot (R68, R320). -/
abbrev NoSessionAt (s : State) (k : Nat) : Prop :=
  s.params.nSessions ≤ k ∨ ∃ sl, s.slots[k]? = some sl ∧ sl.valid = false

/-- The gap of an accepted packet of a session (R239): none without a last counter, else the counters skipped. -/
abbrev GapIs (sl : Slot) (ctr : Word32) (gap : Nat) : Prop :=
  (sl.seqValid = false ∧ gap = 0) ∨ (sl.seqValid = true ∧ (ctr - sl.lastSeq).toInt = gap + 1)

/-- The frames of a packet (R175): the first `n` frames of `b` bytes. -/
abbrev frameList (pl : Bytes) (b n : Nat) : List Frame := (List.range n).map fun j => (pl.drop (j * b)).take b

/-- One or nothing, for a count or a flag. -/
abbrev one (c : Prop) [Decidable c] : Nat := if c then 1 else 0

/-- What an accepted packet adds to each register (R34, R242). -/
def acceptedCounts (mism : Prop) [Decidable mism] (gap fill dropped : Nat) : Reg → Nat
  | .statRxAccepted => 1
  | .statCountMismatch => one mism
  | .statFrameLossEvents => one (0 < gap)
  | .statGapSilenceFrames => fill
  | .statOverflowDropped => dropped
  | _ => 0

/-- The flags word of R41 as a number. -/
abbrev flagsOf (new fchg gap mism overflow entered : Prop) [Decidable new] [Decidable fchg] [Decidable gap]
    [Decidable mism] [Decidable overflow] [Decidable entered] : Word32 :=
  BitVec.ofNat 32 (one new + 2 * one fchg + 4 * one gap + 8 * one mism + 16 * one overflow + 32 * one entered)

/-- A slot that a teardown leaves, from the slot before it (R204, R205). -/
abbrev tornDown (sl : Slot) : Slot :=
  if sl.state = .playing then { sl with state := .draining } else if sl.state = .draining then sl else .cleared

/-- The reset value of each register (R23, R350). -/
def resetValue (p : Params) : Reg → Word32
  | .ctrl => 0
  | .rxDepthMask => 2
  | .lwmMs => 100
  | .seqTol => p.seqTolReset
  | .sessionTimeout => p.sessionTimeoutReset
  | .udpPort => 6980
  | .txFormat => 0x00010103
  | _ => 0

/-- The operations that deliver a datagram. -/
def isReceive : Instr → Bool
  | .rxPacket _ _ | .wirePcm _ _ | .wireCompressed8 _ _ _ | .wireCompressed4 _ _ _ | .wireCompressed2 _ _ _
  | .wireCompressed1 _ _ | .wireService4 _ _ _ _ | .wireService2 _ _ _ _ | .wireService1 _ _ _ => true
  | .txPacket _ _ | .pop _ _ | .stop _ | .tick | .cfgWrite _ _ | .cfgRead _ | .sessionRead _ | .deviceFault _ | .reset
  | .lookup _ | .bytesPerFrame _ | .framesInPayload _ _ | .framesFit _ | .encode _ _ | .decode _ => false

/-- The operation that transmits a datagram. -/
def isTransmit : Instr → Bool
  | .txPacket _ _ => true
  | .rxPacket _ _ | .wirePcm _ _ | .wireCompressed8 _ _ _ | .wireCompressed4 _ _ _ | .wireCompressed2 _ _ _
  | .wireCompressed1 _ _ | .wireService4 _ _ _ _ | .wireService2 _ _ _ _ | .wireService1 _ _ _
  | .pop _ _ | .stop _ | .tick | .cfgWrite _ _ | .cfgRead _ | .sessionRead _ | .deviceFault _ | .reset
  | .lookup _ | .bytesPerFrame _ | .framesInPayload _ _ | .framesFit _ | .encode _ _ | .decode _ => false

/-- The frames that a result says were dropped by overflow (R41). -/
def droppedOf : ResultData → Nat
  | .rx _ _ _ dropped => dropped
  | _ => 0

/-- The flags word of a result (R41): 0 where the result has none. -/
def flagsIn : ResultData → Word32
  | .rx _ flags _ _ => flags
  | _ => 0

/-- The gap of a result (R41): 0 where the result has none. -/
def gapIn : ResultData → Nat
  | .rx _ _ gap _ => gap.toNat
  | _ => 0

/-- Run instructions one after the other; `none` if one does not answer a next state. -/
def runAll : List Instr → State → Option State
  | [], s => some s
  | i :: rest, s =>
    match exec i s with
    | .next t => runAll rest t
    | .fault _ => none
    | .refused _ => none

/-- A run is safe when the block meets its invariant. No step of the block stops (R327), so nothing else can go wrong. -/
abbrev Safe (s : State) : Prop := Inv s

end Sys2Proof.Machine
end

