-- ==== Sys2Proof/Certificates/Slice0/Obligations.lean ====
section
/-! DEFINITION. The statements for the provers. A statement about every state that needs a legal state has the invariant
`Inv` as a premise; that every step keeps it is a statement of its own. Where a statement gives the whole next state, it
says the result, what changes, and that nothing else does. -/

section

open Sys2Proof Sys2Proof.Machine

/-! ## The format table and frame arithmetic -/

/-- R120: LOOKUP answers the descriptor of a mapped code, UNSUPPORTED_RATE for an unmapped rate, and UNSUPPORTED_DEPTH for
an unmapped data type with a mapped rate; it changes nothing. -/
def Obligations.LookupResult : Prop :=
  ∀ (s : State) (fc : BitVec 16),
    (∀ d, Maps s.params fc.toNat d →
      exec (.lookup fc) s = .next { s with result := some ⟨.ok, .descriptor d⟩ }) ∧
    (UnmappedRate s.params fc.toNat →
      exec (.lookup fc) s = .next { s with result := some ⟨.unsupportedRate, .formatCode fc⟩ }) ∧
    (UnmappedDepth s.params fc.toNat →
      exec (.lookup fc) s = .next { s with result := some ⟨.unsupportedDepth, .formatCode fc⟩ })

/-- R171 and R170: BYTES_PER_FRAME of a mapped code answers channels times bytes per sample; a lookup error ends it. -/
def Obligations.BytesPerFrameResult : Prop :=
  ∀ (s : State) (fc : BitVec 16),
    (∀ d, Maps s.params fc.toNat d → exec (.bytesPerFrame fc) s =
      .next { s with result := some ⟨.ok, .count (d.channelCount * (d.bitsPerSample.bits / 8))⟩ }) ∧
    (UnmappedRate s.params fc.toNat →
      exec (.bytesPerFrame fc) s = .next { s with result := some ⟨.unsupportedRate, .formatCode fc⟩ }) ∧
    (UnmappedDepth s.params fc.toNat →
      exec (.bytesPerFrame fc) s = .next { s with result := some ⟨.unsupportedDepth, .formatCode fc⟩ })

/-- R172: FRAMES_IN_PAYLOAD of a mapped code divides the length by the frame size, and refuses a remainder; a lookup error
takes precedence. -/
def Obligations.FramesInPayloadResult : Prop :=
  ∀ (s : State) (fc : BitVec 16) (len : Word32),
    (∀ d, Maps s.params fc.toNat d →
      let b := d.channelCount * (d.bitsPerSample.bits / 8)
      (len.toNat % b = 0 →
        exec (.framesInPayload fc len) s = .next { s with result := some ⟨.ok, .count (len.toNat / b)⟩ }) ∧
      (len.toNat % b ≠ 0 →
        exec (.framesInPayload fc len) s = .next { s with result := some ⟨.malformedPayloadNotMultiple, .none⟩ })) ∧
    (UnmappedRate s.params fc.toNat →
      exec (.framesInPayload fc len) s = .next { s with result := some ⟨.unsupportedRate, .formatCode fc⟩ }) ∧
    (UnmappedDepth s.params fc.toNat →
      exec (.framesInPayload fc len) s = .next { s with result := some ⟨.unsupportedDepth, .formatCode fc⟩ })

/-- R173: FRAMES_FIT of a mapped code answers the most frames that fit, a number from 1 to 256; a lookup error ends it. -/
def Obligations.FramesFitResult : Prop :=
  ∀ (s : State) (fc : BitVec 16),
    (∀ d, s.params.WF → Maps s.params fc.toNat d →
      let fit := min 256 ((s.params.maxPacketSize - 28) / (d.channelCount * (d.bitsPerSample.bits / 8)))
      1 ≤ fit ∧ fit ≤ 256 ∧ exec (.framesFit fc) s = .next { s with result := some ⟨.ok, .count fit⟩ }) ∧
    (UnmappedRate s.params fc.toNat →
      exec (.framesFit fc) s = .next { s with result := some ⟨.unsupportedRate, .formatCode fc⟩ }) ∧
    (UnmappedDepth s.params fc.toNat →
      exec (.framesFit fc) s = .next { s with result := some ⟨.unsupportedDepth, .formatCode fc⟩ })

/-- R174: FRAMES_IN_PAYLOAD of BYTES_PER_FRAME times k is k, for every mapped code and every k whose product fits. -/
def Obligations.FramesInPayloadRoundTrip : Prop :=
  ∀ (s : State) (fc : BitVec 16) (k : Nat) (d : FormatDescriptor), Maps s.params fc.toNat d →
    d.channelCount * (d.bitsPerSample.bits / 8) * k < 2 ^ 32 →
    exec (.framesInPayload fc (BitVec.ofNat 32 (d.channelCount * (d.bitsPerSample.bits / 8) * k))) s =
      .next { s with result := some ⟨.ok, .count k⟩ }

/-- R88 and R120: under the default table, LOOKUP succeeds exactly for rate index 0 to 20 and data type 0 to 3, and every
rate it answers is from 6000 to 705600 Hz. -/
def Obligations.DefaultTableMaps : Prop :=
  ∀ (s : State) (fc : BitVec 16), s.params.srTable = defaultSrTable →
    ((∃ d, exec (.lookup fc) s = .next { s with result := some ⟨.ok, .descriptor d⟩ }) ↔
      fc.toNat / 8 % 32 ≤ 20 ∧ fc.toNat % 8 ≤ 3) ∧
    ∀ d, exec (.lookup fc) s = .next { s with result := some ⟨.ok, .descriptor d⟩ } →
      6000 ≤ d.sampleRate ∧ d.sampleRate ≤ 705600 ∧ d.channelCount = fc.toNat / 256 + 1

/-! ## The packet codec -/

/-- R140: ENCODE lays a valid header and its payload out; a bad name is refused first, then an oversized datagram. -/
def Obligations.EncodeResult : Prop :=
  ∀ (s : State) (h : Header) (pl : Bytes),
    (h.name.length ≤ 16 → (0 : Byte) ∉ h.name → 28 + pl.length ≤ s.params.maxPacketSize →
      exec (.encode h pl) s = .next { s with
        result := some ⟨.ok, .bytes (wireLayout h (h.name ++ List.replicate (16 - h.name.length) 0) pl)⟩ }) ∧
    (16 < h.name.length ∨ (0 : Byte) ∈ h.name →
      exec (.encode h pl) s = .next { s with result := some ⟨.encodeBadName, .none⟩ }) ∧
    (h.name.length ≤ 16 → (0 : Byte) ∉ h.name → s.params.maxPacketSize < 28 + pl.length →
      exec (.encode h pl) s = .next { s with result := some ⟨.encodeTooLarge, .none⟩ })

/-- R141: DECODE answers the header and the payload of a well-structured datagram, else the first structural error. -/
def Obligations.DecodeResult : Prop :=
  ∀ (s : State) (dg : Bytes),
    (WellStructured s.params dg → ∃ h, Decodes s.params dg h (dg.drop 28) ∧
      exec (.decode dg) s = .next { s with result := some ⟨.ok, .packet h (dg.drop 28)⟩ }) ∧
    (dg.length < 28 → exec (.decode dg) s = .next { s with result := some ⟨.malformedTruncated, .none⟩ }) ∧
    (28 ≤ dg.length → s.params.maxPacketSize < dg.length →
      exec (.decode dg) s = .next { s with result := some ⟨.malformedOversized, .none⟩ }) ∧
    (28 ≤ dg.length → dg.length ≤ s.params.maxPacketSize → dg.take 4 ≠ [0x56, 0x42, 0x41, 0x4E] →
      exec (.decode dg) s = .next { s with result := some ⟨.malformedBadMagic, .none⟩ })

/-- R146: DECODE of what ENCODE answers is the header and the payload again. -/
def Obligations.EncodeDecodeRoundTrip : Prop :=
  ∀ (s t : State) (h : Header) (pl : Bytes), t.params = s.params → Bytes.ValidName h.name →
    28 + pl.length ≤ s.params.maxPacketSize →
    ∃ dg, exec (.encode h pl) s = .next { s with result := some ⟨.ok, .bytes dg⟩ } ∧
      exec (.decode dg) t = .next { t with result := some ⟨.ok, .packet h pl⟩ }

/-- R143: where the magic fails, nothing but the datagram's length reaches a result or a state: two datagrams of one length
with a bad magic, from any two sources, do the same to DECODE and to RX_PACKET. -/
def Obligations.BadMagicReadsNothingElse : Prop :=
  ∀ (s : State) (src₁ src₂ : SrcAddr) (dg₁ dg₂ : Bytes), dg₁.length = dg₂.length →
    dg₁.take 4 ≠ [0x56, 0x42, 0x41, 0x4E] → dg₂.take 4 ≠ [0x56, 0x42, 0x41, 0x4E] →
    exec (.decode dg₁) s = exec (.decode dg₂) s ∧ exec (.rxPacket src₁ dg₁) s = exec (.rxPacket src₂ dg₂) s

/-! ## The playback buffer -/

/-- R193 and R194: pushing a list of frames, one FifoPush each, onto a queue within the capacity leaves the newest frames
that fit and drops the rest, which are the oldest; and the silence push, which the model computes in closed form, is one
FifoPush of a silence frame after another. -/
def Obligations.PushClosedForm : Prop :=
  ∀ (cap dropped : Nat) (q : List Frame), 1 ≤ cap → q.length ≤ cap →
    (∀ fs : List Frame,
      (fs.foldl (fifoPush cap) (q, dropped)).1 =
        (q ++ fs).drop (q.length + fs.length - min cap (q.length + fs.length)) ∧
      (fs.foldl (fifoPush cap) (q, dropped)).2 = dropped + (q.length + fs.length - cap)) ∧
    ∀ (m : Nat) (d : FormatDescriptor), pushSilence cap (silenceFrame d) m (q, dropped) =
      (List.replicate m (List.replicate (bpf d) (0 : Byte))).foldl (fifoPush cap) (q, dropped)

/-- R202: POP of an index at or above N_SESSIONS or of a free slot answers NO_SESSION with the index; POP of a session that
is Idle or Buffering delivers no frames. Neither changes anything. -/
def Obligations.PopWithoutPlaying : Prop :=
  ∀ (s : State) (k : BitVec 8) (n : BitVec 16),
    (Inv s → NoSessionAt s k.toNat →
      exec (.pop k n) s = .next { s with result := some ⟨.noSession, .slotIndex k⟩ }) ∧
    ∀ sl, s.slots[k.toNat]? = some sl → sl.valid = true → sl.state = .idle ∨ sl.state = .buffering →
      exec (.pop k n) s = .next { s with result := some ⟨.popNotPlaying, .frames []⟩ }

/-- R202: POP of no more frames than a Playing session holds delivers exactly the oldest, and the session plays on. -/
def Obligations.PopDeliversFrames : Prop :=
  ∀ (s : State) (k : BitVec 8) (n : BitVec 16) (sl : Slot), s.slots[k.toNat]? = some sl → sl.valid = true →
    sl.state = .playing → n.toNat ≤ sl.fifo.length →
    exec (.pop k n) s = .next { s with
      slots := s.slots.set k.toNat { sl with fifo := sl.fifo.drop n.toNat }
      result := some ⟨.ok, .frames (sl.fifo.take n.toNat)⟩ }

/-- R203: POP of more frames than a Playing session holds delivers what there is; the session goes to Buffering with an
empty queue, STOPPED is emitted, the prepend is armed if it is enabled, and the underrun is counted. -/
def Obligations.PopUnderrun : Prop :=
  ∀ (s : State) (k : BitVec 8) (n : BitVec 16) (sl : Slot), s.slots[k.toNat]? = some sl → sl.valid = true →
    sl.state = .playing → sl.fifo.length < n.toNat →
    exec (.pop k n) s = .next { s with
      slots := s.slots.set k.toNat
        { sl with state := .buffering, fifo := [], prependPending := (s.regs.get .ctrl).getLsbD 1 }
      events := s.events ++ [.stopped k.toNat]
      regs := s.regs.set .statUnderruns (s.regs.get .statUnderruns + 1)
      result := some ⟨.popUnderrun, .frames sl.fifo⟩ }

/-- R209: a Draining session delivers its remaining frames in order, and the POP that finds or leaves its queue empty frees
the slot without an event. -/
def Obligations.PopDrains : Prop :=
  ∀ (s : State) (k : BitVec 8) (n : BitVec 16) (sl : Slot), s.slots[k.toNat]? = some sl → sl.valid = true →
    sl.state = .draining →
    (n.toNat < sl.fifo.length →
      exec (.pop k n) s = .next { s with
        slots := s.slots.set k.toNat { sl with fifo := sl.fifo.drop n.toNat }
        result := some ⟨.ok, .frames (sl.fifo.take n.toNat)⟩ }) ∧
    (sl.fifo.length ≤ n.toNat →
      exec (.pop k n) s = .next { s with
        slots := s.slots.set k.toNat .cleared, result := some ⟨.popDrained, .frames sl.fifo⟩ })

/-- R198 over one operation: from a legal state, a session that is Draining stays so or its slot is freed, and only a
Playing session starts to drain; no operation takes a slot from Idle or Buffering to Draining. -/
def Obligations.DrainingMoves : Prop :=
  ∀ (s t : State) (i : Instr) (k : Nat) (a b : Slot), Inv s → exec i s = .next t →
    s.slots[k]? = some a → t.slots[k]? = some b →
    (a.state = .draining → b.state = .draining ∧ b.src = a.src ∧ b.name = a.name ∨ b = .cleared) ∧
    (b.state = .draining → a.state = .draining ∨ a.state = .playing)

/-- R208 c: an operation that leaves a slot Playing which was not is a receive operation that answered OK, whose flags say
ENTERED_PLAYING: a session enters Playing at a push and nowhere else. -/
def Obligations.PlayingOnlyByPush : Prop :=
  ∀ (s t : State) (i : Instr) (k : Nat) (a b : Slot), exec i s = .next t →
    s.slots[k]? = some a → t.slots[k]? = some b → a.state ≠ .playing → b.state = .playing →
    isReceive i = true ∧
    ∃ flags gap dropped, t.result = some ⟨.ok, .rx k flags gap dropped⟩ ∧ flags.getLsbD 5 = true

/-- R201 and R297, slot by slot: an operation other than RESET that finds the slot Playing and leaves it in another state
emits STOPPED for it; and an operation, RESET too, that emits STOPPED for the slot found it Playing. A packet that takes a
session out of Playing and back into it by a format change is in `FormatChangeAccepted`. -/
def Obligations.StoppedOnEveryExit : Prop :=
  ∀ (s t : State) (i : Instr) (k : Nat) (a b : Slot), exec i s = .next t →
    s.slots[k]? = some a → t.slots[k]? = some b →
    (i ≠ .reset → a.state = .playing → b.state ≠ .playing → Event.stopped k ∈ t.events.drop s.events.length) ∧
    (Event.stopped k ∈ t.events.drop s.events.length → a.state = .playing)

/-! ## Receiving -/

/-- R231 and R144: a datagram that fails the structural checks changes STAT_RX_MALFORMED and nothing else. -/
def Obligations.MalformedDatagramCounted : Prop :=
  ∀ (s : State) (src : SrcAddr) (dg : Bytes), ¬WellStructured s.params dg →
    ∃ c, (c = .malformedTruncated ∨ c = .malformedOversized ∨ c = .malformedBadMagic) ∧
      (c = .malformedTruncated ↔ dg.length < 28) ∧
      (c = .malformedOversized ↔ 28 ≤ dg.length ∧ s.params.maxPacketSize < dg.length) ∧
      exec (.rxPacket src dg) s = .next { s with
        regs := s.regs.set .statRxMalformed (s.regs.get .statRxMalformed + 1), result := some ⟨c, .none⟩ }

/-- R151: RX_PACKET forwards a well-structured datagram of a non-zero sub-protocol as SERVICE, and one of sub-protocol 0
with a non-zero codec as COMPRESSED: one FORWARD event, one count, and nothing else. -/
def Obligations.RxPacketForwards : Prop :=
  ∀ (s : State) (src : SrcAddr) (dg : Bytes) (h : Header) (pl : Bytes), Decodes s.params dg h pl →
    (h.subProtocol ≠ 0 → exec (.rxPacket src dg) s = .next { s with
      events := s.events ++ [.forward .service src dg]
      regs := s.regs.set .statRxForwarded (s.regs.get .statRxForwarded + 1)
      result := some ⟨.forwardedService, .none⟩ }) ∧
    (h.subProtocol = 0 → h.codec ≠ 0 → exec (.rxPacket src dg) s = .next { s with
      events := s.events ++ [.forward .compressed src dg]
      regs := s.regs.set .statRxForwarded (s.regs.get .statRxForwarded + 1)
      result := some ⟨.forwardedCompressed, .none⟩ })

/-- R92 and R151: each of the seven forwarding wire classes forwards the whole datagram that it stands for; the codec or the
sub-protocol of that datagram is the number its row fixes in the high bits. That a WIRE row is an instruction of its own is
the model's choice (notes/assumptions/4.md). -/
def Obligations.WireClassesForward : Prop :=
  ∀ (s : State) (f : WireFields) (b : WireBody) (i : Instr) (sub : BitVec 3) (codec : BitVec 4) (kind : ForwardKind)
    (code : ResultCode),
    (kind = .compressed ∧ code = .forwardedCompressed ∧ sub = 0 ∧
      ((∃ c : BitVec 3, codec.toNat = 8 + c.toNat ∧ i = .wireCompressed8 c f b) ∨
       (∃ c : BitVec 2, codec.toNat = 4 + c.toNat ∧ i = .wireCompressed4 c f b) ∨
       (∃ c : BitVec 1, codec.toNat = 2 + c.toNat ∧ i = .wireCompressed2 c f b) ∨
       (codec.toNat = 1 ∧ i = .wireCompressed1 f b))) ∨
    (kind = .service ∧ code = .forwardedService ∧
      ((∃ u : BitVec 2, sub.toNat = 4 + u.toNat ∧ i = .wireService4 u codec f b) ∨
       (∃ u : BitVec 1, sub.toNat = 2 + u.toNat ∧ i = .wireService2 u codec f b) ∨
       (sub.toNat = 1 ∧ i = .wireService1 codec f b))) →
    exec i s = .next { s with
      events := s.events ++ [.forward kind b.src (wireLayout
        ⟨sub, f.srIndex, f.nbsMinus1, f.nbcMinus1, f.dataType, f.reserved, codec, [], b.frameCounter⟩
        b.nameField b.payload)]
      regs := s.regs.set .statRxForwarded (s.regs.get .statRxForwarded + 1)
      result := some ⟨code, .none⟩ }

/-- The model's own entry for the arrival of a datagram (notes/assumptions/4.md): a pending datagram is taken exactly as the
RX_PACKET request of the same source and datagram is, and where the datagram is well structured both run the wire class it
decodes to. -/
def Obligations.DatagramIsRxPacket : Prop :=
  ∀ (s : State) (src : SrcAddr) (dg : Bytes) (rest : List Request) (word1 : Word32) (hdr : Header) (word0 : Word32),
    word0.toNat % 256 = 1 →
    step { s with requests := .datagram src dg :: rest } = step { s with requests := .op word0 word1 src dg hdr :: rest } ∧
    (WellStructured s.params dg → ∃ i, decode s.params (.datagram src dg) = .ok i ∧ exec (.rxPacket src dg) s = exec i s)

/-- R233 to R236: what a PCM packet meets before any session is looked up. Each refusal counts once, in the counter its
line names, and changes nothing else. That UNSUPPORTED_RX_CAPABILITY carries the format code is the model's deduction
(notes/assumptions/6.md). -/
def Obligations.RefusedBeforeLookup : Prop :=
  ∀ (s : State) (i : Instr) (src : SrcAddr) (h : Header) (pl : Bytes) (fc : BitVec 16),
    DeliversPcm s.params i src h pl → fc.toNat = headerCode h →
    (UnmappedRate s.params fc.toNat → exec i s = .next { s with
      regs := s.regs.set .statRxUnsupported (s.regs.get .statRxUnsupported + 1)
      result := some ⟨.unsupportedRate, .formatCode fc⟩ }) ∧
    (UnmappedDepth s.params fc.toNat → exec i s = .next { s with
      regs := s.regs.set .statRxUnsupported (s.regs.get .statRxUnsupported + 1)
      result := some ⟨.unsupportedDepth, .formatCode fc⟩ }) ∧
    ∀ d, Maps s.params fc.toNat d →
      (pl.length % bpf d ≠ 0 → exec i s = .next { s with
        regs := s.regs.set .statRxMalformed (s.regs.get .statRxMalformed + 1)
        result := some ⟨.malformedPayloadNotMultiple, .none⟩ }) ∧
      (pl.length % bpf d = 0 → pl.length < (h.nbsMinus1.toNat + 1) * bpf d → exec i s = .next { s with
        regs := s.regs.set .statRxMalformed (s.regs.get .statRxMalformed + 1)
        result := some ⟨.malformedPayloadShort, .none⟩ }) ∧
      (PayloadFits s.params h pl d → ¬PassesFilter s.regs h.name → exec i s = .next { s with
        regs := s.regs.set .statRxRejected (s.regs.get .statRxRejected + 1)
        result := some ⟨.rejectedNameMismatch, .none⟩ }) ∧
      (PayloadFits s.params h pl d → PassesFilter s.regs h.name → ¬DepthEnabled s.regs d → exec i s = .next { s with
        regs := s.regs.set .statRxUnsupported (s.regs.get .statRxUnsupported + 1)
        result := some ⟨.unsupportedRxCapability, .formatCode fc⟩ })

/-- R237 to R239: the refusals that need the sessions. A new stream without a free slot, a packet for a Draining session,
and a packet that is not newer than the last one and not older than the tolerance: each counts once and changes nothing
else. -/
def Obligations.RefusedByLookup : Prop :=
  ∀ (s : State) (i : Instr) (src : SrcAddr) (h : Header) (pl : Bytes) (d : FormatDescriptor), Inv s →
    DeliversPcm s.params i src h pl → Admissible s h pl d →
    (NoSessionOf s src h.name → (∀ sl ∈ s.slots, sl.valid = true) → exec i s = .next { s with
      regs := s.regs.set .statRxRejected (s.regs.get .statRxRejected + 1)
      result := some ⟨.rejectedNoSlot, .none⟩ }) ∧
    ∀ k sl, SessionAt s k src h.name sl →
      (sl.state = .draining → exec i s = .next { s with
        regs := s.regs.set .statRxRejected (s.regs.get .statRxRejected + 1)
        result := some ⟨.rejectedDraining, .none⟩ }) ∧
      (sl.state ≠ .draining → sl.seqValid = true → (h.frameCounter - sl.lastSeq).toInt ≤ 0 →
        -(h.frameCounter - sl.lastSeq).toInt ≤ (s.regs.get .seqTol).toNat → exec i s = .next { s with
          regs := s.regs.set .statRxLateDropped (s.regs.get .statRxLateDropped + 1)
          result := some ⟨.droppedLate, .none⟩ })

/-- R206 and R239: a counter that regresses beyond SEQ_TOL resets the session. The slot and its StreamKey stay, everything
else in it is cleared, STOPPED is emitted if it was Playing, two counters count, and the packet is not pushed. -/
def Obligations.RegressionResetsSession : Prop :=
  ∀ (s : State) (i : Instr) (src : SrcAddr) (h : Header) (pl : Bytes) (d : FormatDescriptor) (k : Nat) (sl : Slot), Inv s →
    DeliversPcm s.params i src h pl → Admissible s h pl d → SessionAt s k src h.name sl →
    sl.state ≠ .draining → sl.seqValid = true →
    ((s.regs.get .seqTol).toNat : Int) < -(h.frameCounter - sl.lastSeq).toInt →
    ∃ t, exec i s = .next t ∧ t.params = s.params ∧ t.requests = s.requests ∧
      t.slots = s.slots.set k { Slot.cleared with valid := true, src := src, name := h.name } ∧
      t.events = s.events ++ (if sl.state = .playing then [.stopped k] else []) ∧
      (∀ r, t.regs.get r = s.regs.get r + BitVec.ofNat 32 (one (r = .statRxRejected ∨ r = .statSeqResets))) ∧
      t.result = some ⟨.rejectedSeqRegression, .none⟩

/-- R237, R240 and R242: the first packet of a new stream, and the first of a session that was reset. It takes the lowest
free slot (or keeps the session's), the format enters with RECONFIGURE, the queue holds the prepended silence (if it is
enabled) and the packet's frames, cut to the newest that fit, and the session plays at once where that reaches the
threshold. -/
def Obligations.FirstPacketAccepted : Prop :=
  ∀ (s : State) (i : Instr) (src : SrcAddr) (h : Header) (pl : Bytes) (d : FormatDescriptor) (k : Nat) (isNew : Bool)
    (old : Slot), Inv s → DeliversPcm s.params i src h pl → Admissible s h pl d →
    (isNew = true → NoSessionOf s src h.name ∧ LowestFree s k ∧ old = .cleared) →
    (isNew = false → SessionAt s k src h.name old ∧ old.fmtValid = false) →
    let n := h.nbsMinus1.toNat + 1
    let thr := threshold s.params s.regs d
    let pushed := List.replicate (if (s.regs.get .ctrl).getLsbD 1 then thr else 0) (zeros (bpf d)) ++ frameList pl (bpf d) n
    let dropped := pushed.length - s.params.bufCapFrames
    let queue := pushed.drop dropped
    let plays := thr ≤ queue.length
    ∃ t, exec i s = .next t ∧ t.params = s.params ∧ t.requests = s.requests ∧
      t.slots = s.slots.set k {
        valid := true, src := src, name := h.name, state := if plays then .playing else .buffering
        fmtValid := true, fmt := d, seqValid := true, lastSeq := h.frameCounter, fifo := queue, prependPending := false
        startedNotified := old.startedNotified || decide plays, idleTicks := 0 } ∧
      t.events = s.events ++ [.reconfigure k d] ++
        (if plays ∧ (old.startedNotified = false ∨ s.params.notifyStartOnResume = true) then [.started k] else []) ∧
      (∀ r, t.regs.get r = s.regs.get r + BitVec.ofNat 32 (acceptedCounts (n * bpf d ≠ pl.length) 0 0 dropped r)) ∧
      t.result = some ⟨.ok, .rx k (flagsOf (isNew = true) False False (n * bpf d ≠ pl.length) (0 < dropped) plays) 0 dropped⟩

/-- R241 and R242: the next packet of a session in its own format. A gap of lost packets is filled with silence ahead of the
packet's frames, after any silence that is pending; a Buffering session plays where that reaches the threshold; a Playing
one plays on. -/
def Obligations.NextPacketAccepted : Prop :=
  ∀ (s : State) (i : Instr) (src : SrcAddr) (h : Header) (pl : Bytes) (d : FormatDescriptor) (k : Nat) (sl : Slot)
    (gap : Nat), Inv s → DeliversPcm s.params i src h pl → Admissible s h pl d →
    SessionAt s k src h.name sl → sl.state ≠ .draining → sl.fmtValid = true → sl.fmt = d →
    GapIs sl h.frameCounter gap →
    let n := h.nbsMinus1.toNat + 1
    let thr := threshold s.params s.regs d
    let pushed := List.replicate ((if sl.prependPending then thr else 0) + gap * n) (zeros (bpf d)) ++ frameList pl (bpf d) n
    let dropped := sl.fifo.length + pushed.length - s.params.bufCapFrames
    let queue := (sl.fifo ++ pushed).drop dropped
    let starts := sl.state = .buffering ∧ thr ≤ queue.length
    ∃ t, exec i s = .next t ∧ t.params = s.params ∧ t.requests = s.requests ∧
      t.slots = s.slots.set k { sl with
        state := if starts then .playing else sl.state, fifo := queue, prependPending := false
        startedNotified := sl.startedNotified || decide starts
        seqValid := true, lastSeq := h.frameCounter, idleTicks := 0 } ∧
      t.events = s.events ++ (if starts ∧ (sl.startedNotified = false ∨ s.params.notifyStartOnResume = true)
        then [.started k] else []) ∧
      (∀ r, t.regs.get r =
        s.regs.get r + BitVec.ofNat 32 (acceptedCounts (n * bpf d ≠ pl.length) gap (gap * n) dropped r)) ∧
      t.result = some ⟨.ok, .rx k
        (flagsOf False False (0 < gap) (n * bpf d ≠ pl.length) (0 < dropped) starts) (BitVec.ofNat 32 gap) dropped⟩

/-- R240 and R207: a packet in another format. The queue is discarded and not counted as overflow, STOPPED (if the session
was Playing) comes before RECONFIGURE, no gap is filled although the loss is counted, and the session starts again from
Buffering, with the prepend armed afresh. -/
def Obligations.FormatChangeAccepted : Prop :=
  ∀ (s : State) (i : Instr) (src : SrcAddr) (h : Header) (pl : Bytes) (d : FormatDescriptor) (k : Nat) (sl : Slot)
    (gap : Nat), Inv s → DeliversPcm s.params i src h pl → Admissible s h pl d →
    SessionAt s k src h.name sl → sl.state ≠ .draining → sl.fmtValid = true → sl.fmt ≠ d →
    GapIs sl h.frameCounter gap →
    let n := h.nbsMinus1.toNat + 1
    let thr := threshold s.params s.regs d
    let pushed := List.replicate (if (s.regs.get .ctrl).getLsbD 1 then thr else 0) (zeros (bpf d)) ++ frameList pl (bpf d) n
    let dropped := pushed.length - s.params.bufCapFrames
    let queue := pushed.drop dropped
    let plays := thr ≤ queue.length
    ∃ t, exec i s = .next t ∧ t.params = s.params ∧ t.requests = s.requests ∧
      t.slots = s.slots.set k { sl with
        state := if plays then .playing else .buffering, fmt := d, fifo := queue, prependPending := false
        startedNotified := sl.startedNotified || decide plays
        seqValid := true, lastSeq := h.frameCounter, idleTicks := 0 } ∧
      t.events = s.events ++ (if sl.state = .playing then [.stopped k] else []) ++ [.reconfigure k d] ++
        (if plays ∧ (sl.startedNotified = false ∨ s.params.notifyStartOnResume = true) then [.started k] else []) ∧
      (∀ r, t.regs.get r =
        s.regs.get r + BitVec.ofNat 32 (acceptedCounts (n * bpf d ≠ pl.length) gap 0 dropped r)) ∧
      t.result = some ⟨.ok, .rx k
        (flagsOf False True (0 < gap) (n * bpf d ≠ pl.length) (0 < dropped) plays) (BitVec.ofNat 32 gap) dropped⟩

/-- R246: an operation that delivers a datagram changes no valid slot of another StreamKey. -/
def Obligations.SessionsIndependent : Prop :=
  ∀ (s t : State) (i : Instr) (src : SrcAddr) (h : Header) (pl : Bytes) (k : Nat) (sl : Slot),
    DeliversPcm s.params i src h pl → exec i s = .next t →
    s.slots[k]? = some sl → sl.valid = true → ¬(sl.src = src ∧ sl.name = h.name) → t.slots[k]? = some sl

/-- R323: an operation that answers an error code leaves every slot, the event stream and every register but one
statistics counter as they were; the one exception is REJECTED_SEQ_REGRESSION. Only receiving and TX_PACKET count at
all. -/
def Obligations.ErrorsChangeNothing : Prop :=
  ∀ (s t : State) (i : Instr) (r : Result), exec i s = .next t → t.result = some r → r.code.isSuccess = false →
    r.code ≠ .rejectedSeqRegression →
    t.slots = s.slots ∧ t.events = s.events ∧
    ∃ k : Reg, k.readOnly = true ∧ (∀ j, j ≠ k → t.regs.get j = s.regs.get j) ∧
      ((isReceive i = true ∨ isTransmit i = true) ∧ t.regs.get k = s.regs.get k + 1 ∨
        isReceive i = false ∧ isTransmit i = false ∧ t.regs.get k = s.regs.get k)

/-- R34: what each result counts. An operation other than RESET adds to each of the fourteen counters exactly what the line
of the table says, and nothing otherwise. The gap, the frame-count mismatch and the format change of an accepted packet are
read from its result (R41); its gap fill is the gap times the frames its header declares, or nothing on a format change
(R241). -/
def Obligations.StatisticsCount : Prop :=
  ∀ (s t : State) (i : Instr) (c : ResultCode) (d : ResultData), exec i s = .next t → t.result = some ⟨c, d⟩ → i ≠ .reset →
    let rx := isReceive i = true
    t.regs.get .statRxAccepted = s.regs.get .statRxAccepted + BitVec.ofNat 32 (one (rx ∧ c = .ok)) ∧
    t.regs.get .statRxMalformed = s.regs.get .statRxMalformed + BitVec.ofNat 32 (one (rx ∧
      (c = .malformedTruncated ∨ c = .malformedOversized ∨ c = .malformedBadMagic ∨
        c = .malformedPayloadNotMultiple ∨ c = .malformedPayloadShort))) ∧
    t.regs.get .statRxUnsupported = s.regs.get .statRxUnsupported + BitVec.ofNat 32 (one (rx ∧
      (c = .unsupportedRate ∨ c = .unsupportedDepth ∨ c = .unsupportedRxCapability))) ∧
    t.regs.get .statRxRejected = s.regs.get .statRxRejected + BitVec.ofNat 32 (one
      (c = .rejectedNameMismatch ∨ c = .rejectedSeqRegression ∨ c = .rejectedNoSlot ∨ c = .rejectedDraining)) ∧
    t.regs.get .statRxForwarded = s.regs.get .statRxForwarded + BitVec.ofNat 32 (one
      (c = .forwardedCompressed ∨ c = .forwardedService)) ∧
    t.regs.get .statRxLateDropped = s.regs.get .statRxLateDropped + BitVec.ofNat 32 (one (c = .droppedLate)) ∧
    t.regs.get .statSeqResets = s.regs.get .statSeqResets + BitVec.ofNat 32 (one (c = .rejectedSeqRegression)) ∧
    t.regs.get .statUnderruns = s.regs.get .statUnderruns + BitVec.ofNat 32 (one (c = .popUnderrun)) ∧
    t.regs.get .statTxPackets =
      s.regs.get .statTxPackets + BitVec.ofNat 32 (one (isTransmit i = true ∧ c = .ok)) ∧
    t.regs.get .statTxErrors =
      s.regs.get .statTxErrors + BitVec.ofNat 32 (one (isTransmit i = true ∧ c ≠ .ok)) ∧
    t.regs.get .statOverflowDropped = s.regs.get .statOverflowDropped +
      BitVec.ofNat 32 (droppedOf d) ∧
    t.regs.get .statFrameLossEvents = s.regs.get .statFrameLossEvents + BitVec.ofNat 32 (one (0 < gapIn d)) ∧
    t.regs.get .statCountMismatch = s.regs.get .statCountMismatch + BitVec.ofNat 32 (one ((flagsIn d).getLsbD 3 = true)) ∧
    (gapIn d = 0 ∨ (flagsIn d).getLsbD 1 = true →
      t.regs.get .statGapSilenceFrames = s.regs.get .statGapSilenceFrames) ∧
    ((flagsIn d).getLsbD 1 = false → ∀ src h pl, DeliversPcm s.params i src h pl →
      t.regs.get .statGapSilenceFrames =
        s.regs.get .statGapSilenceFrames + BitVec.ofNat 32 (gapIn d * (h.nbsMinus1.toNat + 1)))

/-! ## Transmitting -/

/-- R270: TX_PACKET of k frames stamps the fields of TX_FORMAT, the effective transmit name padded with 0x00 (R33) and TX_SEQ, answers the datagram, counts
it, and advances TX_SEQ by one modulo 2^32. -/
def Obligations.TxPacketResult : Prop :=
  ∀ (s : State) (k : BitVec 16) (pl : Bytes), 1 ≤ k.toNat → k.toNat ≤ 256 → 28 + pl.length ≤ s.params.maxPacketSize →
    let f := (s.regs.get .txFormat).toNat
    (f / 32 % 8 = 0 → f / 1048576 % 16 = 0 →
      ∃ d, Maps s.params (f / 256 % 256 * 256 + f % 32 * 8 + f / 65536 % 8) d ∧ pl.length = k.toNat * bpf d) →
    exec (.txPacket k pl) s = .next { s with
      regs := (s.regs.set .txSeq (s.regs.get .txSeq + 1)).set .statTxPackets (s.regs.get .statTxPackets + 1)
      result := some ⟨.ok, .bytes (wireLayout
        { subProtocol := BitVec.ofNat 3 (f / 32), srIndex := BitVec.ofNat 5 f, nbsMinus1 := BitVec.ofNat 8 (k.toNat - 1)
          nbcMinus1 := BitVec.ofNat 8 (f / 256), dataType := BitVec.ofNat 3 (f / 65536), reserved := 0
          codec := BitVec.ofNat 4 (f / 1048576), name := [], frameCounter := s.regs.get .txSeq }
        (effectiveTxName s.regs ++ List.replicate (16 - (effectiveTxName s.regs).length) 0) pl)⟩ }

/-- R270: the errors of TX_PACKET, in their order. Each counts in STAT_TX_ERRORS and changes nothing else; TX_SEQ stays. -/
def Obligations.TxPacketErrors : Prop :=
  ∀ (s : State) (k : BitVec 16) (pl : Bytes),
    let f := (s.regs.get .txFormat).toNat
    let fc := BitVec.ofNat 16 (f / 256 % 256 * 256 + f % 32 * 8 + f / 65536 % 8)
    let pcm := f / 32 % 8 = 0 ∧ f / 1048576 % 16 = 0
    let errs := s.regs.set .statTxErrors (s.regs.get .statTxErrors + 1)
    (k.toNat < 1 ∨ 256 < k.toNat →
      exec (.txPacket k pl) s = .next { s with regs := errs, result := some ⟨.txBadCount, .none⟩ }) ∧
    (1 ≤ k.toNat → k.toNat ≤ 256 →
      (pcm → UnmappedRate s.params fc.toNat →
        exec (.txPacket k pl) s = .next { s with regs := errs, result := some ⟨.unsupportedRate, .formatCode fc⟩ }) ∧
      (pcm → UnmappedDepth s.params fc.toNat →
        exec (.txPacket k pl) s = .next { s with regs := errs, result := some ⟨.unsupportedDepth, .formatCode fc⟩ }) ∧
      (∀ d, pcm → Maps s.params fc.toNat d → pl.length ≠ k.toNat * bpf d →
        exec (.txPacket k pl) s = .next { s with regs := errs, result := some ⟨.txPayloadMismatch, .none⟩ }) ∧
      (¬pcm ∨ (∃ d, Maps s.params fc.toNat d ∧ pl.length = k.toNat * bpf d) → s.params.maxPacketSize < 28 + pl.length →
        exec (.txPacket k pl) s = .next { s with regs := errs, result := some ⟨.encodeTooLarge, .none⟩ }))

/-- R273: with no more frames than FRAMES_FIT answers for the transmit format, TX_PACKET of a PCM payload of k frames
succeeds. -/
def Obligations.TxWithinFitSucceeds : Prop :=
  ∀ (s : State) (k : BitVec 16) (pl : Bytes) (d : FormatDescriptor) (fit : Nat) (fc : BitVec 16),
    let f := (s.regs.get .txFormat).toNat
    f / 32 % 8 = 0 → f / 1048576 % 16 = 0 → fc.toNat = f / 256 % 256 * 256 + f % 32 * 8 + f / 65536 % 8 →
    Maps s.params fc.toNat d → pl.length = k.toNat * bpf d → s.params.WF →
    exec (.framesFit fc) s = .next { s with result := some ⟨.ok, .count fit⟩ } → 1 ≤ k.toNat → k.toNat ≤ fit →
    ∃ t dg, exec (.txPacket k pl) s = .next t ∧ t.result = some ⟨.ok, .bytes dg⟩ ∧ dg.length = 28 + pl.length

/-- R275: the datagram of a successful TX_PACKET decodes to the header that was stamped and the payload; for PCM, the
payload holds exactly k frames of the stamped format. -/
def Obligations.TxDatagramDecodes : Prop :=
  ∀ (s t u : State) (k : BitVec 16) (pl dg : Bytes), exec (.txPacket k pl) s = .next t →
    t.result = some ⟨.ok, .bytes dg⟩ → u.params = s.params →
    ∃ h, exec (.decode dg) u = .next { u with result := some ⟨.ok, .packet h pl⟩ } ∧
      h.name = effectiveTxName s.regs ∧ h.frameCounter = s.regs.get .txSeq ∧ h.nbsMinus1.toNat + 1 = k.toNat ∧
      h.reserved = 0 ∧
      (s.regs.get .txFormat).toNat =
        h.srIndex.toNat + 32 * h.subProtocol.toNat + 256 * h.nbcMinus1.toNat + 65536 * h.dataType.toNat +
          1048576 * h.codec.toNat ∧
      (h.subProtocol = 0 → h.codec = 0 → ∃ d, Maps s.params (headerCode h) d ∧ pl.length = k.toNat * bpf d)

/-- R274: TX_PACKET reads TX_FORMAT, TX_NAME0 to TX_NAME3, TX_SEQ and the parameters, and nothing else; it writes TX_SEQ
and its two counters, and nothing else; and no receive operation changes those three registers. -/
def Obligations.TransmitIndependent : Prop :=
  (∀ (s t s' t' : State) (k : BitVec 16) (pl : Bytes), s.params = t.params →
    (∀ r ∈ [Reg.txFormat, .txSeq, .txName0, .txName1, .txName2, .txName3], s.regs.get r = t.regs.get r) →
    exec (.txPacket k pl) s = .next s' → exec (.txPacket k pl) t = .next t' →
    s'.result = t'.result ∧ s'.regs.get .txSeq = t'.regs.get .txSeq ∧
    s'.slots = s.slots ∧ s'.events = s.events ∧
    ∀ r, r ∉ [Reg.txSeq, .statTxPackets, .statTxErrors] → s'.regs.get r = s.regs.get r) ∧
  ∀ (s t : State) (i : Instr), isReceive i = true → exec i s = .next t →
    ∀ r ∈ [Reg.txSeq, .statTxPackets, .statTxErrors], t.regs.get r = s.regs.get r

/-! ## Control -/

/-- R290: CFG_READ answers the register of an index up to 0x1D, and CFG_UNMAPPED with 0 above it; it changes nothing. -/
def Obligations.CfgReadResult : Prop :=
  ∀ (s : State) (idx : BitVec 8),
    (∀ k, indexOfReg k = idx →
      exec (.cfgRead idx) s = .next { s with result := some ⟨.ok, .word (s.regs.get k)⟩ }) ∧
    (idx.toNat ≤ 0x1D → ∃ k, indexOfReg k = idx) ∧
    (0x1D < idx.toNat → exec (.cfgRead idx) s = .next { s with result := some ⟨.cfgUnmapped, .word 0⟩ })

/-- R291 and R22: after a CFG_WRITE of a writable register, that register reads as the value without its reserved bits, and
every other register reads as before; the next CFG_READ answers it; and unless it is CTRL or a filter-name word, no slot and
no event changes. A write of an unmapped index or of a statistics counter is refused and changes nothing. -/
def Obligations.CfgWriteResult : Prop :=
  ∀ (s : State) (v : Word32),
    (∀ (k : Reg) (mask : Word32), (indexOfReg k).toNat ≤ 0x0F →
      (mask = match k with
        | .ctrl => 0x00000003
        | .rxDepthMask => 0x0000000F
        | .lwmMs => 0x0000FFFF
        | .udpPort => 0x0000FFFF
        | .txFormat => 0x00F7FFFF
        | _ => 0xFFFFFFFF) →
      ∃ t, exec (.cfgWrite (indexOfReg k) v) s = .next t ∧ t.result = some ⟨.ok, .none⟩ ∧
        t.params = s.params ∧ t.requests = s.requests ∧
        t.regs.get k = v &&& mask ∧ (∀ j, j ≠ k → t.regs.get j = s.regs.get j) ∧
        exec (.cfgRead (indexOfReg k)) t = .next { t with result := some ⟨.ok, .word (v &&& mask)⟩ } ∧
        (k ∉ [Reg.ctrl, .filterName0, .filterName1, .filterName2, .filterName3] →
          t.slots = s.slots ∧ t.events = s.events)) ∧
    ∀ idx : BitVec 8,
      (0x1D < idx.toNat → exec (.cfgWrite idx v) s = .next { s with result := some ⟨.cfgUnmapped, .none⟩ }) ∧
      (0x10 ≤ idx.toNat → idx.toNat ≤ 0x1D →
        exec (.cfgWrite idx v) s = .next { s with result := some ⟨.cfgReadOnly, .none⟩ })

/-- R292: after a CFG_WRITE of CTRL or of a filter-name word that leaves the filter enabled, every session whose name is not
the new filter's, but for a Draining one, is torn down, in ascending order; with the filter disabled nothing is. -/
def Obligations.FilterChangeTearsDown : Prop :=
  ∀ (s t : State) (k : Reg) (v : Word32), k ∈ [Reg.ctrl, .filterName0, .filterName1, .filterName2, .filterName3] →
    exec (.cfgWrite (indexOfReg k) v) s = .next t →
    let refused (sl : Slot) : Prop := (t.regs.get .ctrl).getLsbD 0 = true ∧ sl.valid = true ∧ sl.state ≠ .draining ∧
      sl.name ≠ effectiveFilterName t.regs
    t.slots = s.slots.map (fun sl => if refused sl then tornDown sl else sl) ∧
    t.events = s.events ++ (s.slots.zipIdx.filter fun x => decide (refused x.1 ∧ x.1.state = .playing)).map
      fun x => .stopped x.2

/-- R293: SESSION_READ answers every field of the slot, with its fill and its threshold, a free slot too, and changes
nothing; an index at or above N_SESSIONS is NO_SESSION. -/
def Obligations.SessionReadResult : Prop :=
  ∀ (s : State) (k : BitVec 8),
    (Inv s → s.params.nSessions ≤ k.toNat →
      exec (.sessionRead k) s = .next { s with result := some ⟨.noSession, .slotIndex k⟩ }) ∧
    ∀ sl, s.slots[k.toNat]? = some sl → exec (.sessionRead k) s = .next { s with result := some ⟨.ok, .session {
      valid := sl.valid, src := sl.src, name := sl.name, state := sl.state, fmtValid := sl.fmtValid, fmt := sl.fmt
      seqValid := sl.seqValid, lastSeq := sl.lastSeq, fill := sl.fifo.length, fifo := sl.fifo
      threshold := if sl.fmtValid = true then
        min (sl.fmt.sampleRate * (s.regs.get .lwmMs).toNat / 1000) s.params.bufCapFrames else 0
      prependPending := sl.prependPending, startedNotified := sl.startedNotified, idleTicks := sl.idleTicks }⟩ }

/-- R294 and R204: STOP of a session moves a Playing one to Draining with STOPPED, leaves a Draining one alone, and frees an
Idle or Buffering one at once; it answers the state after the stop. Without a session it is NO_SESSION. -/
def Obligations.StopResult : Prop :=
  ∀ (s : State) (k : BitVec 8),
    (Inv s → NoSessionAt s k.toNat →
      exec (.stop k) s = .next { s with result := some ⟨.noSession, .slotIndex k⟩ }) ∧
    ∀ sl, s.slots[k.toNat]? = some sl → sl.valid = true → exec (.stop k) s = .next { s with
      slots := s.slots.set k.toNat (tornDown sl)
      events := s.events ++ (if sl.state = .playing then [.stopped k.toNat] else [])
      result := some ⟨.ok, .playback (if sl.state = .playing ∨ sl.state = .draining then .draining else .idle)⟩ }

/-- R295: DEVICE_FAULT of a session frees its slot at once, whatever its state, with STOPPED if it was Playing. Without a
session it is NO_SESSION. -/
def Obligations.DeviceFaultResult : Prop :=
  ∀ (s : State) (k : BitVec 8),
    (Inv s → NoSessionAt s k.toNat →
      exec (.deviceFault k) s = .next { s with result := some ⟨.noSession, .slotIndex k⟩ }) ∧
    ∀ sl, s.slots[k.toNat]? = some sl → sl.valid = true → exec (.deviceFault k) s = .next { s with
      slots := s.slots.set k.toNat .cleared
      events := s.events ++ (if sl.state = .playing then [.stopped k.toNat] else [])
      result := some ⟨.ok, .none⟩ }

/-- R296: TICK ages every session that is not Draining, saturating, and tears down those that reach SESSION_TIMEOUT if it is
not 0, in ascending order; it answers how many. -/
def Obligations.TickResult : Prop :=
  ∀ (s : State),
    let age (sl : Slot) : Nat := min (sl.idleTicks.toNat + 1) (2 ^ 32 - 1)
    let live (sl : Slot) : Prop := sl.valid = true ∧ sl.state ≠ .draining
    let expires (sl : Slot) : Prop := live sl ∧ s.regs.get .sessionTimeout ≠ 0 ∧
      (s.regs.get .sessionTimeout).toNat ≤ age sl
    exec .tick s = .next { s with
      slots := s.slots.map (fun sl =>
        if expires sl then tornDown { sl with idleTicks := BitVec.ofNat 32 (age sl) }
        else if live sl then { sl with idleTicks := BitVec.ofNat 32 (age sl) } else sl)
      events := s.events ++ (s.slots.zipIdx.filter fun x => decide (expires x.1 ∧ x.1.state = .playing)).map
        fun x => .stopped x.2
      result := some ⟨.ok, .count (s.slots.countP fun sl => decide (expires sl))⟩ }

/-- R297 and R350: RESET gives every register its reset value and clears every slot; the event stream stays, and nothing is
emitted. -/
def Obligations.ResetResult : Prop :=
  ∀ (s : State), ∃ t, exec .reset s = .next t ∧ (∀ r, t.regs.get r = resetValue s.params r) ∧
    t.slots = List.replicate s.params.nSessions .cleared ∧ t.events = s.events ∧ t.params = s.params ∧
    t.requests = s.requests ∧ t.result = some ⟨.ok, .none⟩

/-- R350: after power-on, every register holds its reset value, every slot is cleared, and the event stream is empty; the
host's start state is such a block with the parameters of the reference configuration, which is the model's choice
(notes/assumptions/1.md). -/
def Obligations.PowerOnState : Prop :=
  (∀ (p : Params), (∀ r, (State.powerOn p).regs.get r = resetValue p r) ∧
    (State.powerOn p).slots = List.replicate p.nSessions .cleared ∧ (State.powerOn p).events = [] ∧
    (State.powerOn p).params = p) ∧
  State.reset = State.powerOn Params.reference

/-- R299: the six pure queries change nothing but the answer, and answer the same in every state of one parameter set. -/
def Obligations.PureQueriesReadNoState : Prop :=
  ∀ (i : Instr), (∃ fc, i = .lookup fc ∨ i = .bytesPerFrame fc ∨ i = .framesFit fc ∨ ∃ len, i = .framesInPayload fc len) ∨
      (∃ h pl, i = .encode h pl) ∨ (∃ dg, i = .decode dg) →
    ∀ p : Params, ∃ r : Result, ∀ s : State, s.params = p → exec i s = .next { s with result := some r }

/-! ## The whole machine -/

/-- R327: every step that takes a request answers a next state with one result, and leaves the other requests waiting. -/
def Obligations.EveryRequestEndsWithAResult : Prop :=
  ∀ (s : State) (r : Request) (rest : List Request), s.requests = r :: rest →
    ∃ t, step s = .next t ∧ t.requests = rest ∧ t.result ≠ none

/-- R351: no step changes a parameter. -/
def Obligations.ParametersNeverChange : Prop :=
  ∀ (s t : State), step s = .next t → t.params = s.params

/-- R40: the event stream only grows: a step appends to it, RESET included. -/
def Obligations.EventsOnlyAppended : Prop :=
  ∀ (s t : State), step s = .next t → ∃ es, t.events = s.events ++ es

/-- R38: power-on meets the invariant, for every well-formed parameter set, and so does the host's start state, whose
parameters are the model's choice (notes/assumptions/1.md). -/
def Obligations.PowerOnMeetsInv : Prop :=
  (∀ p : Params, p.WF → Inv (State.powerOn p)) ∧ Inv State.reset

/-- R38: every step keeps the invariant: the slot invariants of R38 (a queue within the capacity, whole frames of the
negotiated format, Idle exactly without a format, cleared free slots), distinct StreamKeys, reserved register bits 0, a
prepend pending only in Buffering, well-formed parameters. -/
def Obligations.StepKeepsInv : Prop :=
  ∀ (s t : State), Inv s → step s = .next t → Inv t

/-- R105 and R292: SET_FILTER, the expansion of six writes, ends with the filter enabled on that name, with the prepend bit
asked for, and with no session of another name left but Draining ones. -/
def Obligations.SetFilterSelectsName : Prop :=
  ∀ (s : State) (name : Bytes) (prepend : Bool), Bytes.ValidName name →
    ∃ t, runAll (setFilter name prepend) s = some t ∧ effectiveFilterName t.regs = name ∧
      (t.regs.get .ctrl).toNat = 1 + 2 * prepend.toNat ∧
      ∀ sl ∈ t.slots, sl.valid = true → sl.state ≠ .draining → sl.name = name

/-! ## Decoding and encoding -/

/-- Decoding the encoding of any instruction with legal operands gives it back, for all twenty-four. -/
def Obligations.DecodeEncodeRoundTrip : Prop :=
  ∀ (p : Params) (i : Instr), Instr.WF p i → decode p (encode i) = .ok i

/-- Encoding the wire class that a datagram decodes to gives the datagram back: no byte of it is dropped. -/
def Obligations.EncodeDecodedDatagram : Prop :=
  ∀ (p : Params) (src : SrcAddr) (dg : Bytes) (i : Instr), decode p (.datagram src dg) = .ok i →
    encode i = .datagram src dg

/-- R101 and R100: word0[7:0] alone selects the operation, word0[15:8] is the index, word0[31:16] the argument, and word1
the value. -/
def Obligations.OperationCodes : Prop :=
  ∀ (p : Params) (word0 word1 : Word32) (src : SrcAddr) (buf : Bytes) (hdr : Header),
    let idx := BitVec.ofNat 8 (word0.toNat / 256)
    let arg := BitVec.ofNat 16 (word0.toNat / 65536)
    ∀ i, (word0.toNat % 256, i) ∈
      [(0x01, Instr.rxPacket src buf), (0x02, .txPacket arg buf), (0x03, .pop idx arg), (0x04, .stop idx), (0x05, .tick),
       (0x06, .cfgWrite idx word1), (0x07, .cfgRead idx), (0x08, .sessionRead idx), (0x09, .deviceFault idx),
       (0x0A, .reset), (0x10, .lookup arg), (0x11, .bytesPerFrame arg), (0x12, .framesInPayload arg word1),
       (0x13, .framesFit arg), (0x14, .encode hdr buf), (0x15, .decode buf)] →
      decode p (.op word0 word1 src buf hdr) = .ok i

/-- R298: a request with any other operation code answers ILLEGAL_OP; it changes no register, no slot and no event, and
the block takes the next request. -/
def Obligations.IllegalOperation : Prop :=
  ∀ (s : State) (word0 word1 : Word32) (src : SrcAddr) (buf : Bytes) (hdr : Header) (rest : List Request),
    s.requests = .op word0 word1 src buf hdr :: rest →
    ¬(1 ≤ word0.toNat % 256 ∧ word0.toNat % 256 ≤ 10) → ¬(16 ≤ word0.toNat % 256 ∧ word0.toNat % 256 ≤ 21) →
    step s = .next { s with requests := rest, result := some ⟨.illegalOp, .none⟩ }

/-- R92: the row of the opcode table that selects a decoded request is the row of its instruction, and no other row of the
table selects it. -/
def Obligations.RowsPartitionRequests : Prop :=
  ∀ (p : Params) (r : Request) (i : Instr), decode p r = .ok i →
    (rowOf i).Selects r ∧ ∀ j : Instr, (rowOf j).Selects r → rowOf j = rowOf i

/-- A sanity check: words written out from the tables of R92 and R101 decode to their instructions. How a bare word becomes a
request is the model's choice (notes/assumptions/5.md). -/
def Obligations.KnownWordsDecode : Prop :=
  decodeTableWord 32 0x00060003 = some (.pop 0 6) ∧
  decodeTableWord 64 0x0001234500000206 = some (.cfgWrite 2 0x00012345) ∧
  decodeTableWord 32 0x00390010 = some (.lookup 0x0039) ∧
  decodeTableWord 32 0x0000000A = some .reset ∧
  (decodeTableWord 32 0x01000300).map rowOf = some ⟨.wire, 0x00000000, 0xF00000E0⟩ ∧
  (decodeTableWord 32 0xF1000300).map rowOf = some ⟨.wire, 0x80000000, 0x800000E0⟩ ∧
  (decodeTableWord 32 0x01000060).map rowOf = some ⟨.wire, 0x00000040, 0x000000C0⟩

/-- A step runs the decoded instruction: where the next request decodes to `i`, the step is `exec i` on the state without
that request; where it decodes to none, the step is its refusal; where there is no request, the block keeps its state
(R334, notes/assumptions/2.md). -/
def Obligations.StepRunsDecoded : Prop :=
  ∀ (s : State),
    (s.requests = [] → step s = .next s) ∧
    ∀ (r : Request) (rest : List Request), s.requests = r :: rest →
      (∀ i, decode s.params r = .ok i → step s = exec i { s with requests := rest }) ∧
      (∀ e, decode s.params r = .error e → step s = .next (rejectRequest e { s with requests := rest }))

/-! ## The transmit name -/

/-- R105 and R33: SET_TX_NAME of a legal name runs to its end, after which the four TX_NAME registers hold that name, and no
other register, no slot, no event, no parameter and no request has changed. -/
def Obligations.SetTxNameSelectsName : Prop :=
  ∀ (s : State) (name : Bytes), Bytes.ValidName name →
    ∃ t, runAll (setTxName name) s = some t ∧ effectiveTxName t.regs = name ∧
      (∀ r, r ∉ [Reg.txName0, .txName1, .txName2, .txName3] → t.regs.get r = s.regs.get r) ∧
      t.slots = s.slots ∧ t.events = s.events ∧ t.params = s.params ∧ t.requests = s.requests

end
end

