-- ==== Sys2Proof/Laws/State.lean ====
section
/-! SUPPORT. The small lemmas of the state: one per field per update, each true by rfl. No later proof unfolds a record
update of `State` or `Slot`. -/

namespace Sys2Proof.Machine

@[simp] theorem finish_params (c : ResultCode) (d : ResultData) (s : State) : (finish c d s).params = s.params := rfl
@[simp] theorem finish_regs (c : ResultCode) (d : ResultData) (s : State) : (finish c d s).regs = s.regs := rfl
@[simp] theorem finish_slots (c : ResultCode) (d : ResultData) (s : State) : (finish c d s).slots = s.slots := rfl
@[simp] theorem finish_events (c : ResultCode) (d : ResultData) (s : State) : (finish c d s).events = s.events := rfl
@[simp] theorem finish_requests (c : ResultCode) (d : ResultData) (s : State) : (finish c d s).requests = s.requests := rfl
@[simp] theorem finish_result (c : ResultCode) (d : ResultData) (s : State) : (finish c d s).result = some ⟨c, d⟩ := rfl

@[simp] theorem count_params (k : Reg) (n : Nat) (s : State) : (count k n s).params = s.params := rfl
@[simp] theorem count_regs (k : Reg) (n : Nat) (s : State) : (count k n s).regs = s.regs.bump k n := rfl
@[simp] theorem count_slots (k : Reg) (n : Nat) (s : State) : (count k n s).slots = s.slots := rfl
@[simp] theorem count_events (k : Reg) (n : Nat) (s : State) : (count k n s).events = s.events := rfl
@[simp] theorem count_requests (k : Reg) (n : Nat) (s : State) : (count k n s).requests = s.requests := rfl
@[simp] theorem count_result (k : Reg) (n : Nat) (s : State) : (count k n s).result = s.result := rfl

@[simp] theorem emit_params (es : List Event) (s : State) : (emit es s).params = s.params := rfl
@[simp] theorem emit_regs (es : List Event) (s : State) : (emit es s).regs = s.regs := rfl
@[simp] theorem emit_slots (es : List Event) (s : State) : (emit es s).slots = s.slots := rfl
@[simp] theorem emit_events (es : List Event) (s : State) : (emit es s).events = s.events ++ es := rfl
@[simp] theorem emit_requests (es : List Event) (s : State) : (emit es s).requests = s.requests := rfl
@[simp] theorem emit_result (es : List Event) (s : State) : (emit es s).result = s.result := rfl

@[simp] theorem putSlot_params (i : Nat) (sl : Slot) (es : List Event) (s : State) : (putSlot i sl es s).params = s.params := rfl
@[simp] theorem putSlot_regs (i : Nat) (sl : Slot) (es : List Event) (s : State) : (putSlot i sl es s).regs = s.regs := rfl
@[simp] theorem putSlot_slots (i : Nat) (sl : Slot) (es : List Event) (s : State) : (putSlot i sl es s).slots = s.slots.set i sl := rfl
@[simp] theorem putSlot_events (i : Nat) (sl : Slot) (es : List Event) (s : State) : (putSlot i sl es s).events = s.events ++ es := rfl
@[simp] theorem putSlot_requests (i : Nat) (sl : Slot) (es : List Event) (s : State) : (putSlot i sl es s).requests = s.requests := rfl
@[simp] theorem putSlot_result (i : Nat) (sl : Slot) (es : List Event) (s : State) : (putSlot i sl es s).result = s.result := rfl

@[simp] theorem raiseNoSession_params (i : BitVec 8) (s : State) : (raiseNoSession i s).params = s.params := rfl
@[simp] theorem raiseNoSession_regs (i : BitVec 8) (s : State) : (raiseNoSession i s).regs = s.regs := rfl
@[simp] theorem raiseNoSession_slots (i : BitVec 8) (s : State) : (raiseNoSession i s).slots = s.slots := rfl
@[simp] theorem raiseNoSession_events (i : BitVec 8) (s : State) : (raiseNoSession i s).events = s.events := rfl
@[simp] theorem raiseNoSession_requests (i : BitVec 8) (s : State) : (raiseNoSession i s).requests = s.requests := rfl
@[simp] theorem raiseNoSession_result (i : BitVec 8) (s : State) : (raiseNoSession i s).result = some ⟨.noSession, .slotIndex i⟩ := rfl

@[simp] theorem setState_valid (r p : Bool) (i : Nat) (n : PlaybackState) (sl : Slot) :
    (setState r p i n sl).1.valid = sl.valid := rfl
@[simp] theorem setState_src (r p : Bool) (i : Nat) (n : PlaybackState) (sl : Slot) :
    (setState r p i n sl).1.src = sl.src := rfl
@[simp] theorem setState_name (r p : Bool) (i : Nat) (n : PlaybackState) (sl : Slot) :
    (setState r p i n sl).1.name = sl.name := rfl
@[simp] theorem setState_fmtValid (r p : Bool) (i : Nat) (n : PlaybackState) (sl : Slot) :
    (setState r p i n sl).1.fmtValid = sl.fmtValid := rfl
@[simp] theorem setState_fmt (r p : Bool) (i : Nat) (n : PlaybackState) (sl : Slot) :
    (setState r p i n sl).1.fmt = sl.fmt := rfl
@[simp] theorem setState_seqValid (r p : Bool) (i : Nat) (n : PlaybackState) (sl : Slot) :
    (setState r p i n sl).1.seqValid = sl.seqValid := rfl
@[simp] theorem setState_lastSeq (r p : Bool) (i : Nat) (n : PlaybackState) (sl : Slot) :
    (setState r p i n sl).1.lastSeq = sl.lastSeq := rfl
@[simp] theorem setState_fifo (r p : Bool) (i : Nat) (n : PlaybackState) (sl : Slot) :
    (setState r p i n sl).1.fifo = sl.fifo := rfl
@[simp] theorem setState_idleTicks (r p : Bool) (i : Nat) (n : PlaybackState) (sl : Slot) :
    (setState r p i n sl).1.idleTicks = sl.idleTicks := rfl
@[simp] theorem setState_state (r p : Bool) (i : Nat) (n : PlaybackState) (sl : Slot) :
    (setState r p i n sl).1.state = n := rfl
@[simp] theorem setState_prependPending (r p : Bool) (i : Nat) (n : PlaybackState) (sl : Slot) :
    (setState r p i n sl).1.prependPending = if n = .buffering then p else sl.prependPending := rfl
@[simp] theorem freeSlot_slot (r p : Bool) (i : Nat) (sl : Slot) : (freeSlot r p i sl).1 = Slot.cleared := rfl
@[simp] theorem freeSlot_events (r p : Bool) (i : Nat) (sl : Slot) :
    (freeSlot r p i sl).2 = (setState r p i .idle sl).2 := rfl

@[simp] theorem sessionReset_valid (r p : Bool) (i : Nat) (sl : Slot) :
    (sessionReset r p i sl).1.valid = sl.valid := rfl
@[simp] theorem sessionReset_src (r p : Bool) (i : Nat) (sl : Slot) :
    (sessionReset r p i sl).1.src = sl.src := rfl
@[simp] theorem sessionReset_name (r p : Bool) (i : Nat) (sl : Slot) :
    (sessionReset r p i sl).1.name = sl.name := rfl
@[simp] theorem sessionReset_state (r p : Bool) (i : Nat) (sl : Slot) :
    (sessionReset r p i sl).1.state = .idle := rfl
@[simp] theorem sessionReset_fmtValid (r p : Bool) (i : Nat) (sl : Slot) :
    (sessionReset r p i sl).1.fmtValid = false := rfl
@[simp] theorem sessionReset_fmt (r p : Bool) (i : Nat) (sl : Slot) :
    (sessionReset r p i sl).1.fmt = .cleared := rfl
@[simp] theorem sessionReset_seqValid (r p : Bool) (i : Nat) (sl : Slot) :
    (sessionReset r p i sl).1.seqValid = false := rfl
@[simp] theorem sessionReset_lastSeq (r p : Bool) (i : Nat) (sl : Slot) :
    (sessionReset r p i sl).1.lastSeq = 0 := rfl
@[simp] theorem sessionReset_fifo (r p : Bool) (i : Nat) (sl : Slot) :
    (sessionReset r p i sl).1.fifo = [] := rfl
@[simp] theorem sessionReset_prependPending (r p : Bool) (i : Nat) (sl : Slot) :
    (sessionReset r p i sl).1.prependPending = false := rfl
@[simp] theorem sessionReset_startedNotified (r p : Bool) (i : Nat) (sl : Slot) :
    (sessionReset r p i sl).1.startedNotified = false := rfl
@[simp] theorem sessionReset_idleTicks (r p : Bool) (i : Nat) (sl : Slot) :
    (sessionReset r p i sl).1.idleTicks = 0 := rfl

@[simp] theorem enterFormat_valid (r p : Bool) (i : Nat) (d : FormatDescriptor) (sl : Slot) :
    (enterFormat r p i d sl).1.valid = sl.valid := rfl
@[simp] theorem enterFormat_src (r p : Bool) (i : Nat) (d : FormatDescriptor) (sl : Slot) :
    (enterFormat r p i d sl).1.src = sl.src := rfl
@[simp] theorem enterFormat_name (r p : Bool) (i : Nat) (d : FormatDescriptor) (sl : Slot) :
    (enterFormat r p i d sl).1.name = sl.name := rfl
@[simp] theorem enterFormat_state (r p : Bool) (i : Nat) (d : FormatDescriptor) (sl : Slot) :
    (enterFormat r p i d sl).1.state = .buffering := rfl
@[simp] theorem enterFormat_fmtValid (r p : Bool) (i : Nat) (d : FormatDescriptor) (sl : Slot) :
    (enterFormat r p i d sl).1.fmtValid = true := rfl
@[simp] theorem enterFormat_fmt (r p : Bool) (i : Nat) (d : FormatDescriptor) (sl : Slot) :
    (enterFormat r p i d sl).1.fmt = d := rfl
@[simp] theorem enterFormat_seqValid (r p : Bool) (i : Nat) (d : FormatDescriptor) (sl : Slot) :
    (enterFormat r p i d sl).1.seqValid = sl.seqValid := rfl
@[simp] theorem enterFormat_lastSeq (r p : Bool) (i : Nat) (d : FormatDescriptor) (sl : Slot) :
    (enterFormat r p i d sl).1.lastSeq = sl.lastSeq := rfl
@[simp] theorem enterFormat_fifo (r p : Bool) (i : Nat) (d : FormatDescriptor) (sl : Slot) :
    (enterFormat r p i d sl).1.fifo = [] := rfl
@[simp] theorem enterFormat_prependPending (r p : Bool) (i : Nat) (d : FormatDescriptor) (sl : Slot) :
    (enterFormat r p i d sl).1.prependPending = p := rfl
@[simp] theorem enterFormat_idleTicks (r p : Bool) (i : Nat) (d : FormatDescriptor) (sl : Slot) :
    (enterFormat r p i d sl).1.idleTicks = sl.idleTicks := rfl

@[simp] theorem cleared_valid : Slot.cleared.valid = false := rfl
@[simp] theorem cleared_src : Slot.cleared.src = 0 := rfl
@[simp] theorem cleared_name : Slot.cleared.name = [] := rfl
@[simp] theorem cleared_state : Slot.cleared.state = .idle := rfl
@[simp] theorem cleared_fmtValid : Slot.cleared.fmtValid = false := rfl
@[simp] theorem cleared_fmt : Slot.cleared.fmt = .cleared := rfl
@[simp] theorem cleared_seqValid : Slot.cleared.seqValid = false := rfl
@[simp] theorem cleared_lastSeq : Slot.cleared.lastSeq = 0 := rfl
@[simp] theorem cleared_fifo : Slot.cleared.fifo = [] := rfl
@[simp] theorem cleared_prependPending : Slot.cleared.prependPending = false := rfl
@[simp] theorem cleared_startedNotified : Slot.cleared.startedNotified = false := rfl
@[simp] theorem cleared_idleTicks : Slot.cleared.idleTicks = 0 := rfl

@[simp] theorem powerOn_params (p : Params) : (State.powerOn p).params = p := rfl
@[simp] theorem powerOn_regs (p : Params) : (State.powerOn p).regs = Regs.reset p := rfl
@[simp] theorem powerOn_slots (p : Params) : (State.powerOn p).slots = List.replicate p.nSessions Slot.cleared := rfl
@[simp] theorem powerOn_events (p : Params) : (State.powerOn p).events = [] := rfl
@[simp] theorem powerOn_requests (p : Params) : (State.powerOn p).requests = [] := rfl
@[simp] theorem powerOn_result (p : Params) : (State.powerOn p).result = none := rfl

end Sys2Proof.Machine
end

