-- ==== Sys2Proof/Laws/Bytes.lean ====
section
/-! SUPPORT. Fields and byte strings: splitting a value into fields and joining them again is the identity (R9, R80), and
the laws of names (R32, R89). -/

namespace Sys2Proof

/-! ## Fields -/

theorem le32_bits (v : Word32) :
    (v.extractLsb' 24 8 ++ v.extractLsb' 16 8 ++ v.extractLsb' 8 8 ++ v.extractLsb' 0 8 : BitVec (8 + 8 + 8 + 8)) = v := by
  apply BitVec.eq_of_getLsbD_eq
  intro i hi
  simp only [BitVec.getLsbD_append, BitVec.getLsbD_extractLsb']
  interval_cases i <;> simp

@[simp] theorem subProtocolOf_formatSrByte (sub : BitVec 3) (sr : BitVec 5) : subProtocolOf (formatSrByte sub sr) = sub := by
  apply BitVec.eq_of_getLsbD_eq
  intro i hi
  simp only [subProtocolOf, formatSrByte, BitVec.getLsbD_append, BitVec.getLsbD_extractLsb']
  interval_cases i <;> simp

@[simp] theorem srIndexOf_formatSrByte (sub : BitVec 3) (sr : BitVec 5) : srIndexOf (formatSrByte sub sr) = sr := by
  apply BitVec.eq_of_getLsbD_eq
  intro i hi
  simp only [srIndexOf, formatSrByte, BitVec.getLsbD_append, BitVec.getLsbD_extractLsb']
  interval_cases i <;> simp

@[simp] theorem codecOf_formatBitByte (c : BitVec 4) (r : BitVec 1) (d : BitVec 3) : codecOf (formatBitByte c r d) = c := by
  apply BitVec.eq_of_getLsbD_eq
  intro i hi
  simp only [codecOf, formatBitByte, BitVec.getLsbD_append, BitVec.getLsbD_extractLsb']
  interval_cases i <;> simp

@[simp] theorem reservedOf_formatBitByte (c : BitVec 4) (r : BitVec 1) (d : BitVec 3) :
    reservedOf (formatBitByte c r d) = r := by
  apply BitVec.eq_of_getLsbD_eq
  intro i hi
  simp only [reservedOf, formatBitByte, BitVec.getLsbD_append, BitVec.getLsbD_extractLsb']
  interval_cases i; simp

@[simp] theorem dataTypeOf_formatBitByte (c : BitVec 4) (r : BitVec 1) (d : BitVec 3) :
    dataTypeOf (formatBitByte c r d) = d := by
  apply BitVec.eq_of_getLsbD_eq
  intro i hi
  simp only [dataTypeOf, formatBitByte, BitVec.getLsbD_append, BitVec.getLsbD_extractLsb']
  interval_cases i <;> simp

/-- Byte 4 is the join of its two fields. -/
@[simp] theorem formatSrByte_fields (b : Byte) : formatSrByte (subProtocolOf b) (srIndexOf b) = b := by
  apply BitVec.eq_of_getLsbD_eq
  intro i hi
  simp only [formatSrByte, subProtocolOf, srIndexOf, BitVec.getLsbD_append, BitVec.getLsbD_extractLsb']
  interval_cases i <;> simp

/-- Byte 7 is the join of its three fields. -/
@[simp] theorem formatBitByte_fields (b : Byte) : formatBitByte (codecOf b) (reservedOf b) (dataTypeOf b) = b := by
  apply BitVec.eq_of_getLsbD_eq
  intro i hi
  simp only [formatBitByte, codecOf, reservedOf, dataTypeOf, BitVec.getLsbD_append, BitVec.getLsbD_extractLsb']
  interval_cases i <;> simp

@[simp] theorem opcOf_opWord (o i : BitVec 8) (a : BitVec 16) : opcOf (opWord o i a) = o := by
  apply BitVec.eq_of_getLsbD_eq
  intro k hk
  simp only [opcOf, opWord, BitVec.getLsbD_append, BitVec.getLsbD_extractLsb']
  interval_cases k <;> simp

@[simp] theorem idxOf_opWord (o i : BitVec 8) (a : BitVec 16) : idxOf (opWord o i a) = i := by
  apply BitVec.eq_of_getLsbD_eq
  intro k hk
  simp only [idxOf, opWord, BitVec.getLsbD_append, BitVec.getLsbD_extractLsb']
  interval_cases k <;> simp

@[simp] theorem argOf_opWord (o i : BitVec 8) (a : BitVec 16) : argOf (opWord o i a) = a := by
  apply BitVec.eq_of_getLsbD_eq
  intro k hk
  simp only [argOf, opWord, BitVec.getLsbD_append, BitVec.getLsbD_extractLsb']
  interval_cases k <;> simp

/-! ## Byte strings -/

@[simp] theorem zeros_length (n : Nat) : (zeros n).length = n := by simp [zeros]

@[simp] theorem le32bytes_length (v : Word32) : (le32bytes v).length = 4 := rfl

/-- A list of sixteen bytes, written out. -/
theorem length_sixteen {l : Bytes} (h : l.length = 16) :
    ∃ a0 a1 a2 a3 a4 a5 a6 a7 a8 a9 a10 a11 a12 a13 a14 a15,
      l = [a0, a1, a2, a3, a4, a5, a6, a7, a8, a9, a10, a11, a12, a13, a14, a15] := by
  iterate 16
    obtain _ | ⟨_, l⟩ := l
    · simp at h
  obtain _ | ⟨_, l⟩ := l
  · exact ⟨_, _, _, _, _, _, _, _, _, _, _, _, _, _, _, _, rfl⟩
  · simp at h

/-- What a datagram of at least 28 bytes is: eight bytes, the name field, four counter bytes, and the payload (R80). -/
theorem datagram_split {dg : Bytes} (h : 28 ≤ dg.length) :
    ∃ m0 m1 m2 m3 b4 b5 b6 b7 name c0 c1 c2 c3 pl, name.length = 16 ∧
      dg = [m0, m1, m2, m3, b4, b5, b6, b7] ++ name ++ [c0, c1, c2, c3] ++ pl := by
  match dg, h with
  | m0 :: m1 :: m2 :: m3 :: b4 :: b5 :: b6 :: b7 :: rest, h =>
    have hlen : 20 ≤ rest.length := by simp at h; omega
    match htail : rest.drop 16 with
    | c0 :: c1 :: c2 :: c3 :: pl =>
      refine ⟨m0, m1, m2, m3, b4, b5, b6, b7, rest.take 16, c0, c1, c2, c3, pl, by simp; omega, ?_⟩
      have hr : rest.take 16 ++ rest.drop 16 = rest := List.take_append_drop 16 rest
      rw [htail] at hr
      simp only [List.cons_append, List.nil_append, List.append_assoc] at hr ⊢
      rw [hr]
    | [] | [_] | [_, _] | [_, _, _] =>
      have := congrArg List.length htail
      simp at this
      omega

/-! ## Names -/

theorem mem_takeWhile_ne_zero {l : Bytes} : (0 : Byte) ∉ l.takeWhile (· != 0) := by
  intro h
  have := List.mem_takeWhile_imp h
  simp at this

/-- The effective part of a name field is a valid name (R89). -/
theorem untilNul_validName {l : Bytes} (h : l.length ≤ 16) : Bytes.ValidName (untilNul l) :=
  ⟨Nat.le_trans (List.takeWhile_prefix _).length_le h, mem_takeWhile_ne_zero⟩

/-- Padding a valid name and cutting it at the first 0x00 gives the name back (R89). -/
theorem untilNul_padName {n : Bytes} (h : Bytes.ValidName n) : untilNul (padName n) = n := by
  unfold untilNul padName
  rw [List.takeWhile_append_of_pos]
  · cases hk : 16 - n.length <;> simp [zeros, List.replicate_succ]
  · intro a ha
    simp only [bne_iff_ne, ne_eq]
    rintro rfl
    exact h.2 ha

theorem padName_length {n : Bytes} (h : n.length ≤ 16) : (padName n).length = 16 := by
  simp [padName]; omega

end Sys2Proof

namespace Sys2Proof.Machine

@[simp] theorem nameField_length (a b c d : Word32) : (nameField a b c d).length = 16 := rfl

/-- The effective filter name is a valid name (R32). -/
theorem filterName_validName (r : Regs) : Bytes.ValidName (filterName r) :=
  untilNul_validName (by simp)

/-- The effective transmit name is a valid name, so TX_PACKET never meets ENCODE_BAD_NAME (R33, R270). -/
theorem txName_validName (r : Regs) : Bytes.ValidName (txName r) :=
  untilNul_validName (by simp)

end Sys2Proof.Machine
end

