-- ==== Sys2Proof/Laws/Codec.lean ====
section
/-! SUPPORT. The laws of the packet codec: what the structural checks say, what DECODE reads from a datagram that was laid
out field by field, and that every datagram DECODE accepts is laid out so (spec R80, R140, R141). -/

namespace Sys2Proof

/-- The structural checks pass exactly on a datagram of 28 to MAX_PACKET_SIZE bytes with the magic (R141). -/
theorem structureError_eq_none_iff (m : Nat) (dg : Bytes) :
    structureError m dg = none ↔ 28 ≤ dg.length ∧ dg.length ≤ m ∧ memRead dg 0 4 = magic := by
  unfold structureError
  split_ifs <;> simp_all

/-- The bytes of a counter, read back (R9). -/
theorem le32_of_bytes (pre post : Bytes) (v : Word32) : le32 (pre ++ le32bytes v ++ post) pre.length = v := by
  simp only [le32, byteAt, le32bytes, List.getD_eq_getElem?_getD, List.append_assoc, List.getElem?_append_right,
    Nat.le_refl, Nat.le_add_right, Nat.add_sub_cancel_left, Nat.sub_self]
  exact le32_bits v

/-- Four bytes, read as a word and written again, are the same four bytes (R9). -/
theorem le32bytes_of_bytes (b0 b1 b2 b3 : Byte) : le32bytes (b3 ++ b2 ++ b1 ++ b0 : BitVec (8 + 8 + 8 + 8)) = [b0, b1, b2, b3] := by
  simp only [le32bytes, List.cons.injEq, and_true]
  refine ⟨?_, ?_, ?_, ?_⟩ <;>
  · apply BitVec.eq_of_getLsbD_eq
    intro i hi
    simp only [BitVec.getLsbD_append, BitVec.getLsbD_extractLsb']
    interval_cases i <;> simp

section Layout

variable (sub : BitVec 3) (codec : BitVec 4) (f : WireFields) (field : Bytes) (ctr : Word32) (pl : Bytes)

@[simp] theorem datagramBytes_length : (datagramBytes sub codec f field ctr pl).length = 12 + field.length + pl.length := by
  simp [datagramBytes, magic]; omega

@[simp] theorem memRead_magic_datagramBytes : memRead (datagramBytes sub codec f field ctr pl) 0 4 = magic := by
  simp [datagramBytes, memRead, magic]

@[simp] theorem byteAt_4_datagramBytes : byteAt (datagramBytes sub codec f field ctr pl) 4 = formatSrByte sub f.srIndex := by
  simp [datagramBytes, byteAt, magic]

@[simp] theorem byteAt_5_datagramBytes : byteAt (datagramBytes sub codec f field ctr pl) 5 = f.nbsMinus1 := by
  simp [datagramBytes, byteAt, magic]

@[simp] theorem byteAt_6_datagramBytes : byteAt (datagramBytes sub codec f field ctr pl) 6 = f.nbcMinus1 := by
  simp [datagramBytes, byteAt, magic]

@[simp] theorem byteAt_7_datagramBytes :
    byteAt (datagramBytes sub codec f field ctr pl) 7 = formatBitByte codec f.reserved f.dataType := by
  simp [datagramBytes, byteAt, magic]

variable {field}

theorem memRead_name_datagramBytes (h : field.length = 16) : memRead (datagramBytes sub codec f field ctr pl) 8 16 = field := by
  simp [datagramBytes, memRead, magic, ← h]

theorem le32_counter_datagramBytes (h : field.length = 16) : le32 (datagramBytes sub codec f field ctr pl) 24 = ctr := by
  have := le32_of_bytes
    (magic ++ [formatSrByte sub f.srIndex, f.nbsMinus1, f.nbcMinus1, formatBitByte codec f.reserved f.dataType] ++ field) pl ctr
  simpa [datagramBytes, magic, h] using this

theorem drop_datagramBytes (h : field.length = 16) : (datagramBytes sub codec f field ctr pl).drop 28 = pl := by
  rw [datagramBytes, List.drop_append_of_le_length (by simp [magic, h]), List.drop_of_length_le (by simp [magic, h])]
  rfl

theorem wireFieldsOf_datagramBytes : wireFieldsOf (datagramBytes sub codec f field ctr pl) = f := by
  simp [wireFieldsOf]

theorem wireBodyOf_datagramBytes (src : SrcAddr) (h : field.length = 16) :
    wireBodyOf src (datagramBytes sub codec f field ctr pl) = ⟨src, field, ctr, pl⟩ := by
  simp [wireBodyOf, memRead_name_datagramBytes _ _ _ _ _ h, le32_counter_datagramBytes _ _ _ _ _ h,
    drop_datagramBytes _ _ _ _ _ h]

theorem structureError_datagramBytes {m : Nat} (h : field.length = 16) (hm : 28 + pl.length ≤ m) :
    structureError m (datagramBytes sub codec f field ctr pl) = none := by
  simp [structureError_eq_none_iff, h]; omega

/-- Decoding a datagram that is laid out field by field gives the wire row of its sub-protocol and codec (R92). -/
theorem decodeDatagram_datagramBytes {m : Nat} (src : SrcAddr) (h : field.length = 16) (hm : 28 + pl.length ≤ m) :
    decodeDatagram m src (datagramBytes sub codec f field ctr pl) = .ok (wireInstr sub codec f ⟨src, field, ctr, pl⟩) := by
  simp [decodeDatagram, structureError_datagramBytes _ _ _ _ _ h hm, wireFieldsOf_datagramBytes,
    wireBodyOf_datagramBytes _ _ _ _ _ _ h]

end Layout

/-- Every datagram of at least 28 bytes with the magic is laid out from its own fields (R80). -/
theorem datagramBytes_of_fields {dg : Bytes} (h : 28 ≤ dg.length) (hm : memRead dg 0 4 = magic) :
    datagramBytes (subProtocolOf (byteAt dg 4)) (codecOf (byteAt dg 7)) (wireFieldsOf dg) (memRead dg 8 16) (le32 dg 24)
      (dg.drop 28) = dg := by
  obtain ⟨m0, m1, m2, m3, b4, b5, b6, b7, name, c0, c1, c2, c3, pl, hn, rfl⟩ := datagram_split h
  obtain ⟨a0, a1, a2, a3, a4, a5, a6, a7, a8, a9, a10, a11, a12, a13, a14, a15, rfl⟩ := length_sixteen hn
  have hmagic : [m0, m1, m2, m3] = magic := by simpa [memRead] using hm
  have hle := le32bytes_of_bytes c0 c1 c2 c3
  simp [datagramBytes, ← hmagic, wireFieldsOf, byteAt, memRead, le32, hle]

theorem memRead_length (dg : Bytes) (off n : Nat) : (memRead dg off n).length = min n (dg.length - off) := by
  simp [memRead]

end Sys2Proof

namespace Sys2Proof.Machine

/-- DECODE of a datagram that is laid out field by field (R141). -/
theorem packetDecode_datagramBytes {m : Nat} (sub : BitVec 3) (codec : BitVec 4) (f : WireFields) {field : Bytes}
    (ctr : Word32) (pl : Bytes) (h : field.length = 16) (hm : 28 + pl.length ≤ m) :
    packetDecode m (datagramBytes sub codec f field ctr pl) =
      .ok (⟨sub, f.srIndex, f.nbsMinus1, f.nbcMinus1, f.dataType, f.reserved, codec, untilNul field, ctr⟩, pl) := by
  simp [packetDecode, structureError_datagramBytes _ _ _ _ _ h hm, headerOf, memRead_name_datagramBytes _ _ _ _ _ h,
    le32_counter_datagramBytes _ _ _ _ _ h, drop_datagramBytes _ _ _ _ _ h]

/-- DECODE succeeds exactly when the structural checks pass, and then answers the header and the payload (R141). -/
theorem packetDecode_eq_ok_iff {m : Nat} {dg : Bytes} {h : Header} {pl : Bytes} :
    packetDecode m dg = .ok (h, pl) ↔ structureError m dg = none ∧ h = headerOf dg ∧ pl = dg.drop 28 := by
  unfold packetDecode
  cases structureError m dg <;> simp [eq_comm]

theorem packetDecode_eq_error_iff {m : Nat} {dg : Bytes} {e : DecodeError} :
    packetDecode m dg = .error e ↔ structureError m dg = some e := by
  unfold packetDecode
  cases structureError m dg <;> simp

/-- The name DECODE answers is valid (R142). -/
theorem headerOf_validName (dg : Bytes) : Bytes.ValidName (headerOf dg).name := by
  refine untilNul_validName ?_
  rw [memRead_length]; omega

/-- The error of a datagram is one of the three MALFORMED codes (R141). -/
theorem structureError_cases {m : Nat} {dg : Bytes} {e : DecodeError} (h : structureError m dg = some e) :
    e = .truncated ∨ e = .oversized ∨ e = .badMagic := by
  unfold structureError at h
  split_ifs at h <;> simp_all

/-- ENCODE succeeds exactly on a valid name and a datagram within MAX_PACKET_SIZE (R140). -/
theorem packetEncode_eq_ok_iff {m : Nat} {h : Header} {pl dg : Bytes} :
    packetEncode m h pl = .ok dg ↔
      Bytes.ValidName h.name ∧ 28 + pl.length ≤ m ∧
        dg = datagramBytes h.subProtocol h.codec (headerFields h) (padName h.name) h.frameCounter pl := by
  unfold packetEncode
  constructor
  · split_ifs with h1 h2
    · nofun
    · nofun
    · intro h
      rw [not_or, not_lt] at h1
      exact ⟨h1, Nat.le_of_not_lt h2, (Except.ok.inj h).symm⟩
  · rintro ⟨hn, hm, rfl⟩
    rw [if_neg (not_or.2 ⟨Nat.not_lt.2 hn.1, hn.2⟩), if_neg (Nat.not_lt.2 hm)]

/-- ENCODE then DECODE is the identity (R146). -/
theorem packetDecode_packetEncode {m : Nat} {h : Header} {pl dg : Bytes} (he : packetEncode m h pl = .ok dg) :
    packetDecode m dg = .ok (h, pl) := by
  obtain ⟨hn, hm, rfl⟩ := packetEncode_eq_ok_iff.1 he
  rw [packetDecode_datagramBytes _ _ _ _ _ (padName_length hn.1) hm, untilNul_padName hn]
  rfl

end Sys2Proof.Machine
end

