-- ==== Sys2Proof/Laws/Lookup.lean ====
section
/-! SUPPORT. What a format lookup answers, in the arithmetic of R86 and R120, and the bounds of a frame's size (R170). -/

namespace Sys2Proof.Machine

/-- FC[7:3] as a number (R86). -/
theorem toNat_fcSr (fc : BitVec 16) : (fcSrIndex fc).toNat = fc.toNat / 8 % 32 := by
  simp [fcSrIndex, BitVec.extractLsb', Nat.shiftRight_eq_div_pow]
theorem toNat_fcDt (fc : BitVec 16) : (fcDataType fc).toNat = fc.toNat % 8 := by
  simp [fcDataType, BitVec.extractLsb']
theorem toNat_fcNbc (fc : BitVec 16) : (fcNbc fc).toNat = fc.toNat / 256 := by
  simp [fcNbc, BitVec.extractLsb', Nat.shiftRight_eq_div_pow]; omega

theorem depthOf_some_iff (dt : BitVec 3) (b : BitDepth) : depthOfDataType dt = some b ↔ dt.toNat ≤ 3 ∧ b.bits = 8 * (dt.toNat + 1) := by
  revert dt b
  have : ∀ dt : BitVec 3, ∀ b ∈ [BitDepth.d8, .d16, .d24, .d32], depthOfDataType dt = some b ↔ dt.toNat ≤ 3 ∧ b.bits = 8 * (dt.toNat + 1) := by decide
  intro dt b
  exact this dt b (by cases b <;> simp)

theorem depthOf_none_iff (dt : BitVec 3) : depthOfDataType dt = none ↔ 3 < dt.toNat := by
  revert dt; decide

/-- What LOOKUP answers, in the arithmetic of R120. -/
theorem lookup_ok_iff (p : Params) (fc : BitVec 16) (d : FormatDescriptor) : lookup p fc = .ok d ↔ Maps p fc.toNat d := by
  unfold lookup Maps rateOf
  rw [toNat_fcSr]
  cases hr : (p.srTable[fc.toNat / 8 % 32]?).join with
  | none => simp
  | some hz =>
    cases hd : depthOfDataType (fcDataType fc) with
    | none =>
      rw [depthOf_none_iff, toNat_fcDt] at hd
      simp; omega
    | some b =>
      rw [depthOf_some_iff, toNat_fcDt] at hd
      obtain ⟨h3, hb⟩ := hd
      rcases d with ⟨r, bb, c, o⟩
      have hinj : bb.bits = b.bits ↔ bb = b := by cases bb <;> cases b <;> simp [BitDepth.bits]
      have ho : o = .le := by cases o; rfl
      simp [toNat_fcNbc, ho, ← hb, hinj, h3]
      tauto

theorem lookup_rate_iff (p : Params) (fc : BitVec 16) : lookup p fc = .error .rate ↔ UnmappedRate p fc.toNat := by
  unfold lookup UnmappedRate rateOf
  rw [toNat_fcSr]
  cases hr : (p.srTable[fc.toNat / 8 % 32]?).join with
  | none => simp
  | some hz => cases hd : depthOfDataType (fcDataType fc) <;> simp

theorem lookup_depth_iff (p : Params) (fc : BitVec 16) : lookup p fc = .error .depth ↔ UnmappedDepth p fc.toNat := by
  unfold lookup UnmappedDepth rateOf
  rw [toNat_fcSr]
  cases hr : (p.srTable[fc.toNat / 8 % 32]?).join with
  | none => simp
  | some hz =>
    cases hd : depthOfDataType (fcDataType fc) with
    | none =>
      rw [depthOf_none_iff, toNat_fcDt] at hd
      simp [hd]
    | some b =>
      rw [depthOf_some_iff, toNat_fcDt] at hd
      simp; omega

theorem maps_bpf {p : Params} {fc : Nat} {d} (h : Maps p fc d) : 1 ≤ bpf d := by
  obtain ⟨-, h3, hb, hc, -⟩ := h
  unfold bpf
  rw [hb, hc]
  have : 1 ≤ 8 * (fc % 8 + 1) / 8 := by omega
  exact Nat.mul_pos (by omega) this

theorem maps_bpf_le {p : Params} {fc : Nat} {d} (h : Maps p fc d) (hf : fc < 65536) : bpf d ≤ 1024 := by
  obtain ⟨-, h3, hb, hc, -⟩ := h
  unfold bpf
  rw [hb, hc]
  calc _ ≤ 256 * 4 := Nat.mul_le_mul (by omega) (by omega)
    _ = 1024 := rfl

end Sys2Proof.Machine
end

