-- ==== Sys2Proof/Laws/Playback.lean ====
section
/-! SUPPORT. The laws of the playback buffer: what a push leaves (spec 43_playback_buffer.md R191, R193, R194), what a
transition does (R197, R204 to R207), and that each procedure keeps the invariants of a slot (R38, R208 a). -/

namespace Sys2Proof.Machine

/-! ## The queue -/

theorem newest_of_le {n : Nat} {fs : List Frame} (h : fs.length ≤ n) : newest n fs = fs := by
  simp [newest, Nat.sub_eq_zero_of_le h]

theorem newest_length (n : Nat) (fs : List Frame) : (newest n fs).length = min n fs.length := by
  simp [newest]; omega

theorem mem_of_mem_newest {n : Nat} {fs : List Frame} {f : Frame} (h : f ∈ newest n fs) : f ∈ fs := List.mem_of_mem_drop h

/-- The newest frames of a queue that was itself cut to its newest frames. -/
theorem newest_newest_append (n : Nat) (q fs : List Frame) : newest n (newest n q ++ fs) = newest n (q ++ fs) := by
  simp only [newest, List.length_append, List.length_drop]
  by_cases h : q.length ≤ n
  · simp [Nat.sub_eq_zero_of_le h]
  · have hd : (q.drop (q.length - n) ++ fs) = (q ++ fs).drop (q.length - n) := by
      rw [List.drop_append_of_le_length (by omega)]
    rw [hd, List.drop_drop]
    congr 1
    omega

theorem fifoPush_eq {cap : Nat} {q : List Frame} (hcap : 1 ≤ cap) (hq : q.length ≤ cap) (n : Nat) (f : Frame) :
    fifoPush cap (q, n) f = (newest cap (q ++ [f]), n + (q.length + 1 - cap)) := by
  unfold fifoPush
  split_ifs with h
  · simp only [newest, List.length_append, List.length_singleton] at *
    rw [List.drop_append_of_le_length (by omega), h]
    simp
  · simp only at h
    rw [newest_of_le (by simp; omega), Nat.sub_eq_zero_of_le (by omega), Nat.add_zero]

/-- The closed form of a push (R194): the newest frames stay, up to the capacity, and the rest are dropped. -/
theorem pushFrames_eq {cap : Nat} (hcap : 1 ≤ cap) (fs : List Frame) :
    ∀ (q : List Frame) (n : Nat), q.length ≤ cap →
      pushFrames cap fs (q, n) = (newest cap (q ++ fs), n + (q.length + fs.length - cap)) := by
  induction fs with
  | nil =>
    intro q n hq
    simp [pushFrames, newest_of_le hq, Nat.sub_eq_zero_of_le hq]
  | cons f fs ih =>
    intro q n hq
    have := ih (newest cap (q ++ [f])) (n + (q.length + 1 - cap)) (by rw [newest_length]; omega)
    simp only [pushFrames, List.foldl_cons] at this ⊢
    rw [fifoPush_eq hcap hq, this, newest_newest_append, newest_length]
    simp only [List.append_assoc, List.singleton_append, List.length_append, List.length_cons, List.length_nil,
      Prod.mk.injEq, true_and]
    omega

/-- Pushing `m` silence frames at once is pushing them one by one (R193, R194). -/
theorem pushSilence_eq {cap : Nat} (hcap : 1 ≤ cap) (z : Frame) (m : Nat) {q : List Frame} (n : Nat) (hq : q.length ≤ cap) :
    pushSilence cap z m (q, n) = pushFrames cap (List.replicate m z) (q, n) := by
  rw [pushFrames_eq hcap _ q n hq]
  simp only [pushSilence, List.length_replicate, Prod.mk.injEq, and_true]
  by_cases hm : m ≤ cap
  · rw [Nat.min_eq_left hm]
  · rw [Nat.min_eq_right (by omega)]
    have key : ∀ k, cap ≤ k → newest cap (q ++ List.replicate k z) = List.replicate cap z := by
      intro k hk
      simp only [newest, List.length_append, List.length_replicate]
      rw [List.drop_append, List.drop_of_length_le (by omega), List.nil_append, List.drop_replicate]
      congr 1; omega
    rw [key cap le_rfl, key m (by omega)]

theorem pushSilence_length (cap : Nat) (z : Frame) (m : Nat) (q : List Frame × Nat) :
    (pushSilence cap z m q).1.length ≤ cap := by
  simp [pushSilence, newest_length]

/-- What `push_block` leaves in the queue (R200): the prepended silence, the gap silence and the packet's frames, in that
order, cut to the newest that fit; the rest are the frames dropped. -/
theorem pushedQueue_eq {cap : Nat} (hcap : 1 ≤ cap) (thr : Nat) (frames : List Frame) (fill : Nat) {sl : Slot}
    (hq : sl.fifo.length ≤ cap) :
    pushedQueue cap thr frames fill sl =
      (newest cap (sl.fifo ++ (List.replicate (if sl.prependPending then thr else 0) (silenceFrame sl.fmt) ++
          List.replicate fill (silenceFrame sl.fmt) ++ frames)),
        sl.fifo.length + ((if sl.prependPending then thr else 0) + fill + frames.length) - cap) := by
  have hpre : (if sl.prependPending = true then pushSilence cap (silenceFrame sl.fmt) thr (sl.fifo, 0) else (sl.fifo, 0)) =
      pushFrames cap (List.replicate (if sl.prependPending then thr else 0) (silenceFrame sl.fmt)) (sl.fifo, 0) := by
    split_ifs
    · exact pushSilence_eq hcap _ _ _ hq
    · rfl
  have hlen : ∀ fs, (pushFrames cap fs (sl.fifo, 0)).1.length ≤ cap := by
    intro fs
    rw [pushFrames_eq hcap fs _ _ hq, newest_length]
    omega
  have hjoin : ∀ fs gs : List Frame, pushFrames cap gs (pushFrames cap fs (sl.fifo, 0)) = pushFrames cap (fs ++ gs) (sl.fifo, 0) := by
    intro fs gs
    simp [pushFrames, List.foldl_append]
  simp only [pushedQueue]
  rw [hpre]
  rw [← Prod.mk.eta (p := pushFrames cap (List.replicate (if sl.prependPending then thr else 0) (silenceFrame sl.fmt)) (sl.fifo, 0)),
    pushSilence_eq hcap _ _ _ (hlen _), Prod.mk.eta, hjoin, hjoin, pushFrames_eq hcap _ _ _ hq]
  simp

theorem silenceFrame_length (d : FormatDescriptor) : (silenceFrame d).length = bpf d := by simp [silenceFrame, zeros]

theorem fifoPop_fst (fs : List Frame) (k : Nat) : (fifoPop fs k).1 = fs.take k := rfl

theorem fifoPop_snd (fs : List Frame) (k : Nat) : (fifoPop fs k).2 = fs.drop k := rfl

/-! ## Transitions -/

/-- The events of a transition (R201): STOPPED on leaving Playing, STARTED on entering it for the first time, or on every
entry where the parameter says so. -/
theorem setState_events (r p : Bool) (i : Nat) (new : PlaybackState) (sl : Slot) :
    (setState r p i new sl).2 =
      (if sl.state = .playing ∧ new ≠ .playing then [Event.stopped i] else []) ++
        (if new = .playing ∧ sl.state ≠ .playing ∧ (sl.startedNotified = false ∨ r = true) then [Event.started i] else []) := by
  simp only [setState, and_assoc]

theorem setState_prepend (r p : Bool) (i : Nat) (new : PlaybackState) (sl : Slot) :
    (setState r p i new sl).1.prependPending = if new = .buffering then p else sl.prependPending := rfl

theorem teardown_playing {r p : Bool} {i : Nat} {sl : Slot} (h : sl.state = .playing) :
    teardown r p i sl = ({ sl with state := .draining }, [.stopped i]) := by
  simp [teardown, h, setState]

theorem teardown_draining {r p : Bool} {i : Nat} {sl : Slot} (h : sl.state = .draining) : teardown r p i sl = (sl, []) := by
  simp [teardown, h]

theorem freeSlot_eq (r p : Bool) (i : Nat) (sl : Slot) :
    freeSlot r p i sl = (.cleared, if sl.state = .playing then [.stopped i] else []) := by
  simp [freeSlot, setState_events]

theorem teardown_other {r p : Bool} {i : Nat} {sl : Slot} (h : sl.state = .idle ∨ sl.state = .buffering) :
    teardown r p i sl = (.cleared, []) := by
  rcases h with h | h <;> simp [teardown, h, freeSlot_eq]

/-- What a teardown does, in one equation (R204). -/
theorem teardown_eq (r p : Bool) (i : Nat) (sl : Slot) :
    teardown r p i sl =
      match sl.state with
      | .playing => ({ sl with state := .draining }, [.stopped i])
      | .draining => (sl, [])
      | .idle => (.cleared, [])
      | .buffering => (.cleared, []) := by
  cases h : sl.state
  · exact teardown_other (.inl h)
  · exact teardown_other (.inr h)
  · exact teardown_playing h
  · exact teardown_draining h

/-! ## The invariants of a slot -/

theorem validName_nil : Bytes.ValidName [] := ⟨Nat.zero_le _, List.not_mem_nil⟩

theorem slotInv_cleared (p : Params) : SlotInv p .cleared := by
  refine ⟨Nat.zero_le _, by decide, by decide, nofun, by decide, validName_nil, Nat.two_pow_pos _, by decide, fun _ => rfl⟩

/-- A session's slot keeps its invariants when only its state and its queue change as a transition between the
non-Idle states allows. -/
theorem slotInv_move {p : Params} {sl : Slot} (h : SlotInv p sl) (hv : sl.valid = true) (hs : sl.state ≠ .idle)
    {new : PlaybackState} (hn : new ≠ .idle) {fifo : List Frame} (hl : fifo.length ≤ p.bufCapFrames)
    (hf : ∀ f ∈ fifo, f.length = bpf sl.fmt) {pre : Bool} (hp : pre = true → new = .buffering) {note : Bool}
    {seq : Bool} {last ticks : Word32} :
    SlotInv p { sl with
      state := new, fifo := fifo, prependPending := pre, startedNotified := note, seqValid := seq, lastSeq := last
      idleTicks := ticks } := by
  obtain ⟨-, hidle, -, -, hwf, hname, hsrc, -, -⟩ := h
  have hfv : sl.fmtValid = true := by
    by_contra hc
    exact hs ((hidle hv).2 (by simpa using hc))
  refine ⟨hl, ?_, ?_, hf, hwf, hname, hsrc, hp, ?_⟩
  · simp [hfv, hn]
  · simp [hfv]
  · simp [hv]

theorem slotInv_teardown {p : Params} {sl : Slot} (h : SlotInv p sl) (hv : sl.valid = true) (r q : Bool) (i : Nat) :
    SlotInv p (teardown r q i sl).1 := by
  rw [teardown_eq]
  cases hs : sl.state
  · exact slotInv_cleared p
  · exact slotInv_cleared p
  · refine slotInv_move h hv (by simp [hs]) (by simp) h.1 h.2.2.2.1 ?_
    intro hp
    have := h.2.2.2.2.2.2.2.1 hp
    simp [hs] at this
  · exact h

theorem slotInv_sessionReset {p : Params} {sl : Slot} (h : SlotInv p sl) (hv : sl.valid = true) (r q : Bool) (i : Nat) :
    SlotInv p (sessionReset r q i sl).1 := by
  obtain ⟨-, -, -, -, -, hname, hsrc, -, -⟩ := h
  refine ⟨Nat.zero_le _, ?_, ?_, nofun, by simp [sessionReset], hname, hsrc, by simp [sessionReset], ?_⟩
  · simp [sessionReset, setState]
  · simp [sessionReset]
  · simp [sessionReset, hv]

theorem slotInv_enterFormat {p : Params} {sl : Slot} (hname : Bytes.ValidName sl.name) (hsrc : SrcAddr.WF p sl.src)
    (hv : sl.valid = true) {d : FormatDescriptor} (hd : FormatDescriptor.WF d) (r q : Bool) (i : Nat) :
    SlotInv p (enterFormat r q i d sl).1 := by
  refine ⟨Nat.zero_le _, ?_, ?_, nofun, fun _ => hd, hname, hsrc, fun _ => rfl, ?_⟩
  · simp [enterFormat, setState]
  · simp [enterFormat]
  · simp [enterFormat, hv]

/-- The state after `push_block`: a Buffering session that reached its threshold plays, every other keeps its state. -/
theorem pushBlock_slot (p : Params) (r : Regs) (i : Nat) (frames : List Frame) (fill : Nat) (sl : Slot) :
    (pushBlock p r i frames fill sl).1 =
      let q := (pushedQueue p.bufCapFrames (threshold p r sl.fmt) frames fill sl).1
      let starts := sl.state = .buffering ∧ threshold p r sl.fmt ≤ q.length
      { sl with
        fifo := q
        prependPending := false
        state := if starts then .playing else sl.state
        startedNotified := if starts then true else sl.startedNotified } := by
  simp only [pushBlock, checkStart]
  split_ifs with h <;> simp [setState, h]

/-- The events of `push_block`: STARTED where the session starts playing and R201 allows it. -/
theorem pushBlock_events (p : Params) (r : Regs) (i : Nat) (frames : List Frame) (fill : Nat) (sl : Slot) :
    (pushBlock p r i frames fill sl).2.1 =
      let q := (pushedQueue p.bufCapFrames (threshold p r sl.fmt) frames fill sl).1
      if sl.state = .buffering ∧ threshold p r sl.fmt ≤ q.length ∧
          (sl.startedNotified = false ∨ p.notifyStartOnResume = true) then [.started i] else [] := by
  simp only [pushBlock, checkStart]
  split_ifs with h h' h' <;> simp_all [setState_events]

theorem slotInv_pushBlock {p : Params} {sl : Slot} (hcap : 1 ≤ p.bufCapFrames) (h : SlotInv p sl) (hv : sl.valid = true)
    (hs : sl.state ≠ .idle) (r : Regs) (i fill : Nat) {frames : List Frame} (hf : ∀ f ∈ frames, f.length = bpf sl.fmt)
    (seq : Bool) (last ticks : Word32) :
    SlotInv p { (pushBlock p r i frames fill sl).1 with seqValid := seq, lastSeq := last, idleTicks := ticks } := by
  rw [pushBlock_slot, pushedQueue_eq hcap _ _ _ h.1]
  have hne : ∀ (c : Prop) [Decidable c], (if c then PlaybackState.playing else sl.state) ≠ .idle := by
    intro c _
    split_ifs
    · nofun
    · exact hs
  refine slotInv_move h hv hs (hne _) ?_ ?_ (by simp)
  · rw [newest_length]; omega
  · intro f hmem
    have := mem_of_mem_newest hmem
    simp only [List.mem_append, List.mem_replicate] at this
    rcases this with hm | (⟨-, rfl⟩ | ⟨-, rfl⟩) | hm
    · exact h.2.2.2.1 f hm
    · exact silenceFrame_length _
    · exact silenceFrame_length _
    · exact hf f hm

end Sys2Proof.Machine
end

