-- ==== Sys2Proof/Laws/Regs.lean ====
section
/-! SUPPORT. The laws of the register file: a read after a write of the same register gives the value written, masked; a
write leaves every other register alone; and the register map of R23 is one to one. -/

namespace Sys2Proof.Machine

theorem and_fullMask (v : Word32) : v &&& (0xFFFFFFFF : Word32) = v := by
  have h : (0xFFFFFFFF : Word32) = BitVec.allOnes 32 := by decide
  rw [h, BitVec.and_allOnes]

theorem raw_setRaw_same (r : Regs) (k : Reg) (v : Word32) : (r.setRaw k v).raw k = v := by
  cases k <;> rfl

theorem raw_setRaw_other (r : Regs) {k j : Reg} (v : Word32) (h : j ≠ k) : (r.setRaw k v).raw j = r.raw j := by
  cases k <;> cases j <;> first | rfl | exact absurd rfl h

/-- A read after a write gives the written value without its reserved bits. -/
@[simp] theorem get_set_same (r : Regs) (k : Reg) (v : Word32) : (r.set k v).get k = v &&& regMask k := by
  simp [Regs.get, Regs.set, raw_setRaw_same, BitVec.and_assoc]

/-- A write leaves every other register alone. -/
theorem get_set_other (r : Regs) {k j : Reg} (v : Word32) (h : j ≠ k) : (r.set k v).get j = r.get j := by
  simp [Regs.get, Regs.set, raw_setRaw_other r _ h]

theorem get_bump_other (r : Regs) {k j : Reg} (n : Nat) (h : j ≠ k) : (r.bump k n).get j = r.get j :=
  get_set_other r _ h

theorem get_bump_same (r : Regs) (k : Reg) (n : Nat) :
    (r.bump k n).get k = (r.get k + BitVec.ofNat 32 n) &&& regMask k :=
  get_set_same r k _

theorem regMask_readOnly {k : Reg} (h : k.readOnly = true) : regMask k = 0xFFFFFFFF := by
  revert h; cases k <;> decide

/-- A statistics counter counts modulo 2^32 (R12). -/
theorem get_bump_counter (r : Regs) {k : Reg} (n : Nat) (h : k.readOnly = true) :
    (r.bump k n).get k = r.get k + BitVec.ofNat 32 n := by
  rw [get_bump_same, regMask_readOnly h, and_fullMask]

/-- Counting nothing leaves every register as it reads. -/
theorem get_bump_zero (r : Regs) (k j : Reg) : (r.bump k 0).get j = r.get j := by
  by_cases h : j = k
  · subst h
    rw [get_bump_same]
    simp [Regs.get, BitVec.and_assoc]
  · exact get_bump_other r 0 h

/-- A write keeps every reserved bit 0. -/
theorem regsInv_set {r : Regs} (h : RegsInv r) (k : Reg) (v : Word32) : RegsInv (r.set k v) := by
  intro j
  by_cases hj : j = k
  · subst hj
    simp [Regs.get, Regs.set, raw_setRaw_same, BitVec.and_assoc]
  · have := h j
    simp only [Regs.get, Regs.set, raw_setRaw_other r _ hj] at this ⊢
    exact this

theorem regsInv_bump {r : Regs} (h : RegsInv r) (k : Reg) (n : Nat) : RegsInv (r.bump k n) := regsInv_set h k _

theorem get_of_fullMask (r : Regs) {k : Reg} (h : regMask k = 0xFFFFFFFF) : r.get k = r.raw k := by
  rw [Regs.get, h, and_fullMask]

/-- A register whose stored value has no reserved bit reads as it is stored. -/
theorem get_of_raw {r : Regs} {k : Reg} {v : Word32} (h : r.raw k = v) (hv : v &&& regMask k = v) : r.get k = r.raw k := by
  rw [Regs.get, h, hv]

theorem regsInv_reset (p : Params) : RegsInv (Regs.reset p) := by
  intro k
  cases k
  case ctrl => exact get_of_raw (v := 0x00000000) rfl (by decide)
  case rxDepthMask => exact get_of_raw (v := 0x00000002) rfl (by decide)
  case lwmMs => exact get_of_raw (v := 0x00000064) rfl (by decide)
  case udpPort => exact get_of_raw (v := 0x00001B44) rfl (by decide)
  case txFormat => exact get_of_raw (v := 0x00010103) rfl (by decide)
  all_goals exact get_of_fullMask _ rfl

/-- The register map answers the register at its own index (R23). -/
@[simp] theorem regOfIndex_indexOfReg (k : Reg) : regOfIndex (indexOfReg k) = some k := by
  cases k <;> rfl

theorem indexOfReg_regOfIndex {idx : BitVec 8} {k : Reg} (h : regOfIndex idx = some k) : indexOfReg k = idx := by
  have key : ∀ idx : BitVec 8, ∀ k, regOfIndex idx = some k → indexOfReg k = idx := by
    intro idx k
    unfold regOfIndex
    split <;> intro hk <;>
      first
        | (cases hk; apply BitVec.eq_of_toNat_eq; simp_all [indexOfReg])
        | cases hk
  exact key idx k h

/-- An index is unmapped exactly above 0x1D (R22). -/
theorem regOfIndex_eq_none_iff (idx : BitVec 8) : regOfIndex idx = none ↔ 0x1D < idx.toNat := by
  constructor
  · intro h
    by_contra hlt
    have : idx.toNat ≤ 0x1D := by omega
    unfold regOfIndex at h
    split at h <;> simp_all
    omega
  · intro h
    unfold regOfIndex
    split <;> simp_all

/-- The read-only registers are those at 0x10 to 0x1D (R23). -/
theorem readOnly_iff_index (k : Reg) : k.readOnly = true ↔ 0x10 ≤ (indexOfReg k).toNat := by
  cases k <;> decide

end Sys2Proof.Machine
end

