-- ==== Sys2Proof/Laws/Wire.lean ====
section
/-! SUPPORT. The codec in the arithmetic of R80, R94, R140 and R141: bytes as numbers. -/

namespace Sys2Proof.Machine

theorem formatSrByte_eq (sub : BitVec 3) (sr : BitVec 5) :
    formatSrByte sub sr = BitVec.ofNat 8 (sub.toNat * 32 + sr.toNat) := by
  apply BitVec.eq_of_toNat_eq
  have h1 := sub.isLt
  have h2 := sr.isLt
  simp only [formatSrByte, BitVec.toNat_append, BitVec.toNat_ofNat]
  rw [Nat.mod_eq_of_lt (by omega), ← Nat.shiftLeft_add_eq_or_of_lt h2, Nat.shiftLeft_eq]

theorem formatBitByte_eq (c : BitVec 4) (r : BitVec 1) (d : BitVec 3) :
    formatBitByte c r d = BitVec.ofNat 8 (c.toNat * 16 + r.toNat * 8 + d.toNat) := by
  apply BitVec.eq_of_toNat_eq
  have h1 := c.isLt
  have h2 := r.isLt
  have h3 := d.isLt
  simp only [formatBitByte, BitVec.toNat_append, BitVec.toNat_ofNat]
  rw [Nat.mod_eq_of_lt (by omega), ← Nat.shiftLeft_add_eq_or_of_lt h3, ← Nat.shiftLeft_add_eq_or_of_lt h2,
    Nat.shiftLeft_eq, Nat.shiftLeft_eq]
  omega

theorem le32bytes_eq (v : Word32) : le32bytes v =
    [BitVec.ofNat 8 (v.toNat % 256), BitVec.ofNat 8 (v.toNat / 256 % 256), BitVec.ofNat 8 (v.toNat / 65536 % 256),
      BitVec.ofNat 8 (v.toNat / 16777216)] := by
  simp only [le32bytes, List.cons.injEq, and_true]
  refine ⟨?_, ?_, ?_, ?_⟩ <;> apply BitVec.eq_of_toNat_eq <;>
    simp [BitVec.extractLsb', Nat.shiftRight_eq_div_pow]

/-- The machine's field of a name in four words is the field of R32 and R33, byte by byte. -/
theorem untilNul_nameField (w0 w1 w2 w3 : Word32) : untilNul (nameField w0 w1 w2 w3) = nameInWords w0 w1 w2 w3 := by
  have h : ∀ w : Word32, le32bytes w = (List.range 4).map fun j => BitVec.ofNat 8 (w.toNat / 256 ^ j) := fun w => by
    simp only [le32bytes, List.range, List.range.loop, List.map, List.cons.injEq, and_true]
    refine ⟨?_, ?_, ?_, ?_⟩ <;> apply BitVec.eq_of_toNat_eq <;> simp [BitVec.extractLsb', Nat.shiftRight_eq_div_pow]
  simp [nameInWords, nameField, untilNul, h]

/-- The filter name of the machine is the effective filter name (R32). -/
theorem filterName_eq (r : Regs) : filterName r = effectiveFilterName r := untilNul_nameField _ _ _ _

/-- The name that TX_PACKET stamps is the effective transmit name (R33). -/
theorem txName_eq (r : Regs) : txName r = effectiveTxName r := untilNul_nameField _ _ _ _

theorem toNat_le32 (b : Bytes) (o : Nat) : (le32 b o).toNat =
    (byteAt b o).toNat + 256 * (byteAt b (o + 1)).toNat + 65536 * (byteAt b (o + 2)).toNat +
      16777216 * (byteAt b (o + 3)).toNat := by
  have h0 := (byteAt b o).isLt
  have h1 := (byteAt b (o + 1)).isLt
  have h2 := (byteAt b (o + 2)).isLt
  simp only [le32, BitVec.toNat_append]
  rw [← Nat.shiftLeft_add_eq_or_of_lt h0, ← Nat.shiftLeft_add_eq_or_of_lt h1, ← Nat.shiftLeft_add_eq_or_of_lt h2]
  simp only [Nat.shiftLeft_eq]
  omega

theorem toNat_subProtocolOf (b : Byte) : (subProtocolOf b).toNat = b.toNat / 32 := by
  have := b.isLt
  simp [subProtocolOf, BitVec.extractLsb', Nat.shiftRight_eq_div_pow]; omega

theorem toNat_srIndexOf (b : Byte) : (srIndexOf b).toNat = b.toNat % 32 := by
  simp [srIndexOf, BitVec.extractLsb']

theorem toNat_codecOf (b : Byte) : (codecOf b).toNat = b.toNat / 16 := by
  have := b.isLt
  simp [codecOf, BitVec.extractLsb', Nat.shiftRight_eq_div_pow]; omega

theorem toNat_reservedOf (b : Byte) : (reservedOf b).toNat = b.toNat / 8 % 2 := by
  simp [reservedOf, BitVec.extractLsb', Nat.shiftRight_eq_div_pow]

theorem toNat_dataTypeOf (b : Byte) : (dataTypeOf b).toNat = b.toNat % 8 := by
  simp [dataTypeOf, BitVec.extractLsb']

/-- The layout of a datagram in the arithmetic of R80. -/
theorem datagramBytes_eq_wireLayout (h : Header) (field pl : Bytes) :
    datagramBytes h.subProtocol h.codec (headerFields h) field h.frameCounter pl = wireLayout h field pl := by
  simp only [datagramBytes, wireLayout, magic, headerFields, formatSrByte_eq, formatBitByte_eq, le32bytes_eq]

theorem wellStructured_iff (p : Params) (dg : Bytes) : WellStructured p dg ↔ structureError p.maxPacketSize dg = none := by
  rw [structureError_eq_none_iff]
  simp [WellStructured, memRead, magic]

/-- DECODE answers the header whose fields are the numbers of R94, and no other (R141). -/
theorem decodes_iff (p : Params) (dg : Bytes) (h : Header) (pl : Bytes) :
    Decodes p dg h pl ↔ packetDecode p.maxPacketSize dg = .ok (h, pl) := by
  rw [packetDecode_eq_ok_iff, ← wellStructured_iff]
  unfold Decodes
  constructor
  · rintro ⟨hw, h1, h2, h3, h4, h5, h6, h7, h8, h9, h10⟩
    refine ⟨hw, ?_, h10⟩
    rcases h with ⟨a, b, c, d, e, f, g, n, k⟩
    simp only [headerOf, Header.mk.injEq]
    refine ⟨?_, ?_, h3, h4, ?_, ?_, ?_, h8, ?_⟩ <;> apply BitVec.eq_of_toNat_eq
    · rw [toNat_subProtocolOf]; exact h1
    · rw [toNat_srIndexOf]; exact h2
    · rw [toNat_dataTypeOf]; exact h7
    · rw [toNat_reservedOf]; exact h6
    · rw [toNat_codecOf]; exact h5
    · rw [toNat_le32]; exact h9
  · rintro ⟨hw, rfl, h10⟩
    exact ⟨hw, toNat_subProtocolOf _, toNat_srIndexOf _, rfl, rfl, toNat_codecOf _, toNat_reservedOf _, toNat_dataTypeOf _,
      rfl, toNat_le32 _ _, h10⟩

end Sys2Proof.Machine
end

