-- ==== Sys2Proof/Laws/Receive.lean ====
section
/-! SUPPORT. The laws of the receive path: what the session lookup finds (spec R237), what stages 3 to 9 answer on an
admissible packet (R230), what an accepted packet counts and which flags it sets (R34, R41), and that RX_PACKET and WIRE_PCM
deliver one and the same PCM packet (R92, R150). -/

namespace Sys2Proof.Machine

/-! ## Lookup -/

/-- The session that the lookup finds holds the StreamKey, and no lower slot does. -/
theorem findSession_eq_some_iff {slots : List Slot} {src : SrcAddr} {name : Bytes} {k : Nat} :
    findSession slots src name = some k ↔
      (∃ sl, slots[k]? = some sl ∧ sl.valid = true ∧ sl.src = src ∧ sl.name = name) ∧
      ∀ j < k, ∀ sl, slots[j]? = some sl → ¬(sl.valid = true ∧ sl.src = src ∧ sl.name = name) := by
  unfold findSession
  rw [List.findIdx?_eq_some_iff_getElem]
  constructor
  · rintro ⟨hk, h, hlow⟩
    refine ⟨⟨slots[k], by simp, by simpa [and_assoc] using h⟩, fun j hj sl hsl => ?_⟩
    obtain ⟨hj', rfl⟩ := List.getElem?_eq_some_iff.1 hsl
    simpa [and_assoc] using hlow j hj
  · rintro ⟨⟨sl, hsl, h⟩, hlow⟩
    obtain ⟨hk, rfl⟩ := List.getElem?_eq_some_iff.1 hsl
    refine ⟨hk, by simpa [and_assoc] using h, fun j hj => ?_⟩
    simpa [and_assoc] using hlow j hj slots[j] (by simp)

theorem findSession_eq_none_iff {slots : List Slot} {src : SrcAddr} {name : Bytes} :
    findSession slots src name = none ↔ ∀ sl ∈ slots, sl.valid = true → ¬(sl.src = src ∧ sl.name = name) := by
  unfold findSession
  rw [List.findIdx?_eq_none_iff]
  simp

/-- The slot that admission takes is the lowest free one. -/
theorem findFree_eq_some_iff {slots : List Slot} {k : Nat} :
    findFree slots = some k ↔ (∃ sl, slots[k]? = some sl ∧ sl.valid = false) ∧
      ∀ j < k, ∀ sl, slots[j]? = some sl → sl.valid = true := by
  unfold findFree
  rw [List.findIdx?_eq_some_iff_getElem]
  constructor
  · rintro ⟨hk, h, hlow⟩
    refine ⟨⟨slots[k], by simp, by simpa using h⟩, fun j hj sl hsl => ?_⟩
    obtain ⟨hj', rfl⟩ := List.getElem?_eq_some_iff.1 hsl
    simpa using hlow j hj
  · rintro ⟨⟨sl, hsl, h⟩, hlow⟩
    obtain ⟨hk, rfl⟩ := List.getElem?_eq_some_iff.1 hsl
    refine ⟨hk, by simpa using h, fun j hj => ?_⟩
    simpa using hlow j hj slots[j] (by simp)

theorem findFree_eq_none_iff {slots : List Slot} : findFree slots = none ↔ ∀ sl ∈ slots, sl.valid = true := by
  unfold findFree
  rw [List.findIdx?_eq_none_iff]
  simp

/-- In a legal state, the session of a StreamKey is the one the lookup finds (R38, R237). -/
theorem findSession_of_sessionAt {s : State} (hkeys : s.slots.Pairwise DistinctKeys) {k : Nat} {src : SrcAddr} {name : Bytes}
    {sl : Slot} (h : SessionAt s k src name sl) : findSession s.slots src name = some k := by
  rw [findSession_eq_some_iff]
  refine ⟨⟨sl, h⟩, fun j hj sl' hsl' hc => ?_⟩
  obtain ⟨hk, rfl⟩ := List.getElem?_eq_some_iff.1 h.1
  obtain ⟨hj', rfl⟩ := List.getElem?_eq_some_iff.1 hsl'
  exact List.pairwise_iff_getElem.1 hkeys j k hj' hk hj hc.1 h.2.1 ⟨hc.2.1.trans h.2.2.1.symm, hc.2.2.trans h.2.2.2.symm⟩

/-! ## Stages 3 to 9 -/

theorem formatCode_toNat (n : BitVec 8) (s : BitVec 5) (d : BitVec 3) :
    (formatCode n s d).toNat = n.toNat * 256 + s.toNat * 8 + d.toNat := by
  have h1 := n.isLt
  have h2 := s.isLt
  have h3 := d.isLt
  simp only [formatCode, BitVec.toNat_append]
  rw [← Nat.shiftLeft_add_eq_or_of_lt h3, ← Nat.shiftLeft_add_eq_or_of_lt h2, Nat.shiftLeft_eq, Nat.shiftLeft_eq]
  omega

@[simp] theorem headerFormatCode_toNat (h : Header) : (headerFormatCode h).toNat = headerCode h := formatCode_toNat _ _ _

theorem depthAccepted_iff (r : Regs) (d : FormatDescriptor) : depthAccepted r d = true ↔ DepthEnabled r d := by
  unfold depthAccepted DepthEnabled
  cases d.bitsPerSample <;> rfl

theorem slice_eq_frameList (pl : Bytes) (b n : Nat) : slice pl b n = frameList pl b n := rfl

/-- Every frame that is sliced is whole (R175). -/
theorem length_of_mem_frameList {pl : Bytes} {b n : Nat} (h : n * b ≤ pl.length) {f : Frame} (hf : f ∈ frameList pl b n) :
    f.length = b := by
  simp only [frameList, List.mem_map, List.mem_range] at hf
  obtain ⟨j, hj, rfl⟩ := hf
  have : (j + 1) * b ≤ n * b := Nat.mul_le_mul_right _ hj
  rw [Nat.add_mul, Nat.one_mul] at this
  simp
  omega

/-- On an admissible packet, stages 3 to 6 pass, and the answer is that of stages 7 to 9 (R230). -/
theorem rxCheck_of_admissible {s : State} {h : Header} {pl : Bytes} {d : FormatDescriptor} (ha : Admissible s h pl d)
    (src : SrcAddr) :
    rxCheck s src h pl =
      match admitStream s.regs s.slots src h with
      | .error e => .error e
      | .ok (i, isNew, gap) =>
        .ok { slot := i, isNew := isNew, fmt := d, frames := frameList pl (bpf d) (h.nbsMinus1.toNat + 1)
              nHdr := h.nbsMinus1.toNat + 1, mism := decide ((h.nbsMinus1.toNat + 1) * bpf d ≠ pl.length), gap := gap } := by
  obtain ⟨⟨hm, hmod, hlen⟩, hf, hd⟩ := ha
  have hb := maps_bpf hm
  have hl : lookup s.params (headerFormatCode h) = .ok d := (lookup_ok_iff _ _ _).2 (by rw [headerFormatCode_toNat]; exact hm)
  have hn : headerFrames h = h.nbsMinus1.toNat + 1 := rfl
  have hshort : ¬pl.length / bpf d < h.nbsMinus1.toNat + 1 := by
    rw [Nat.div_lt_iff_lt_mul (by omega)]; omega
  have hmis : decide (h.nbsMinus1.toNat + 1 ≠ pl.length / bpf d) = decide ((h.nbsMinus1.toNat + 1) * bpf d ≠ pl.length) := by
    rw [decide_eq_decide, ne_eq, ne_eq, not_iff_not, eq_comm, Nat.div_eq_iff_eq_mul_left (by omega) (Nat.dvd_of_mod_eq_zero hmod),
      eq_comm]
  have hfil : ¬(filterEnabled s.regs = true ∧ h.name ≠ filterName s.regs) := fun hc => hc.2 ((hf hc.1).trans (filterName_eq _).symm)
  have hdep : ¬depthAccepted s.regs d = false := by rw [(depthAccepted_iff _ _).2 hd]; nofun
  unfold rxCheck
  simp only [hl, hn, hmod, ne_eq, not_true_eq_false, if_false, if_neg hshort, if_neg hdep]
  rw [if_neg hfil]
  cases admitStream s.regs s.slots src h with
  | error e => rfl
  | ok x =>
    obtain ⟨i, isNew, gap⟩ := x
    simp only [slice_eq_frameList]
    rw [← hmis]

/-- What an accepted plan says of the packet and of the state (R230): the packet is admissible, and the slot is the
session's, not Draining, or the lowest free one. -/
theorem rxCheck_ok {s : State} {src : SrcAddr} {h : Header} {pl : Bytes} {plan : RxPlan} (hc : rxCheck s src h pl = .ok plan) :
    Admissible s h pl plan.fmt ∧ plan.frames = frameList pl (bpf plan.fmt) (h.nbsMinus1.toNat + 1) ∧
    plan.nHdr = h.nbsMinus1.toNat + 1 ∧ admitStream s.regs s.slots src h = .ok (plan.slot, plan.isNew, plan.gap) := by
  unfold rxCheck at hc
  dsimp only at hc
  split at hc
  · cases hc
  rename_i d hl
  have hm := (lookup_ok_iff _ _ _).1 hl
  rw [headerFormatCode_toNat] at hm
  have hb := maps_bpf hm
  have hn : headerFrames h = h.nbsMinus1.toNat + 1 := rfl
  split_ifs at hc with h1 h2 h3 h4
  rw [hn, Nat.div_lt_iff_lt_mul (by omega)] at h2
  split at hc
  · cases hc
  rename_i i isNew gap hadm
  cases hc
  refine ⟨⟨⟨hm, not_not.1 h1, Nat.le_of_not_lt h2⟩, fun hen => ?_, (depthAccepted_iff _ _).1 (by simpa using h4)⟩, rfl, rfl, hadm⟩
  by_contra hne
  exact h3 ⟨hen, fun he => hne (he.trans (filterName_eq _))⟩

/-- What stages 7 to 9 let in (R237 to R239). -/
theorem admit_ok {r : Regs} {slots : List Slot} {src : SrcAddr} {h : Header} {k : Nat} {isNew : Bool} {gap : Nat}
    (ha : admitStream r slots src h = .ok (k, isNew, gap)) :
    (isNew = false ∧ findSession slots src h.name = some k ∧
      ∃ sl, slots[k]? = some sl ∧ classifyCounter (r.get .seqTol) k sl h.frameCounter = .ok gap) ∨
    (isNew = true ∧ gap = 0 ∧ findSession slots src h.name = none ∧ findFree slots = some k) := by
  unfold admitStream at ha
  split at ha
  · rename_i i hi
    split at ha
    · cases ha
    · rename_i g hg
      cases ha
      obtain ⟨⟨sl, hsl, -⟩, -⟩ := findSession_eq_some_iff.1 hi
      refine .inl ⟨rfl, hi, sl, hsl, ?_⟩
      rw [hsl] at hg
      exact hg
  · rename_i hi
    split at ha
    · cases ha
    · rename_i i hf
      cases ha
      exact .inr ⟨rfl, rfl, hi, hf⟩

/-- An accepted counter: the session is not Draining, and the gap is the one of R239. -/
theorem classifyCounter_ok_iff {tol : Word32} {i : Nat} {sl : Slot} {ctr : Word32} {gap : Nat} :
    classifyCounter tol i sl ctr = .ok gap ↔ sl.state ≠ .draining ∧ GapIs sl ctr gap := by
  unfold classifyCounter GapIs sdiff32
  generalize (ctr - sl.lastSeq).toInt = x
  by_cases hd : sl.state = .draining
  · simp [hd]
  cases hs : sl.seqValid with
  | false => simp [hd, eq_comm]
  | true =>
    simp only [hd, if_false, if_true, ne_eq, not_false_eq_true, true_and, Bool.true_eq_false, false_and, false_or]
    split_ifs <;> simp only [Except.ok.injEq, false_iff] <;> omega

/-! ## Commit -/

/-- What an accepted packet counts, register by register (R34). -/
theorem get_acceptedCounters (plan : RxPlan) (fill dropped : Nat) (r : Regs) (j : Reg) :
    (acceptedCounters plan fill dropped r).get j =
      r.get j + BitVec.ofNat 32 (acceptedCounts (plan.mism = true) plan.gap fill dropped j) := by
  have key : ∀ (r : Regs) (k : Reg) (n : Nat), k.readOnly = true →
      (r.bump k n).get j = r.get j + BitVec.ofNat 32 (if j = k then n else 0) := by
    intro r k n hk
    split_ifs with hj
    · rw [hj, get_bump_counter _ _ hk]
    · rw [get_bump_other _ _ hj]; simp
  unfold acceptedCounters
  rw [key _ _ _ rfl, key _ _ _ rfl, key _ _ _ rfl, key _ _ _ rfl, key _ _ _ rfl]
  cases j <;> simp [acceptedCounts, one]

/-- The flags word as a number (R41). -/
theorem rxFlags_eq (a b c d e f : Bool) :
    rxFlags a b c d e f = flagsOf (a = true) (b = true) (c = true) (d = true) (e = true) (f = true) := by
  cases a <;> cases b <;> cases c <;> cases d <;> cases e <;> cases f <;> rfl

/-- ENTERED_PLAYING is bit 5 of the flags word (R41). -/
theorem rxFlags_bit5 (a b c d e f : Bool) : (rxFlags a b c d e f).getLsbD 5 = f := by
  cases a <;> cases b <;> cases c <;> cases d <;> cases e <;> cases f <;> rfl

/-! ## Delivery -/

/-- RX_PACKET and WIRE_PCM of one PCM packet do the same (R92, R150). -/
theorem exec_of_deliversPcm {s : State} {i : Instr} {src : SrcAddr} {h : Header} {pl : Bytes}
    (hd : DeliversPcm s.params i src h pl) : exec i s = .next (receivePcm src h pl s) := by
  obtain ⟨hsub, hcodec, ⟨dg, rfl, hdec⟩ | ⟨field, hname, rfl⟩⟩ := hd
  · rw [decodes_iff] at hdec
    simp only [exec, execRxPacket, hdec, wireClass, hsub, hcodec]
    rfl
  · have : wireHeader 0 0 ⟨h.srIndex, h.nbsMinus1, h.nbcMinus1, h.dataType, h.reserved⟩ ⟨src, field, h.frameCounter, pl⟩ = h := by
      rcases h with ⟨sub, sr, nbs, nbc, dt, rsv, codec, name, ctr⟩
      simp only at hsub hcodec hname
      subst hsub hcodec hname
      rfl
    simp only [exec, execWirePcm, this]

/-- What the commit of an accepted packet leaves, field by field (stage 10 of R230). -/
theorem rxCommit_eq {s : State} {plan : RxPlan} {sl : Slot} (hsl : s.slots[plan.slot]? = some sl) (src : SrcAddr) (name : Bytes)
    (ctr : Word32) :
    let t := rxCommit plan src name ctr s
    let sl0 := admittedSlot plan src name sl
    let fmtd := negotiate s.params.notifyStartOnResume (prependSilence s.regs) plan sl0
    let pushed := pushBlock s.params s.regs plan.slot plan.frames (gapFill plan sl0) fmtd.1
    t.params = s.params ∧ t.requests = s.requests ∧
    t.slots = s.slots.set plan.slot { pushed.1 with lastSeq := ctr, seqValid := true, idleTicks := 0 } ∧
    t.events = s.events ++ (fmtd.2 ++ pushed.2.1) ∧
    t.regs = acceptedCounters plan (gapFill plan sl0) pushed.2.2 s.regs ∧
    t.result = some ⟨.ok, .rx plan.slot
      (rxFlags plan.isNew (formatChanges plan sl0) (decide (0 < plan.gap)) plan.mism (decide (0 < pushed.2.2))
        (decide (fmtd.1.state ≠ .playing ∧ pushed.1.state = .playing))) (BitVec.ofNat 32 plan.gap) pushed.2.2⟩ := by
  have : (s.slot? plan.slot).getD Slot.cleared = sl := by simp [State.slot?, hsl]
  simp only [rxCommit, this]
  simp only [finish_params, finish_requests, finish_slots, finish_events, finish_regs, finish_result, putSlot_params,
    putSlot_requests, putSlot_slots, putSlot_events, putSlot_regs, and_self]

/-! ## What a receive operation can do -/
/-- An operation that delivers a datagram rejects it, forwards it, or receives a PCM packet (R231, R151, R230). -/
theorem receive_cases {i : Instr} {s t : State} (hi : isReceive i = true) (h : exec i s = .next t) :
    (∃ e, (e = .truncated ∨ e = .oversized ∨ e = .badMagic) ∧ t = rejectRequest e s) ∨
    (∃ kind src dg, t = forward kind src dg s) ∨
    (∃ src hd pl, t = receivePcm src hd pl s) := by
  cases i <;> simp only [isReceive, Bool.false_eq_true] at hi <;> simp only [exec, execRxPacket, execWirePcm, execWireCompressed8, execWireCompressed4, execWireCompressed2, execWireCompressed1, execWireService4, execWireService2, execWireService1, forwardWire, Host.Outcome.next.injEq] at h
  case rxPacket src dg =>
    split at h
    · rename_i e he
      rw [packetDecode_eq_error_iff] at he
      exact .inl ⟨e, structureError_cases he, h.symm⟩
    · split at h
      · exact .inr (.inr ⟨_, _, _, h.symm⟩)
      · exact .inr (.inl ⟨_, _, _, h.symm⟩)
      · exact .inr (.inl ⟨_, _, _, h.symm⟩)
  case wirePcm => exact .inr (.inr ⟨_, _, _, h.symm⟩)
  all_goals exact .inr (.inl ⟨_, _, _, h.symm⟩)

/-- A PCM packet is refused or committed. -/
theorem receivePcm_cases (src : SrcAddr) (h : Header) (pl : Bytes) (s : State) :
    (∃ e, rxCheck s src h pl = .error e ∧ receivePcm src h pl s = rxRefuse e s) ∨
    (∃ plan, rxCheck s src h pl = .ok plan ∧ receivePcm src h pl s = rxCommit plan src h.name h.frameCounter s) := by
  unfold receivePcm
  cases rxCheck s src h pl with
  | error e => exact .inl ⟨e, rfl, rfl⟩
  | ok p => exact .inr ⟨p, rfl, rfl⟩

/-- A refusal that resets no session counts once and does nothing else (R323). -/
theorem rxRefuse_other {e : RxRefusal} (h : ∀ i, e ≠ .seqRegression i) (s : State) :
    rxRefuse e s = finish e.result.1 e.result.2 (count e.counter 1 s) := by
  cases e <;> first | rfl | exact absurd rfl (h _)

/-- A regression is one of a session that is not Draining (R238, R239). -/
theorem rxCheck_regression {s : State} {src h pl k} (he : rxCheck s src h pl = .error (.seqRegression k)) :
    ∃ sl, s.slots[k]? = some sl ∧ sl.valid = true ∧ sl.src = src ∧ sl.name = h.name ∧ sl.state ≠ .draining := by
  unfold rxCheck at he
  dsimp only at he
  split at he
  · cases he
  split_ifs at he <;> first | cases he | skip
  split at he
  · rename_i e hadm
    cases he
    unfold admitStream at hadm
    split at hadm
    · rename_i i hi
      split at hadm
      · rename_i e' hc
        cases hadm
        obtain ⟨⟨sl, hsl, hv, h1, h2⟩, -⟩ := findSession_eq_some_iff.1 hi
        rw [hsl, Option.getD_some] at hc
        unfold classifyCounter at hc
        dsimp only at hc
        by_cases c1 : sl.state = .draining
        · rw [if_pos c1] at hc; cases hc
        · rw [if_neg c1] at hc
          have hik : i = k := by
            by_contra hne
            split_ifs at hc
            all_goals first | (injection hc with hc; injection hc with hc; exact hne hc) | cases hc
          subst hik
          exact ⟨sl, hsl, hv, h1, h2, c1⟩
      · cases hadm
    · split at hadm <;> cases hadm
  · cases he

end Sys2Proof.Machine
end

