-- ==== Sys2Proof/Laws/Sweep.lean ====
section
/-! SUPPORT. What a sweep over the slots does (spec R292, R296): each slot changes on its own, the events come in ascending
slot order, and the counts add up. -/

namespace Sys2Proof.Machine

variable (f : Nat → Slot → Slot × List Event × Nat)

theorem sweep_slots (i : Nat) (l : List Slot) : (sweep f i l).1 = (l.zipIdx i).map fun x => (f x.2 x.1).1 := by
  induction l generalizing i with
  | nil => rfl
  | cons a l ih => simp [sweep, ih]

theorem sweep_events (i : Nat) (l : List Slot) : (sweep f i l).2.1 = (l.zipIdx i).flatMap fun x => (f x.2 x.1).2.1 := by
  induction l generalizing i with
  | nil => rfl
  | cons a l ih => simp [sweep, ih]

theorem sweep_count (i : Nat) (l : List Slot) : (sweep f i l).2.2 = ((l.zipIdx i).map fun x => (f x.2 x.1).2.2).sum := by
  induction l generalizing i with
  | nil => rfl
  | cons a l ih => simp [sweep, ih]

@[simp] theorem sweep_length (i : Nat) (l : List Slot) : (sweep f i l).1.length = l.length := by simp [sweep_slots]

/-- Each slot changes by the procedure alone. -/
theorem sweep_getElem? (i k : Nat) (l : List Slot) : (sweep f i l).1[k]? = l[k]?.map fun sl => (f (i + k) sl).1 := by
  rw [sweep_slots, List.getElem?_map, List.getElem?_zipIdx, Option.map_map]
  rfl

/-- A sweep whose slot change does not depend on the index is a map. -/
theorem sweep_slots_map {g : Slot → Slot} (h : ∀ i sl, (f i sl).1 = g sl) (i : Nat) (l : List Slot) :
    (sweep f i l).1 = l.map g := by
  induction l generalizing i with
  | nil => rfl
  | cons a l ih => simp [sweep, h, ih]

/-- A sweep that emits at most STOPPED emits it for the slots that meet the condition, in ascending order. -/
theorem sweep_events_filter {p : Slot → Bool} (h : ∀ i sl, (f i sl).2.1 = if p sl then [Event.stopped i] else []) (i : Nat)
    (l : List Slot) :
    (sweep f i l).2.1 = ((l.zipIdx i).filter fun x => p x.1).map fun x => Event.stopped x.2 := by
  induction l generalizing i with
  | nil => rfl
  | cons a l ih =>
    simp only [sweep, h, ih, List.zipIdx_cons, List.filter_cons]
    split_ifs <;> simp

theorem sweep_countP {p : Slot → Bool} (h : ∀ i sl, (f i sl).2.2 = if p sl then 1 else 0) (i : Nat) (l : List Slot) :
    (sweep f i l).2.2 = l.countP p := by
  induction l generalizing i with
  | nil => rfl
  | cons a l ih =>
    simp only [sweep, h, ih, List.countP_cons]
    omega

/-- A teardown, with the events it emits (R204). -/
theorem teardown_tornDown (r p : Bool) (i : Nat) (sl : Slot) :
    teardown r p i sl = (tornDown sl, if sl.state = .playing then [.stopped i] else []) := by
  rw [teardown_eq]
  cases h : sl.state <;> simp [tornDown, h]

/-- Saturating counting as a number (R10). -/
theorem satInc_eq (v : Word32) : satInc v = BitVec.ofNat 32 (min (v.toNat + 1) (2 ^ 32 - 1)) := by
  unfold satInc
  have hv := v.isLt
  split_ifs with h
  · subst h; rfl
  · have hne : v.toNat ≠ 2 ^ 32 - 1 := by
      intro hc
      exact h (BitVec.eq_of_toNat_eq (by rw [hc]; rfl))
    apply BitVec.eq_of_toNat_eq
    rw [BitVec.toNat_add, BitVec.toNat_ofNat, Nat.min_eq_left (by omega)]
    rfl

end Sys2Proof.Machine
end

