-- ==== Sys2Proof/Laws/Effects.lean ====
section
/-! SUPPORT. What one operation can do to the slots and to the event stream, said once for all operations (spec R198, R201,
R208): the whole-machine statements are case analyses of it. -/

namespace Sys2Proof.Machine

/-- What one operation can do to the slot it works on, and the events it can emit for it: STOPPED exactly where Playing is
left, Playing entered by a receive operation that says so, Draining left only to be freed (R198, R201, R208 c). -/
def SlotMove (i : Instr) (s t : State) (k : Nat) (a b : Slot) (es : List Event) : Prop :=
  (a.state = .playing → b.state ≠ .playing → .stopped k ∈ es) ∧ (.stopped k ∈ es → a.state = .playing) ∧
  (a.state ≠ .playing → b.state = .playing → isReceive i = true ∧
      ∃ flags gap dropped, t.result = some ⟨.ok, .rx k flags gap dropped⟩ ∧ flags.getLsbD 5 = true) ∧
  (Inv s → (a.state = .draining → b.state = .draining ∧ b.src = a.src ∧ b.name = a.name ∨ b = .cleared) ∧
    (b.state = .draining → a.state = .draining ∨ a.state = .playing))

/-- The four shapes of an operation's effect on the slots and the event stream: none, one slot, a sweep over all slots, and
RESET. -/
def Shape (i : Instr) (s t : State) : Prop :=
  (t.slots = s.slots ∧ ∃ es, t.events = s.events ++ es ∧ ∀ k, .stopped k ∉ es) ∨
  (∃ k a b es, s.slots[k]? = some a ∧ t.slots = s.slots.set k b ∧ t.events = s.events ++ es ∧
    (∀ j, .stopped j ∈ es → j = k) ∧ SlotMove i s t k a b es) ∨
  (∃ (g : Slot → Slot) (p : Slot → Bool), t.slots = s.slots.map g ∧ t.events = s.events ++ ((s.slots.zipIdx.filter fun x => p x.1).map fun x => Event.stopped x.2) ∧
    (∀ a, a.state = .playing → (g a).state ≠ .playing → p a = true) ∧ (∀ a, p a = true → a.state = .playing) ∧ (∀ a, (g a).state = .playing → a.state = .playing) ∧
    (∀ a, (a.state = .draining → (g a).state = .draining ∧ (g a).src = a.src ∧ (g a).name = a.name ∨ g a = .cleared) ∧
    ((g a).state = .draining → a.state = .draining ∨ a.state = .playing))) ∨
  (i = .reset ∧ t.slots = List.replicate s.params.nSessions .cleared ∧ t.events = s.events)

theorem shape_quiet {i s t} (h1 : t.slots = s.slots) (h2 : t.events = s.events) : Shape i s t :=
  .inl ⟨h1, [], by simp [h2], by simp⟩

/-- The commit of an accepted packet works on one slot. -/
theorem commit_shape {i : Instr} (hr : isReceive i = true) {s : State} {src h pl plan} (hc : rxCheck s src h pl = .ok plan) :
    Shape i s (rxCommit plan src h.name h.frameCounter s) := by
  obtain ⟨-, -, -, hadm⟩ := rxCheck_ok hc
  have hsl : ∃ sl, s.slots[plan.slot]? = some sl ∧ (Inv s → sl.state ≠ .draining) := by
    rcases admit_ok hadm with ⟨-, -, sl, hsl, hcl⟩ | ⟨-, -, -, hf⟩
    · exact ⟨sl, hsl, fun _ => (classifyCounter_ok_iff.1 hcl).1⟩
    · obtain ⟨⟨sl, hsl, hv⟩, -⟩ := findFree_eq_some_iff.1 hf
      refine ⟨sl, hsl, fun hi => ?_⟩
      rw [(hi.slots sl (List.mem_of_getElem? hsl)).2.2.2.2.2.2.2.2 hv]
      simp [Slot.cleared]
  obtain ⟨sl, hsl, hnd⟩ := hsl
  obtain ⟨c1, c2, c3, c4, c5, c6⟩ := rxCommit_eq hsl src h.name h.frameCounter
  rw [pushBlock_slot] at c3 c6
  rw [pushBlock_events] at c4
  dsimp only at c3 c4 c6
  generalize hsl0 : admittedSlot plan src h.name sl = sl0 at c3 c4 c5 c6
  have hst0 : sl0.state = sl.state := by rw [← hsl0]; unfold admittedSlot; split_ifs <;> rfl
  generalize hn : negotiate s.params.notifyStartOnResume (prependSilence s.regs) plan sl0 = x at c3 c4 c5 c6
  have hneg : (x.1.state = sl.state ∧ x.2 = []) ∨ (x.1.state = .buffering ∧ x.2 = (if sl.state = .playing then [.stopped plan.slot] else []) ++ [.reconfigure plan.slot plan.fmt]) := by
    rw [← hn]; unfold negotiate
    by_cases hh : sl0.fmtValid = false ∨ sl0.fmt ≠ plan.fmt
    · rw [if_pos hh]
      right
      refine ⟨rfl, ?_⟩
      simp only [enterFormat, setState_events, hst0]
      simp
    · rw [if_neg hh]
      exact .inl ⟨hst0, rfl⟩
  clear hn
  generalize hqq : (pushedQueue s.params.bufCapFrames (threshold s.params s.regs x.1.fmt) plan.frames (gapFill plan sl0) x.1).1 = q at c3 c4 c6
  refine .inr (.inl ⟨plan.slot, sl, _, _, hsl, c3, c4, ?_, ?_, ?_, ?_, ?_⟩)
  · intro j hj
    simp only [List.mem_append] at hj
    rcases hj with hj | hj
    · rcases hneg with ⟨-, h2⟩ | ⟨-, h2⟩
      · simp [h2] at hj
      · rw [h2] at hj; split_ifs at hj <;> simp at hj; exact hj
    · split_ifs at hj <;> simp at hj
  · intro h1 h2
    rcases hneg with ⟨h3, -⟩ | ⟨h3, h4⟩
    · exfalso; apply h2; simp [h3, h1]
    · simp [h4, h1]
  · intro hj
    by_contra hne
    simp only [List.mem_append] at hj
    rcases hj with hj | hj
    · rcases hneg with ⟨-, h2⟩ | ⟨-, h2⟩
      · simp [h2] at hj
      · rw [h2, if_neg hne] at hj; simp at hj
    · split_ifs at hj <;> simp at hj
  · intro h1 h2
    refine ⟨hr, _, _, _, c6, ?_⟩
    rw [rxFlags_bit5]
    have hne : x.1.state ≠ .playing := by
      rcases hneg with ⟨h3, -⟩ | ⟨h3, -⟩
      · rw [h3]; exact h1
      · rw [h3]; nofun
    exact decide_eq_true ⟨hne, h2⟩
  · intro hi
    have hd := hnd hi
    refine ⟨fun h => absurd h hd, fun h => ?_⟩
    exfalso
    rcases hneg with ⟨h3, -⟩ | ⟨h3, -⟩
    · simp only [h3] at h; split_ifs at h; exact hd h
    · simp only [h3] at h; split_ifs at h

/-- Every operation has one of the four shapes. -/
theorem shape (i : Instr) (s t : State) (he : exec i s = .next t) : Shape i s t := by
  by_cases hr : isReceive i = true
  · rcases receive_cases hr he with ⟨e, -, rfl⟩ | ⟨kind, src, dg, rfl⟩ | ⟨src, h, pl, rfl⟩
    · cases e <;> exact shape_quiet rfl rfl
    · exact .inl ⟨rfl, [.forward kind src dg], rfl, by simp⟩
    · rcases receivePcm_cases src h pl s with ⟨e, hc, he'⟩ | ⟨plan, hc, he'⟩
      · rw [he']
        by_cases hsr : ∃ k, e = .seqRegression k
        · obtain ⟨k, rfl⟩ := hsr
          obtain ⟨sl, hsl, hv, -, -, hnd⟩ := rxCheck_regression hc
          have hsd : (s.slot? k).getD Slot.cleared = sl := by simp [State.slot?, hsl]
          refine .inr (.inl ⟨k, sl, (sessionReset s.params.notifyStartOnResume (prependSilence s.regs) k sl).1, (sessionReset s.params.notifyStartOnResume (prependSilence s.regs) k sl).2, hsl, ?_, ?_, ?_, ?_, ?_, ?_, ?_⟩)
          · simp [rxRefuse, regressionReset, hsd]
          · simp [rxRefuse, regressionReset, hsd]
          · intro j hj; simp [sessionReset, setState_events] at hj; exact hj.2
          · intro h1 h2; simp [sessionReset, setState_events, h1]
          · intro h1; simp [sessionReset, setState_events] at h1; exact h1
          · intro h1 h2; simp [sessionReset, setState] at h2
          · intro _; refine ⟨fun h => absurd h hnd, fun h => ?_⟩; simp [sessionReset, setState] at h
        · rw [rxRefuse_other (fun i hi => hsr ⟨i, hi⟩)]
          exact shape_quiet rfl rfl
      · rw [he']; exact commit_shape hr hc
  · have hq : ∀ c d, t = finish c d s → Shape i s t := fun c d h => shape_quiet (by rw [h]; rfl) (by rw [h]; rfl)
    have tdown : ∀ (k : Nat) (a : Slot) c d, s.slots[k]? = some a → t = finish c d (putSlot k (tornDown a) (if a.state = .playing then [.stopped k] else []) s) → Shape i s t := by
      intro k a c d ha ht
      subst ht
      refine .inr (.inl ⟨k, a, _, _, ha, rfl, rfl, ?_, ?_, ?_, ?_, ?_⟩)
      · intro j hj; split_ifs at hj <;> simp at hj; exact hj
      · intro h1 h2; simp [h1]
      · intro h1; by_contra h2; simp [h2] at h1
      · intro h1 h2; simp only [tornDown, if_neg h1] at h2
        split_ifs at h2 <;> first | exact absurd h2 h1 | cases h2
      · intro _
        refine ⟨fun h => ?_, fun h => ?_⟩
        · simp [tornDown, h]
        · simp only [tornDown] at h; split_ifs at h with h3 h4
          · exact .inr h3
          · exact .inl h4
          · cases h
    have cleared : ∀ (k : Nat) (a : Slot) c d, s.slots[k]? = some a → t = finish c d (putSlot k .cleared (if a.state = .playing then [.stopped k] else []) s) → Shape i s t := by
      intro k a c d ha ht
      subst ht
      refine .inr (.inl ⟨k, a, _, _, ha, rfl, rfl, ?_, ?_, ?_, ?_, ?_⟩)
      · intro j hj; split_ifs at hj <;> simp at hj; exact hj
      · intro h1 h2; simp [h1]
      · intro h1; by_contra h2; simp [h2] at h1
      · intro h1 h2; cases h2
      · intro _
        exact ⟨fun h => .inr rfl, fun h => by cases h⟩
    have hsess : ∀ {k : Nat} {a : Slot}, s.session? k = some a → s.slots[k]? = some a := by
      intro k a h
      unfold State.session? State.slot? at h
      split at h
      · split_ifs at h; simp_all
      · cases h
    cases i <;> simp only [isReceive, not_true_eq_false] at hr <;> simp only [exec, execTxPacket, execCfgRead, execCfgWrite, execSessionRead, execStop, execDeviceFault, execTick, execReset, execPop, execLookup, execBytesPerFrame, execFramesInPayload, execFramesFit, execEncode, execDecode, withLookup, Host.Outcome.next.injEq] at he
    case txPacket => split at he <;> subst he <;> exact shape_quiet rfl rfl
    case cfgRead => split at he <;> exact hq _ _ he.symm
    case lookup => split at he <;> exact hq _ _ he.symm
    case bytesPerFrame => split at he <;> exact hq _ _ he.symm
    case framesFit => split at he <;> exact hq _ _ he.symm
    case framesInPayload =>
      split at he
      · exact hq _ _ he.symm
      · split at he <;> exact hq _ _ he.symm
    case encode => split at he <;> exact hq _ _ he.symm
    case decode => split at he <;> exact hq _ _ he.symm
    case sessionRead => split at he <;> exact hq _ _ he.symm
    case reset => subst he; exact .inr (.inr (.inr ⟨rfl, rfl, rfl⟩))
    case stop k =>
      split at he
      · exact hq _ _ he.symm
      · rename_i sl hs
        rw [teardown_tornDown] at he
        exact tdown _ _ _ _ (hsess hs) he.symm
    case deviceFault k =>
      split at he
      · exact hq _ _ he.symm
      · rename_i sl hs
        rw [freeSlot_eq] at he
        exact cleared _ _ _ _ (hsess hs) he.symm
    case pop k n =>
      split at he
      · exact hq _ _ he.symm
      · rename_i sl hs
        have hsl := hsess hs
        split at he
        · exact hq _ _ he.symm
        · exact hq _ _ he.symm
        · rename_i hst
          unfold popPlaying at he
          split at he <;> subst he
          · refine .inr (.inl ⟨k.toNat, sl, _, _, hsl, rfl, rfl, ?_, ?_, ?_, ?_, ?_⟩)
            · intro j hj; simp [setState_events, hst] at hj; exact hj
            · intro _ _; simp [setState_events, hst]
            · intro _; exact hst
            · intro h; exact absurd hst h
            · intro _; refine ⟨fun h => ?_, fun h => ?_⟩ <;> simp [hst, setState] at h
          · refine .inr (.inl ⟨k.toNat, sl, _, _, hsl, rfl, rfl, by simp, ?_, by simp, ?_, ?_⟩)
            · intro h1 h2; exact absurd hst h2
            · intro h; exact absurd hst h
            · intro _; refine ⟨fun h => ?_, fun h => ?_⟩ <;> simp [hst] at h
        · rename_i hst
          unfold popDraining at he
          dsimp only at he
          split at he <;> subst he
          · refine .inr (.inl ⟨k.toNat, sl, _, _, hsl, rfl, rfl, ?_, ?_, ?_, ?_, ?_⟩)
            · intro j hj; simp [freeSlot_eq, hst] at hj
            · intro h; rw [hst] at h; cases h
            · intro h; simp [freeSlot_eq, hst] at h
            · intro _ h; cases h
            · intro _; exact ⟨fun h => .inr rfl, fun h => by cases h⟩
          · refine .inr (.inl ⟨k.toNat, sl, _, _, hsl, rfl, rfl, by simp, ?_, by simp, ?_, ?_⟩)
            · intro h; rw [hst] at h; cases h
            · intro _ h; rw [hst] at h; cases h
            · intro _; exact ⟨fun h => .inl ⟨hst, rfl, rfl⟩, fun h => .inl hst⟩
    case tick =>
      subst he
      refine .inr (.inr (.inl ⟨fun sl => (tickSlot s.params s.regs 0 sl).1, fun sl => decide ((tickSlot s.params s.regs 0 sl).2.2 = 1 ∧ sl.state = .playing), ?_, ?_, ?_, ?_, ?_, ?_⟩))
      · exact sweep_slots_map _ (fun i sl => by simp only [tickSlot, teardown_tornDown]; split_ifs <;> rfl) _ _
      · simp only [finish_events]
        rw [sweep_events_filter _ (p := fun sl => decide ((tickSlot s.params s.regs 0 sl).2.2 = 1 ∧ sl.state = .playing))]
        intro i sl
        simp only [tickSlot, teardown_tornDown]; split_ifs <;> simp_all
      · intro a h1 h2
        simp only [tickSlot, teardown_tornDown] at h2 ⊢
        split_ifs at h2 ⊢ <;> simp_all
      · intro a h; simp at h; exact h.2
      · intro a h
        simp only [tickSlot, teardown_tornDown, tornDown] at h
        split_ifs at h <;> first | exact h | cases h
      · intro a
        simp only [tickSlot, teardown_tornDown, tornDown]
        constructor
        · intro h; left
          split_ifs <;> simp_all
        · intro h
          split_ifs at h <;> simp_all
    case cfgWrite k v =>
      split at he
      · exact hq _ _ he.symm
      · split at he
        · exact hq _ _ he.symm
        · rename_i k' _ _
          subst he
          split_ifs with hf
          · unfold filterChange
            split_ifs
            · refine .inr (.inr (.inl ⟨fun sl => (filterSlot s.params (s.regs.set k' v) 0 sl).1, fun sl => decide ((filterSlot s.params (s.regs.set k' v) 0 sl).2.2 = 1 ∧ sl.state = .playing), ?_, ?_, ?_, ?_, ?_, ?_⟩))
              · exact sweep_slots_map _ (fun i sl => by simp only [filterSlot, teardown_tornDown]; split_ifs <;> rfl) _ _
              · simp only [finish_events]
                rw [sweep_events_filter _ (p := fun sl => decide ((filterSlot s.params (s.regs.set k' v) 0 sl).2.2 = 1 ∧ sl.state = .playing))]
                intro i sl
                simp only [filterSlot, teardown_tornDown]; split_ifs <;> simp_all
              · intro a h1 h2
                simp only [filterSlot, teardown_tornDown] at h2 ⊢
                split_ifs at h2 ⊢ <;> simp_all
              · intro a h; simp at h; exact h.2
              · intro a h
                simp only [filterSlot, teardown_tornDown, tornDown] at h
                split_ifs at h <;> first | exact h | cases h
              · intro a
                simp only [filterSlot, teardown_tornDown, tornDown]
                constructor
                · intro h; left
                  split_ifs <;> simp_all
                · intro h
                  split_ifs at h <;> simp_all
            · exact shape_quiet rfl rfl
          · exact shape_quiet rfl rfl

/-- The STOPPED events of a sweep are those of the slots that meet its condition. -/
theorem mem_stop {l : List Slot} {p : Slot → Bool} {k : Nat} {a : Slot} (ha : l[k]? = some a) :
    Event.stopped k ∈ (l.zipIdx.filter fun x => p x.1).map (fun x => Event.stopped x.2) ↔ p a = true := by
  simp only [List.mem_map, List.mem_filter, Event.stopped.injEq]
  constructor
  · rintro ⟨⟨b, j⟩, ⟨hm, hp⟩, rfl⟩
    rw [List.mem_zipIdx_iff_getElem?] at hm
    rw [ha] at hm; cases hm; exact hp
  · intro hp
    exact ⟨(a, k), ⟨by rw [List.mem_zipIdx_iff_getElem?]; exact ha, hp⟩, rfl⟩

end Sys2Proof.Machine
end

