-- ==== Sys2Proof/Laws/PerInstr.lean ====
section
/-! SUPPORT. The per-instruction family RowSelects: the word that the encoder writes for an instruction is selected by the
instruction's row of the opcode table (spec 30_encoding.md R92, R101, opcode_table.json). -/

namespace Sys2Proof.Laws.RowSelects

open Sys2Proof Sys2Proof.Machine

/-- The encoding of `i` is matched by the row of `i`. -/
def Statement (i : Instr) : Prop := (rowOf i).Selects (encode i)

/-- The mask of the OP rows keeps the operation code (R100, R101). -/
theorem opWord_and (opc idx : BitVec 8) (arg : BitVec 16) : opWord opc idx arg &&& 0x000000FF = opc.setWidth 32 := by
  apply BitVec.eq_of_toNat_eq
  have h := opc.isLt
  rw [BitVec.toNat_and, BitVec.toNat_setWidth]
  show (opWord opc idx arg).toNat &&& (2 ^ 8 - 1) = _
  rw [Nat.and_two_pow_sub_one_eq_mod]
  simp only [opWord, BitVec.toNat_append]
  rw [← Nat.shiftLeft_add_eq_or_of_lt h, Nat.shiftLeft_eq]
  omega

/-- An operation request is selected by the row of its operation code. -/
theorem op_selects (opc idx : BitVec 8) (arg : BitVec 16) (val : Word32) (src : SrcAddr) (buf : Bytes) (hdr : Header)
    {row : TableRow} (h : row = opRow (opc.setWidth 32)) :
    row.Selects (opRequest opc idx arg val src buf hdr) := by
  subst h
  exact ⟨rfl, opWord_and opc idx arg⟩

/-- The masks of R92 reach the four bits of the codec and the three of the sub-protocol, and no other bit. -/
theorem wireWord_and (b4 b5 b6 b7 : Byte) : (b7 ++ b6 ++ b5 ++ b4 : BitVec (8 + 8 + 8 + 8)) &&& 0xF00000E0 =
    (codecOf b7 ++ 0#20 ++ subProtocolOf b4 ++ 0#5 : BitVec (4 + 20 + 3 + 5)) := by
  apply BitVec.eq_of_getLsbD_eq
  intro i hi
  simp only [BitVec.getLsbD_and, BitVec.getLsbD_append, codecOf, subProtocolOf, BitVec.getLsbD_extractLsb']
  interval_cases i <;> simp

/-- A datagram is selected by a row whose mask and pattern its sub-protocol and codec meet. -/
theorem wire_selects (sub : BitVec 3) (codec : BitVec 4) (f : WireFields) (b : WireBody) (pattern mask : Word32)
    (hm : 0xF00000E0 &&& mask = mask)
    (hp : (codec ++ 0#20 ++ sub ++ 0#5 : BitVec (4 + 20 + 3 + 5)) &&& mask = pattern) :
    (TableRow.mk .wire pattern mask).Selects (.datagram b.src (wireDatagram sub codec f b)) := by
  refine ⟨rfl, ?_⟩
  show le32 (wireDatagram sub codec f b) 4 &&& mask = pattern
  rw [← hm, ← BitVec.and_assoc, wireDatagram, le32, wireWord_and, byteAt_4_datagramBytes, byteAt_7_datagramBytes,
    codecOf_formatBitByte, subProtocolOf_formatSrByte, hp]

theorem rxPacket (src : SrcAddr) (dg : Bytes) : Statement (.rxPacket src dg) :=
  op_selects _ _ _ _ _ _ _ rfl

theorem txPacket (k : BitVec 16) (pl : Bytes) : Statement (.txPacket k pl) :=
  op_selects _ _ _ _ _ _ _ rfl

theorem pop (slot : BitVec 8) (n : BitVec 16) : Statement (.pop slot n) :=
  op_selects _ _ _ _ _ _ _ rfl

theorem stop (slot : BitVec 8) : Statement (.stop slot) :=
  op_selects _ _ _ _ _ _ _ rfl

theorem tick : Statement (.tick) :=
  op_selects _ _ _ _ _ _ _ rfl

theorem cfgWrite (reg : BitVec 8) (val : Word32) : Statement (.cfgWrite reg val) :=
  op_selects _ _ _ _ _ _ _ rfl

theorem cfgRead (reg : BitVec 8) : Statement (.cfgRead reg) :=
  op_selects _ _ _ _ _ _ _ rfl

theorem sessionRead (slot : BitVec 8) : Statement (.sessionRead slot) :=
  op_selects _ _ _ _ _ _ _ rfl

theorem deviceFault (slot : BitVec 8) : Statement (.deviceFault slot) :=
  op_selects _ _ _ _ _ _ _ rfl

theorem reset : Statement (.reset) :=
  op_selects _ _ _ _ _ _ _ rfl

theorem lookup (fc : BitVec 16) : Statement (.lookup fc) :=
  op_selects _ _ _ _ _ _ _ rfl

theorem bytesPerFrame (fc : BitVec 16) : Statement (.bytesPerFrame fc) :=
  op_selects _ _ _ _ _ _ _ rfl

theorem framesInPayload (fc : BitVec 16) (len : Word32) : Statement (.framesInPayload fc len) :=
  op_selects _ _ _ _ _ _ _ rfl

theorem framesFit (fc : BitVec 16) : Statement (.framesFit fc) :=
  op_selects _ _ _ _ _ _ _ rfl

theorem encode (hdr : Header) (pl : Bytes) : Statement (.encode hdr pl) :=
  op_selects _ _ _ _ _ _ _ rfl

theorem decode (dg : Bytes) : Statement (.decode dg) :=
  op_selects _ _ _ _ _ _ _ rfl

theorem wirePcm (f : WireFields) (b : WireBody) : Statement (.wirePcm f b) :=
  wire_selects _ _ f b 0x00000000 0xF00000E0 (by decide) (by decide)

theorem wireCompressed8 (c : BitVec 3) (f : WireFields) (b : WireBody) : Statement (.wireCompressed8 c f b) :=
  wire_selects _ _ f b 0x80000000 0x800000E0 (by decide) (by revert c; decide)

theorem wireCompressed4 (c : BitVec 2) (f : WireFields) (b : WireBody) : Statement (.wireCompressed4 c f b) :=
  wire_selects _ _ f b 0x40000000 0xC00000E0 (by decide) (by revert c; decide)

theorem wireCompressed2 (c : BitVec 1) (f : WireFields) (b : WireBody) : Statement (.wireCompressed2 c f b) :=
  wire_selects _ _ f b 0x20000000 0xE00000E0 (by decide) (by revert c; decide)

theorem wireCompressed1 (f : WireFields) (b : WireBody) : Statement (.wireCompressed1 f b) :=
  wire_selects _ _ f b 0x10000000 0xF00000E0 (by decide) (by decide)

theorem wireService4 (u : BitVec 2) (c : BitVec 4) (f : WireFields) (b : WireBody) : Statement (.wireService4 u c f b) :=
  wire_selects _ _ f b 0x00000080 0x00000080 (by decide) (by revert u c; decide)

theorem wireService2 (u : BitVec 1) (c : BitVec 4) (f : WireFields) (b : WireBody) : Statement (.wireService2 u c f b) :=
  wire_selects _ _ f b 0x00000040 0x000000C0 (by decide) (by revert u c; decide)

theorem wireService1 (c : BitVec 4) (f : WireFields) (b : WireBody) : Statement (.wireService1 c f b) :=
  wire_selects _ _ f b 0x00000020 0x000000E0 (by decide) (by revert c; decide)

end Sys2Proof.Laws.RowSelects
end

