-- ==== Sys2Proof/Tests/Slice0.lean ====
section
/-! SUPPORT. Tests. The words and bytes decoded here are written out from the tables of 30_encoding.md; the expected results
are the vectors and the programs of 95_test_vectors.md, by their number. The last part shows, for each statement that has
hypotheses, concrete states and operands that meet them. -/

namespace Sys2Proof.Tests.Slice0

open Sys2Proof Sys2Proof.Machine

/-! ## Well-formedness: each check refuses an ill-formed term -/

theorem test_wf_source_width : ¬Instr.WF Params.reference (.rxPacket (2 ^ 32) []) := by decide
theorem test_wf_buffer_length : ¬Bytes.WF (zeros 65536) := by rw [Bytes.WF, zeros_length]; decide
theorem test_wf_header_name : ¬Header.WF { zeroHeader with name := zeros 256 } := by rw [Header.WF, zeros_length]; decide
theorem test_wf_name_length : ¬Bytes.ValidName (List.replicate 17 1) := by decide
theorem test_wf_name_zero : ¬Bytes.ValidName [0x41, 0, 0x42] := by decide
theorem test_wf_wire_name : ¬WireBody.WF Params.reference ⟨0, zeros 15, 0, []⟩ := by decide
theorem test_wf_wire_length : ¬WireBody.WF Params.reference ⟨0, zeros 16, 0, zeros 2021⟩ := by
  rw [WireBody.WF, zeros_length, zeros_length]; decide
theorem test_wf_wire_source : ¬WireBody.WF Params.reference ⟨2 ^ 32, zeros 16, 0, []⟩ := by decide
theorem test_wf_params_sessions : ¬Params.WF { Params.reference with nSessions := 257 } := by decide
theorem test_wf_params_packet : ¬Params.WF { Params.reference with maxPacketSize := 1436 } := by decide
theorem test_wf_params_rate : ¬Params.WF { Params.reference with srTable := List.replicate 32 (some (2 ^ 20)) } := by decide
theorem test_wf_request_header : ¬Request.WF Params.reference (.op 0 0 0 [] { zeroHeader with name := zeros 256 }) := by
  rw [Request.WF, Header.WF, zeros_length]; decide
theorem test_wf_reference : Params.reference.WF := by decide

/-! ## Decoding: words of the OP rows (R100, R101) and datagrams of the WIRE rows (R80, R92) -/

/-- "Stream1" padded to 16 bytes (R89). -/
def stream1Field : Bytes := [0x53, 0x74, 0x72, 0x65, 0x61, 0x6D, 0x31] ++ List.replicate 9 0

/-- The datagram of R80 with bytes 4 to 7 as given, name "Stream1", counter `c` below 256, and a payload. -/
def dgram (b4 b5 b6 b7 c : Byte) (pl : Bytes) : Bytes :=
  [0x56, 0x42, 0x41, 0x4E, b4, b5, b6, b7] ++ stream1Field ++ [c, 0, 0, 0] ++ pl

/-- The header that DECODE reads from `dgram` when byte 4 is the rate index and byte 7 the data type. -/
def hdr (sr : BitVec 5) (nbs nbc : Byte) (dt : BitVec 3) (c : Word32) : Header :=
  ⟨0, sr, nbs, nbc, dt, 0, 0, [0x53, 0x74, 0x72, 0x65, 0x61, 0x6D, 0x31], c⟩

/-- The four frames of `D("Stream1", c, 4)` (95_test_vectors.md section 0), `b` being 16 times c. -/
def frames4 (b : Byte) : Bytes := [b, 0, b + 1, 0, b + 2, 0, b + 3, 0]

/-- `D("Stream1", 1, 4)`. -/
def d1 : Bytes := dgram 0x07 0x03 0x00 0x01 0x01 (frames4 0x10)

/-- `D("Stream1", 2, 4)`. -/
def d2 : Bytes := dgram 0x07 0x03 0x00 0x01 0x02 (frames4 0x20)

theorem test_decode_rxPacket : decode Params.reference (.op 0x00000001 0 7 d1 zeroHeader) = .ok (.rxPacket 7 d1) := rfl
theorem test_decode_txPacket : decode Params.reference (.op 0x00040002 0 0 [1] zeroHeader) = .ok (.txPacket 4 [1]) := rfl
theorem test_decode_pop : decodeTableWord 32 0x00060003 = some (.pop 0 6) := by decide
theorem test_decode_stop : decodeTableWord 32 0x00000104 = some (.stop 1) := by decide
theorem test_decode_tick : decodeTableWord 32 0xFFFF0005 = some .tick := by decide
theorem test_decode_cfgWrite : decodeTableWord 64 0x0001234500000206 = some (.cfgWrite 0x02 0x00012345) := by decide
theorem test_decode_cfgRead : decodeTableWord 32 0x00001707 = some (.cfgRead 0x17) := by decide
theorem test_decode_sessionRead : decodeTableWord 32 0x0000FF08 = some (.sessionRead 0xFF) := by decide
theorem test_decode_deviceFault : decodeTableWord 32 0x00000109 = some (.deviceFault 1) := by decide
theorem test_decode_reset : decodeTableWord 32 0x0000000A = some .reset := by decide
theorem test_decode_lookup : decodeTableWord 32 0x00390010 = some (.lookup 0x0039) := by decide
theorem test_decode_bytesPerFrame : decodeTableWord 32 0x01190011 = some (.bytesPerFrame 0x0119) := by decide
theorem test_decode_framesInPayload : decodeTableWord 64 0x0000000800390012 = some (.framesInPayload 0x0039 8) := by decide
theorem test_decode_framesFit : decodeTableWord 32 0x07030013 = some (.framesFit 0x0703) := by decide
theorem test_decode_encode : decode Params.reference (.op 0x00000014 0 0 [1] (hdr 7 3 0 1 1)) = .ok (.encode (hdr 7 3 0 1 1) [1]) :=
  rfl
theorem test_decode_decode : decode Params.reference (.op 0x00000015 0 0 d1 zeroHeader) = .ok (.decode d1) := rfl
theorem test_decode_illegal : [0x00, 0x0B, 0x0F, 0x16, 0xFF].map (fun w => decode Params.reference (.op w 0 0 [] zeroHeader)) =
    [.error (.illegalOp 0x00), .error (.illegalOp 0x0B), .error (.illegalOp 0x0F), .error (.illegalOp 0x16),
      .error (.illegalOp 0xFF)] := by rfl

/-- What stands around the wire word of `dgram _ _ _ _ 1 pl`. -/
def body (src : SrcAddr) (c : Word32) (pl : Bytes) : WireBody := ⟨src, stream1Field, c, pl⟩

theorem test_decode_wirePcm : decode Params.reference (.datagram 7 (dgram 0x07 0x03 0x00 0x01 0x01 [9])) =
    .ok (.wirePcm ⟨7, 3, 0, 1, 0⟩ (body 7 1 [9])) := rfl
theorem test_decode_wireCompressed8 : decode Params.reference (.datagram 7 (dgram 0x1F 0xFF 0x80 0xDA 0x01 [9])) =
    .ok (.wireCompressed8 5 ⟨31, 0xFF, 0x80, 2, 1⟩ (body 7 1 [9])) := rfl
theorem test_decode_wireCompressed4 : decode Params.reference (.datagram 7 (dgram 0x07 0x03 0x00 0x61 0x01 [9])) =
    .ok (.wireCompressed4 2 ⟨7, 3, 0, 1, 0⟩ (body 7 1 [9])) := rfl
theorem test_decode_wireCompressed2 : decode Params.reference (.datagram 7 (dgram 0x07 0x03 0x00 0x31 0x01 [9])) =
    .ok (.wireCompressed2 1 ⟨7, 3, 0, 1, 0⟩ (body 7 1 [9])) := rfl
theorem test_decode_wireCompressed1 : decode Params.reference (.datagram 7 (dgram 0x07 0x03 0x00 0x11 0x01 [9])) =
    .ok (.wireCompressed1 ⟨7, 3, 0, 1, 0⟩ (body 7 1 [9])) := rfl
theorem test_decode_wireService4 : decode Params.reference (.datagram 7 (dgram 0xC7 0x03 0x00 0xF1 0x01 [9])) =
    .ok (.wireService4 2 15 ⟨7, 3, 0, 1, 0⟩ (body 7 1 [9])) := rfl
theorem test_decode_wireService2 : decode Params.reference (.datagram 7 (dgram 0x7F 0x03 0x00 0x01 0x01 [9])) =
    .ok (.wireService2 1 0 ⟨31, 3, 0, 1, 0⟩ (body 7 1 [9])) := rfl
theorem test_decode_wireService1 : decode Params.reference (.datagram 7 (dgram 0x27 0x03 0x00 0x11 0x01 [9])) =
    .ok (.wireService1 1 ⟨7, 3, 0, 1, 0⟩ (body 7 1 [9])) := rfl
theorem test_decode_bad_magic : decode Params.reference (.datagram 7 (d1.set 3 0x4D)) = .error .badMagic := rfl
theorem test_row_of_reset : (rowOf .reset).Selects (encode .reset) := ⟨rfl, by decide⟩

/-! ## One step of each instruction -/

/-- START of 95_test_vectors.md: power-on, then LWM_MS = 1, so that an 8000 Hz session has threshold 8. -/
def start : State := { State.reset with regs := State.reset.regs.set .lwmMs 1 }

/-- The format `{8000, 16, 1, LE}`. -/
def fmt8k : FormatDescriptor := ⟨8000, .d16, 1, .le⟩

/-- A session of source 1 and stream "Stream1" in a given state, with a queue and a last counter. -/
def sess (st : PlaybackState) (fifo : List Frame) (last : Word32) : Slot :=
  { Slot.cleared with
    valid := true, src := 1, name := [0x53, 0x74, 0x72, 0x65, 0x61, 0x6D, 0x31], state := st, fmtValid := true, fmt := fmt8k
    seqValid := true, lastSeq := last, fifo := fifo }

/-- START with a session in slot 0. -/
def withSess (sl : Slot) : State := { start with slots := [sl, .cleared] }

/-- The frames of a packet whose first byte is `b`. -/
def fr (b : Byte) : List Frame := [[b, 0], [b + 1, 0], [b + 2, 0], [b + 3, 0]]

/-- The state after an instruction; the meanings answer a next state always. -/
def after (i : Instr) (s : State) : State :=
  match exec i s with
  | .next t => t
  | .fault _ => s
  | .refused _ => s

/-- The result of an instruction. -/
def res (i : Instr) (s : State) : Option Result := (after i s).result

-- RX_PACKET: P1 step 1, and RX6.
theorem test_rx_first : res (.rxPacket 1 d1) start = some ⟨.ok, .rx 0 0x01 0 0⟩ ∧
    (after (.rxPacket 1 d1) start).slots[0]? = some (sess .buffering (fr 0x10) 1) ∧
    (after (.rxPacket 1 d1) start).events = [.reconfigure 0 fmt8k] := by decide
theorem test_rx_rate : res (.rxPacket 1 (d1.set 4 0x15)) start = some ⟨.unsupportedRate, .formatCode 0x00A9⟩ := by decide

-- WIRE_PCM: P1 steps 3 and 5 (the next packet starts; a gap is filled with silence).
theorem test_wirePcm_starts : res (.wirePcm ⟨7, 3, 0, 1, 0⟩ (body 1 2 (frames4 0x20))) (withSess (sess .buffering (fr 0x10) 1)) =
    some ⟨.ok, .rx 0 0x20 0 0⟩ := by decide
theorem test_wirePcm_gap :
    (after (.wirePcm ⟨7, 3, 0, 1, 0⟩ (body 1 4 (frames4 0x40))) (withSess (sess .playing [[0x22, 0], [0x23, 0]] 2))).slots[0]? =
      some (sess .playing ([[0x22, 0], [0x23, 0]] ++ List.replicate 4 [0, 0] ++ fr 0x40) 4) := by decide

-- RX26 and RX28: a regression of SEQ_TOL is late, one beyond it resets the session.
theorem test_rx_late : res (.rxPacket 1 (d1.set 24 6)) (withSess (sess .buffering (fr 0) 10)) = some ⟨.droppedLate, .none⟩ := by
  decide
theorem test_rx_regression :
    res (.rxPacket 1 (d1.set 27 0x80 |>.set 24 0)) (withSess (sess .buffering (fr 0) 0)) =
      some ⟨.rejectedSeqRegression, .none⟩ := by decide

-- The forwarding classes: RX4, RX5 and their datagrams whole.
theorem test_wireCompressed1 : (after (.wireCompressed1 ⟨7, 3, 0, 1, 0⟩ (body 1 1 (frames4 0x10))) start).events =
    [.forward .compressed 1 (d1.set 7 0x11)] := by decide
theorem test_wireCompressed2 : (after (.wireCompressed2 1 ⟨7, 3, 0, 1, 0⟩ (body 1 1 (frames4 0x10))) start).events =
    [.forward .compressed 1 (d1.set 7 0x31)] := by decide
theorem test_wireCompressed4 : (after (.wireCompressed4 3 ⟨7, 3, 0, 1, 0⟩ (body 1 1 (frames4 0x10))) start).events =
    [.forward .compressed 1 (d1.set 7 0x71)] := by decide
theorem test_wireCompressed8 : (after (.wireCompressed8 7 ⟨7, 3, 0, 1, 0⟩ (body 1 1 (frames4 0x10))) start).events =
    [.forward .compressed 1 (d1.set 7 0xF1)] := by decide
theorem test_wireService1 : (after (.wireService1 0 ⟨7, 3, 0, 1, 0⟩ (body 1 1 (frames4 0x10))) start).events =
    [.forward .service 1 (d1.set 4 0x27)] := by decide
theorem test_wireService2 : (after (.wireService2 1 0 ⟨31, 3, 0, 1, 0⟩ (body 1 1 (frames4 0x10))) start).events =
    [.forward .service 1 (d1.set 4 0x7F)] := by decide
theorem test_wireService4 : res (.wireService4 3 0 ⟨7, 3, 0, 1, 0⟩ (body 1 1 [])) start = some ⟨.forwardedService, .none⟩ := by
  decide

-- TX_PACKET: TX3 and TX4.
theorem test_tx_ok : res (.txPacket 1 [1, 2, 3, 4]) start =
    some ⟨.ok, .bytes ([0x56, 0x42, 0x41, 0x4E, 0x03, 0x00, 0x01, 0x01] ++ List.replicate 20 0 ++ [1, 2, 3, 4])⟩ := by decide
-- TX12: a transmit name of sixteen bytes, written word by word.
theorem test_tx_name : (runAll [.cfgWrite 0x0C 0x44434241, .cfgWrite 0x0D 0x48474645, .cfgWrite 0x0E 0x4C4B4A49,
      .cfgWrite 0x0F 0x504F4E4D, .txPacket 1 [1, 2, 3, 4]] start).bind (·.result) =
    some ⟨.ok, .bytes ([0x56, 0x42, 0x41, 0x4E, 0x03, 0x00, 0x01, 0x01,
      0x41, 0x42, 0x43, 0x44, 0x45, 0x46, 0x47, 0x48, 0x49, 0x4A, 0x4B, 0x4C, 0x4D, 0x4E, 0x4F, 0x50,
      0x00, 0x00, 0x00, 0x00] ++ [1, 2, 3, 4])⟩ := by decide
theorem test_tx_mismatch : res (.txPacket 1 [0, 0, 0]) start = some ⟨.txPayloadMismatch, .none⟩ := by decide

-- POP: P1 step 4, and step 8 (underrun).
theorem test_pop_some : (after (.pop 0 6) (withSess (sess .playing (fr 0x10 ++ fr 0x20) 2))).result =
    some ⟨.ok, .frames (fr 0x10 ++ [[0x20, 0], [0x21, 0]])⟩ := by decide
theorem test_pop_underrun : (after (.pop 0 1) (withSess (sess .playing [] 5))).events = [.stopped 0] ∧
    res (.pop 0 1) (withSess (sess .playing [] 5)) = some ⟨.popUnderrun, .frames []⟩ := by decide

-- STOP: ST3, ST2. DEVICE_FAULT: DF2, DF1.
theorem test_stop_playing : res (.stop 0) (withSess (sess .playing (fr 0x10) 2)) = some ⟨.ok, .playback .draining⟩ := by decide
theorem test_stop_buffering : (after (.stop 0) (withSess (sess .buffering (fr 0x10) 1))).slots = [.cleared, .cleared] := by decide
theorem test_deviceFault_playing : (after (.deviceFault 0) (withSess (sess .playing (fr 0x10) 2))).events = [.stopped 0] := by
  decide
theorem test_deviceFault_free : res (.deviceFault 0) start = some ⟨.noSession, .slotIndex 0⟩ := by decide

-- TICK: TK5 (the third tick frees a Buffering session), and TK1.
theorem test_tick_expires : res .tick (withSess { sess .buffering (fr 0x10) 1 with idleTicks := 2 }) = some ⟨.ok, .count 1⟩ := by
  decide
theorem test_tick_ages : ((after .tick (withSess (sess .playing (fr 0x10) 1))).slots[0]?).map (·.idleTicks) = some 1 := by decide

-- CFG_WRITE: CF7, CF11. CFG_READ: CF1, CF5.
theorem test_cfgWrite_reserved : res (.cfgRead 0x06) (after (.cfgWrite 0x06 0xFFFFFFFF) start) = some ⟨.ok, .word 0x00F7FFFF⟩ := by
  decide
theorem test_cfgWrite_counter : res (.cfgWrite 0x10 1) start = some ⟨.cfgReadOnly, .none⟩ := by decide
theorem test_cfgRead_port : res (.cfgRead 0x05) start = some ⟨.ok, .word 0x00001B44⟩ := by decide
theorem test_cfgRead_unmapped : res (.cfgRead 0x1E) start = some ⟨.cfgUnmapped, .word 0⟩ := by decide

-- By hand from R32: the name ends at the first 0x00 of the field, and the bytes after it (all ones) do not count.
theorem test_filter_cut : ((runAll [.cfgWrite 0x08 0x65727453, .cfgWrite 0x09 0x00316D61, .cfgWrite 0x0A 0xFFFFFFFF,
      .cfgWrite 0x0B 0xFFFFFFFF, .cfgWrite 0x00 1, .rxPacket 1 d1] start).bind (·.result)) =
    some ⟨.ok, .rx 0 0x01 0 0⟩ := by decide
-- CF8: CTRL = 3 with the empty filter name tears a named session down.
theorem test_cfgWrite_filter : (after (.cfgWrite 0x00 3) (withSess (sess .playing (fr 0x10) 1))).events = [.stopped 0] := by decide

-- SESSION_READ: CF16 (threshold 8, fill 4) and CF17.
theorem test_sessionRead_view : (res (.sessionRead 0) (withSess (sess .buffering (fr 0x10) 1))) =
    some ⟨.ok, .session ⟨true, 1, [0x53, 0x74, 0x72, 0x65, 0x61, 0x6D, 0x31], .buffering, true, fmt8k, true, 1, 4, fr 0x10, 8,
      false, false, 0⟩⟩ := by decide
theorem test_sessionRead_range : res (.sessionRead 2) start = some ⟨.noSession, .slotIndex 2⟩ := by decide

-- RESET: RS1.
theorem test_reset : (after .reset (withSess (sess .playing (fr 0x10) 2))).slots = [.cleared, .cleared] ∧
    res (.cfgRead 0x02) (after .reset start) = some ⟨.ok, .word 100⟩ := by decide

-- LOOKUP: FT3, FT10. The frame arithmetic: FA4, FA3, FA9, FA7, FA14, FA12.
theorem test_lookup_last : res (.lookup 0xFFA3) start = some ⟨.ok, .descriptor ⟨705600, .d32, 256, .le⟩⟩ := by decide
theorem test_lookup_rate_first : res (.lookup 0xFFFF) start = some ⟨.unsupportedRate, .formatCode 0xFFFF⟩ := by decide
theorem test_bytesPerFrame_three : res (.bytesPerFrame 0x0002) start = some ⟨.ok, .count 3⟩ := by decide
theorem test_bytesPerFrame_largest : res (.bytesPerFrame 0xFFA3) start = some ⟨.ok, .count 1024⟩ := by decide
theorem test_framesInPayload_large : res (.framesInPayload 0x0002 0xFFFFFFFF) start = some ⟨.ok, .count 1431655765⟩ := by decide
theorem test_framesInPayload_rest : res (.framesInPayload 0x0039 7) start = some ⟨.malformedPayloadNotMultiple, .none⟩ := by decide
theorem test_framesFit : res (.framesFit 0x0703) start = some ⟨.ok, .count 63⟩ := by decide
theorem test_framesFit_cap : res (.framesFit 0x0039) start = some ⟨.ok, .count 256⟩ := by decide

-- ENCODE: EN1, EN8. DECODE: DE1, DE7.
theorem test_encode : res (.encode (hdr 7 3 0 1 1) (frames4 0x10)) start = some ⟨.ok, .bytes d1⟩ := by decide
theorem test_encode_name_first : res (.encode { zeroHeader with name := [0x41, 0] } (zeros 2021)) start =
    some ⟨.encodeBadName, .none⟩ := by decide
theorem test_decode_header : res (.decode d1) start = some ⟨.ok, .packet (hdr 7 3 0 1 1) (frames4 0x10)⟩ := by decide
theorem test_decode_short : res (.decode (List.replicate 20 0x58)) start = some ⟨.malformedTruncated, .none⟩ := by decide

-- RX24: two thousand million lost packets, by the closed form of R194.
theorem test_rx_huge_gap :
    res (.rxPacket 1 (dgram 0x07 0x00 0x00 0x01 0xFF [0xF0, 0] |>.set 25 0xFF |>.set 26 0xFF |>.set 27 0x7F))
      (withSess (sess .buffering (fr 0) 0)) = some ⟨.ok, .rx 0 0x34 2147483646 2147483635⟩ := by decide

-- Steps: a request is taken and decoded; IL1; an idle block keeps its state.
theorem test_step_runs : step (start.withFetchWord 32 0x00000507) =
    .next { start with result := some ⟨.ok, .word 0x00001B44⟩ } := by rfl
theorem test_step_illegal : step { start with requests := [.op 0x00000016 0 0 [] zeroHeader] } =
    .next { start with result := some ⟨.illegalOp, .none⟩ } := by rfl
theorem test_step_idle : step State.reset = .next State.reset := rfl

-- Assembler text (R104), and the words of "Stream1" (CF13, P2).
theorem test_asm_pop : asmText (.pop 0 6) = "POP slot=0, n=6".toList := by decide
theorem test_asm_rx : asmText (.rxPacket 1 [0x56, 0x0A]) = "RX_PACKET src=1, dg=56 0A".toList := by decide
theorem test_setFilter : setFilter [0x53, 0x74, 0x72, 0x65, 0x61, 0x6D, 0x31] true =
    [.cfgWrite 0 2, .cfgWrite 8 0x65727453, .cfgWrite 9 0x00316D61, .cfgWrite 10 0, .cfgWrite 11 0, .cfgWrite 0 3] := by decide
theorem test_setTxFormat : setTxFormat 7 0 1 1 0 = [.cfgWrite 6 0x00010007] := by decide

/-! ## Witnesses: states and operands that meet the hypotheses of each statement, clause by clause -/

/-- The session of `sess`, with nothing negotiated: what a regression reset leaves. -/
def idleSess : Slot := { Slot.cleared with valid := true, src := 1, name := [0x53, 0x74, 0x72, 0x65, 0x61, 0x6D, 0x31] }

theorem regs_start : RegsInv start.regs := regsInv_set (regsInv_reset _) _ _

/-- A session that meets the slot invariants, in slot 0 of START, makes a legal state. -/
theorem inv_withSess {sl : Slot} (h : SlotInv Params.reference sl) : Inv (withSess sl) where
  params := test_wf_reference
  slotCount := rfl
  slots := by
    intro x hx
    simp only [withSess, List.mem_cons, List.not_mem_nil, or_false] at hx
    rcases hx with rfl | rfl
    · exact h
    · exact slotInv_cleared _
  keys := by
    refine List.Pairwise.cons (fun x hx _ h => ?_) (List.pairwise_singleton _ _)
    rw [List.mem_singleton.1 hx] at h
    cases h
  regs := regs_start
  requests := nofun

theorem inv_playing : Inv (withSess (sess .playing (fr 0x10) 10)) := inv_withSess (by decide)
theorem inv_buffering : Inv (withSess (sess .buffering (fr 0x10) 10)) := inv_withSess (by decide)
theorem inv_draining : Inv (withSess (sess .draining (fr 0x10) 10)) := inv_withSess (by decide)
theorem inv_idle : Inv (withSess idleSess) := inv_withSess (by decide)
theorem inv_start : Inv start := inv_withSess (sl := .cleared) (slotInv_cleared _)

/-- Both slots taken by sources 2 and 3. -/
def full : State :=
  { start with slots := [{ sess .playing (fr 0x10) 1 with src := 2 }, { sess .draining [] 1 with src := 3 }] }

theorem inv_full : Inv full where
  params := test_wf_reference
  slotCount := rfl
  slots := by decide
  keys := by decide
  regs := regs_start
  requests := nofun

/-- The WIRE_PCM instruction of a "Stream1" packet. -/
def pcm (sr : BitVec 5) (nbs nbc : Byte) (dt : BitVec 3) (c : Word32) (pl : Bytes) : Instr :=
  .wirePcm ⟨sr, nbs, nbc, dt, 0⟩ (body 1 c pl)

theorem delivers_pcm (p : Params) (sr : BitVec 5) (nbs nbc : Byte) (dt : BitVec 3) (c : Word32) (pl : Bytes) :
    DeliversPcm p (pcm sr nbs nbc dt c pl) 1 (hdr sr nbs nbc dt c) pl :=
  ⟨rfl, rfl, .inr ⟨stream1Field, rfl, rfl⟩⟩

theorem delivers_rx : DeliversPcm Params.reference (.rxPacket 1 d1) 1 (hdr 7 3 0 1 1) (frames4 0x10) :=
  ⟨rfl, rfl, .inl ⟨d1, rfl, by decide⟩⟩

-- The format statements: the last mapped code, the first unmapped rate and the first unmapped data type.
theorem witness_format : Maps Params.reference 0xFFA3 ⟨705600, .d32, 256, .le⟩ ∧ UnmappedRate Params.reference 0x00A8 ∧
    UnmappedDepth Params.reference 0x0004 ∧ Params.reference.WF := by decide
theorem witness_FramesInPayloadResult : Maps Params.reference 0x0039 fmt8k ∧
    (8 : Word32).toNat % (fmt8k.channelCount * (fmt8k.bitsPerSample.bits / 8)) = 0 ∧
    (7 : Word32).toNat % (fmt8k.channelCount * (fmt8k.bitsPerSample.bits / 8)) ≠ 0 := by decide
theorem witness_FramesInPayloadRoundTrip : Maps Params.reference 0x0039 fmt8k ∧
    fmt8k.channelCount * (fmt8k.bitsPerSample.bits / 8) * (2 ^ 31 - 1) < 2 ^ 32 := by decide
theorem witness_DefaultTableMaps : State.reset.params.srTable = defaultSrTable ∧ res (.lookup 0xFFA3) State.reset =
    some ⟨.ok, .descriptor ⟨705600, .d32, 256, .le⟩⟩ := by decide

-- The codec, at its limits: 16 and 17 bytes of name, 2048 and 2049 bytes of datagram, 27 and 28 bytes.
theorem witness_EncodeResult :
    ((List.replicate 16 (1 : Byte)).length ≤ 16 ∧ (0 : Byte) ∉ List.replicate 16 (1 : Byte)) ∧
    16 < (List.replicate 17 (1 : Byte)).length ∧ (0 : Byte) ∈ [(0x41 : Byte), 0] ∧
    28 + (zeros 2020).length ≤ State.reset.params.maxPacketSize ∧
    State.reset.params.maxPacketSize < 28 + (zeros 2021).length := by
  refine ⟨by decide, by decide, by decide, ?_, ?_⟩ <;> rw [zeros_length] <;> decide
theorem witness_DecodeResult : WellStructured Params.reference (d1.take 28) ∧ (d1.take 27).length < 28 ∧
    28 ≤ (zeros 2049).length ∧ Params.reference.maxPacketSize < (zeros 2049).length ∧
    (28 ≤ (d1.set 3 0x4D).length ∧ (d1.set 3 0x4D).length ≤ Params.reference.maxPacketSize ∧
      (d1.set 3 0x4D).take 4 ≠ [0x56, 0x42, 0x41, 0x4E]) := by
  refine ⟨by decide, by decide, ?_, ?_, by decide⟩ <;> rw [zeros_length] <;> decide
theorem witness_EncodeDecodeRoundTrip : Bytes.ValidName (hdr 7 3 0 1 1).name ∧
    28 + (frames4 0x10).length ≤ State.reset.params.maxPacketSize := by decide
theorem witness_BadMagicReadsNothingElse : (d1.set 3 0x4D).length = (d2.set 0 0).length ∧
    (d1.set 3 0x4D).take 4 ≠ [0x56, 0x42, 0x41, 0x4E] ∧ (d2.set 0 0).take 4 ≠ [0x56, 0x42, 0x41, 0x4E] := by decide

-- The playback buffer.
theorem witness_PushClosedForm : 1 ≤ 1 ∧ ([[1, 0]] : List Frame).length ≤ 1 := by decide
theorem witness_PopWithoutPlaying : (Inv start ∧ NoSessionAt start 2 ∧ NoSessionAt start 0) ∧
    (withSess idleSess).slots[0]? = some idleSess ∧ idleSess.valid = true ∧ idleSess.state = .idle :=
  ⟨⟨inv_start, .inl (by decide), .inr ⟨.cleared, rfl, rfl⟩⟩, rfl, rfl, rfl⟩
theorem witness_PopDeliversFrames : (withSess (sess .playing (fr 0x10) 1)).slots[0]? = some (sess .playing (fr 0x10) 1) ∧
    (sess .playing (fr 0x10) 1).valid = true ∧ (sess .playing (fr 0x10) 1).state = .playing ∧
    (4 : BitVec 16).toNat ≤ (sess .playing (fr 0x10) 1).fifo.length := by decide
theorem witness_PopUnderrun : (withSess (sess .playing (fr 0x10) 1)).slots[0]? = some (sess .playing (fr 0x10) 1) ∧
    (sess .playing (fr 0x10) 1).valid = true ∧ (sess .playing (fr 0x10) 1).state = .playing ∧
    (sess .playing (fr 0x10) 1).fifo.length < (5 : BitVec 16).toNat := by decide
theorem witness_PopDrains : (withSess (sess .draining (fr 0x10) 1)).slots[0]? = some (sess .draining (fr 0x10) 1) ∧
    (sess .draining (fr 0x10) 1).valid = true ∧ (sess .draining (fr 0x10) 1).state = .draining ∧
    (3 : BitVec 16).toNat < (sess .draining (fr 0x10) 1).fifo.length ∧
    (sess .draining (fr 0x10) 1).fifo.length ≤ (4 : BitVec 16).toNat := by decide

/-- STOP of a Playing session: the premises of DrainingMoves and of StoppedOnEveryExit. -/
theorem witness_moves : Inv (withSess (sess .playing (fr 0x10) 10)) ∧
    exec (.stop 0) (withSess (sess .playing (fr 0x10) 10)) =
      .next (after (.stop 0) (withSess (sess .playing (fr 0x10) 10))) ∧
    (withSess (sess .playing (fr 0x10) 10)).slots[0]? = some (sess .playing (fr 0x10) 10) ∧
    (after (.stop 0) (withSess (sess .playing (fr 0x10) 10))).slots[0]? = some (sess .draining (fr 0x10) 10) ∧
    Event.stopped 0 ∈ (after (.stop 0) (withSess (sess .playing (fr 0x10) 10))).events.drop 0 :=
  ⟨inv_playing, rfl, rfl, rfl, by decide⟩
theorem witness_DrainingMoves : Inv (withSess (sess .draining (fr 0x10) 10)) ∧
    exec (.pop 0 4) (withSess (sess .draining (fr 0x10) 10)) =
      .next (after (.pop 0 4) (withSess (sess .draining (fr 0x10) 10))) ∧
    (withSess (sess .draining (fr 0x10) 10)).slots[0]? = some (sess .draining (fr 0x10) 10) ∧
    (after (.pop 0 4) (withSess (sess .draining (fr 0x10) 10))).slots[0]? = some .cleared :=
  ⟨inv_draining, rfl, rfl, rfl⟩

/-- The packet that starts playback. -/
theorem witness_PlayingOnlyByPush : ∃ a b t,
    exec (.rxPacket 1 d2) (withSess (sess .buffering (fr 0x10) 1)) = .next t ∧
    (withSess (sess .buffering (fr 0x10) 1)).slots[0]? = some a ∧ t.slots[0]? = some b ∧ a.state ≠ .playing ∧
    b.state = .playing :=
  ⟨_, { sess .playing (fr 0x10 ++ fr 0x20) 2 with startedNotified := true },
    after (.rxPacket 1 d2) (withSess (sess .buffering (fr 0x10) 1)), rfl, rfl, by decide, by decide, rfl⟩

-- Receiving: structure and dispatch.
theorem witness_MalformedDatagramCounted : ¬WellStructured Params.reference (d1.take 27) ∧
    ¬WellStructured Params.reference (zeros 2049) ∧ ¬WellStructured Params.reference (d1.set 3 0x4D) := by
  refine ⟨by decide, fun h => ?_, by decide⟩
  have := h.2.1
  rw [zeros_length] at this
  exact absurd this (by decide)
theorem witness_RxPacketForwards :
    Decodes Params.reference (d1.set 4 0x7F) { hdr 31 3 0 1 1 with subProtocol := 3 } (frames4 0x10) ∧
    Decodes Params.reference (d1.set 7 0xF1) { hdr 7 3 0 1 1 with codec := 15 } (frames4 0x10) := by decide
theorem witness_WireClassesForward :
    (8 : BitVec 4).toNat = 8 + (0 : BitVec 3).toNat ∧ (15 : BitVec 4).toNat = 8 + (7 : BitVec 3).toNat ∧
    (7 : BitVec 4).toNat = 4 + (3 : BitVec 2).toNat ∧ (2 : BitVec 4).toNat = 2 + (0 : BitVec 1).toNat ∧
    (1 : BitVec 4).toNat = 1 ∧ (4 : BitVec 3).toNat = 4 + (0 : BitVec 2).toNat ∧
    (7 : BitVec 3).toNat = 4 + (3 : BitVec 2).toNat ∧ (3 : BitVec 3).toNat = 2 + (1 : BitVec 1).toNat ∧
    (1 : BitVec 3).toNat = 1 := by decide
theorem witness_DatagramIsRxPacket : (0xFFFFFF01 : Word32).toNat % 256 = 1 ∧ WellStructured Params.reference d1 := by decide

-- Receiving: the refusals before the session lookup. The filter is enabled with the empty name; depth 24 is not enabled.
/-- START with the filter enabled on the empty name. -/
def filtered : State := { start with regs := start.regs.set .ctrl 1 }

theorem witness_RefusedBeforeLookup :
    DeliversPcm Params.reference (.rxPacket 1 d1) 1 (hdr 7 3 0 1 1) (frames4 0x10) ∧
    (0x0039 : BitVec 16).toNat = headerCode (hdr 7 3 0 1 1) ∧
    (0x00A8 : BitVec 16).toNat = headerCode (hdr 21 3 0 0 1) ∧ UnmappedRate Params.reference 0x00A8 ∧
    (0x003C : BitVec 16).toNat = headerCode (hdr 7 3 0 4 1) ∧ UnmappedDepth Params.reference 0x003C ∧
    Maps Params.reference 0x0039 fmt8k ∧ ([0, 0, 0] : Bytes).length % bpf fmt8k ≠ 0 ∧
    ((zeros 6).length % bpf fmt8k = 0 ∧ (zeros 6).length < ((hdr 7 3 0 1 1).nbsMinus1.toNat + 1) * bpf fmt8k) :=
  ⟨delivers_rx, by decide⟩
theorem witness_RefusedBeforeLookup_filter : PayloadFits filtered.params (hdr 7 3 0 1 1) (frames4 0x10) fmt8k ∧
    ¬PassesFilter filtered.regs (hdr 7 3 0 1 1).name := by decide
theorem witness_RefusedBeforeLookup_depth : PayloadFits start.params (hdr 7 0 0 2 1) [1, 2, 3] ⟨8000, .d24, 1, .le⟩ ∧
    PassesFilter start.regs (hdr 7 0 0 2 1).name ∧ ¬DepthEnabled start.regs ⟨8000, .d24, 1, .le⟩ := by decide

-- Receiving: the refusals that need the sessions; SEQ_TOL is 4, and the limits are a distance of 0, 4 and 5.
theorem witness_RefusedByLookup_noSlot : Inv full ∧ Admissible full (hdr 7 3 0 1 1) (frames4 0x10) fmt8k ∧
    NoSessionOf full 1 (hdr 7 3 0 1 1).name ∧ ∀ sl ∈ full.slots, sl.valid = true :=
  ⟨inv_full, by decide, by decide, by decide⟩
theorem witness_RefusedByLookup_draining : Inv (withSess (sess .draining (fr 0x10) 10)) ∧
    Admissible (withSess (sess .draining (fr 0x10) 10)) (hdr 7 3 0 1 11) (frames4 0x10) fmt8k ∧
    SessionAt (withSess (sess .draining (fr 0x10) 10)) 0 1 (hdr 7 3 0 1 11).name (sess .draining (fr 0x10) 10) ∧
    (sess .draining (fr 0x10) 10).state = .draining := ⟨inv_draining, by decide, by decide, rfl⟩
theorem witness_session : Inv (withSess (sess .buffering (fr 0x10) 10)) ∧
    DeliversPcm Params.reference (pcm 7 3 0 1 10 (frames4 0xA0)) 1 (hdr 7 3 0 1 10) (frames4 0xA0) ∧
    Admissible (withSess (sess .buffering (fr 0x10) 10)) (hdr 7 3 0 1 10) (frames4 0xA0) fmt8k ∧
    SessionAt (withSess (sess .buffering (fr 0x10) 10)) 0 1 (hdr 7 3 0 1 10).name (sess .buffering (fr 0x10) 10) ∧
    (sess .buffering (fr 0x10) 10).state ≠ .draining ∧ (sess .buffering (fr 0x10) 10).seqValid = true :=
  ⟨inv_buffering, delivers_pcm _ _ _ _ _ _ _, by decide, by decide, by decide, rfl⟩
theorem witness_RefusedByLookup_late :
    (((hdr 7 3 0 1 10).frameCounter - (sess .buffering (fr 0x10) 10).lastSeq).toInt ≤ 0 ∧
      -((hdr 7 3 0 1 10).frameCounter - (sess .buffering (fr 0x10) 10).lastSeq).toInt ≤ (start.regs.get .seqTol).toNat) ∧
    ((hdr 7 3 0 1 6).frameCounter - (sess .buffering (fr 0x10) 10).lastSeq).toInt ≤ 0 ∧
    -((hdr 7 3 0 1 6).frameCounter - (sess .buffering (fr 0x10) 10).lastSeq).toInt ≤ (start.regs.get .seqTol).toNat := by decide
theorem witness_RegressionResetsSession : ((start.regs.get .seqTol).toNat : Int) <
    -((hdr 7 3 0 1 5).frameCounter - (sess .buffering (fr 0x10) 10).lastSeq).toInt := by decide

-- Receiving: accepted packets.
theorem witness_FirstPacketAccepted_new : Inv start ∧
    DeliversPcm start.params (.rxPacket 1 d1) 1 (hdr 7 3 0 1 1) (frames4 0x10) ∧
    Admissible start (hdr 7 3 0 1 1) (frames4 0x10) fmt8k ∧ NoSessionOf start 1 (hdr 7 3 0 1 1).name ∧ LowestFree start 0 :=
  ⟨inv_start, delivers_rx, by decide, by decide, ⟨.cleared, rfl, rfl⟩, fun _ h => absurd h (Nat.not_lt_zero _)⟩
theorem witness_FirstPacketAccepted_reset : Inv (withSess idleSess) ∧
    Admissible (withSess idleSess) (hdr 7 3 0 1 1) (frames4 0x10) fmt8k ∧
    SessionAt (withSess idleSess) 0 1 (hdr 7 3 0 1 1).name idleSess ∧ idleSess.fmtValid = false :=
  ⟨inv_idle, by decide, by decide, rfl⟩
theorem witness_NextPacketAccepted : Inv (withSess (sess .playing (fr 0x10) 10)) ∧
    Admissible (withSess (sess .playing (fr 0x10) 10)) (hdr 7 3 0 1 11) (frames4 0xB0) fmt8k ∧
    SessionAt (withSess (sess .playing (fr 0x10) 10)) 0 1 (hdr 7 3 0 1 11).name (sess .playing (fr 0x10) 10) ∧
    (sess .playing (fr 0x10) 10).state ≠ .draining ∧ (sess .playing (fr 0x10) 10).fmtValid = true ∧
    (sess .playing (fr 0x10) 10).fmt = fmt8k ∧ GapIs (sess .playing (fr 0x10) 10) 11 0 ∧
    GapIs (sess .playing (fr 0x10) 10) (10 + 0x7FFFFFFF) 2147483646 :=
  ⟨inv_playing, by decide, by decide, by decide, rfl, rfl, by decide, by decide⟩
theorem witness_FormatChangeAccepted : Inv (withSess (sess .playing (fr 0x10) 10)) ∧
    DeliversPcm Params.reference (pcm 7 1 1 1 12 (frames4 0xC0)) 1 (hdr 7 1 1 1 12) (frames4 0xC0) ∧
    Admissible (withSess (sess .playing (fr 0x10) 10)) (hdr 7 1 1 1 12) (frames4 0xC0) ⟨8000, .d16, 2, .le⟩ ∧
    SessionAt (withSess (sess .playing (fr 0x10) 10)) 0 1 (hdr 7 1 1 1 12).name (sess .playing (fr 0x10) 10) ∧
    (sess .playing (fr 0x10) 10).fmt ≠ ⟨8000, .d16, 2, .le⟩ ∧ GapIs (sess .playing (fr 0x10) 10) 12 1 :=
  ⟨inv_playing, delivers_pcm _ _ _ _ _ _ _, by decide, by decide, by decide, by decide⟩
theorem witness_SessionsIndependent : DeliversPcm full.params (.rxPacket 1 d1) 1 (hdr 7 3 0 1 1) (frames4 0x10) ∧
    exec (.rxPacket 1 d1) full = .next (after (.rxPacket 1 d1) full) ∧
    full.slots[0]? = some { sess .playing (fr 0x10) 1 with src := 2 } ∧
    ¬((2 : SrcAddr) = 1 ∧ (sess .playing (fr 0x10) 1).name = (hdr 7 3 0 1 1).name) :=
  ⟨delivers_rx, rfl, rfl, by decide⟩
theorem witness_ErrorsChangeNothing : exec (.rxPacket 1 (d1.take 27)) start = .next (after (.rxPacket 1 (d1.take 27)) start) ∧
    (after (.rxPacket 1 (d1.take 27)) start).result = some ⟨.malformedTruncated, .none⟩ ∧
    ResultCode.isSuccess .malformedTruncated = false ∧ ResultCode.malformedTruncated ≠ .rejectedSeqRegression :=
  ⟨rfl, rfl, rfl, by decide⟩
theorem witness_StatisticsCount : exec (.rxPacket 1 d1) start = .next (after (.rxPacket 1 d1) start) ∧
    (after (.rxPacket 1 d1) start).result = some ⟨.ok, .rx 0 0x01 0 0⟩ ∧ Instr.rxPacket 1 d1 ≠ .reset :=
  ⟨rfl, by decide, nofun⟩
/-- A gap in the session's own format, and one with a format change (stereo). -/
theorem witness_StatisticsCount_gap :
    (DeliversPcm Params.reference (pcm 7 3 0 1 4 (frames4 0x40)) 1 (hdr 7 3 0 1 4) (frames4 0x40) ∧
      res (pcm 7 3 0 1 4 (frames4 0x40)) (withSess (sess .playing (fr 0x10) 2)) = some ⟨.ok, .rx 0 0x04 1 0⟩) ∧
    res (pcm 7 1 1 1 4 (frames4 0x40)) (withSess (sess .playing (fr 0x10) 2)) = some ⟨.ok, .rx 0 0x06 1 0⟩ :=
  ⟨⟨delivers_pcm _ _ _ _ _ _ _, by decide⟩, by decide⟩

-- Transmitting. TX_FORMAT is 0x00010103 at START: 48000 Hz, 2 channels, 16 bits.
/-- START with another TX_FORMAT. -/
def txAs (f : Word32) : State := { start with regs := start.regs.set .txFormat f }

theorem witness_TxPacketResult : (1 ≤ (256 : BitVec 16).toNat ∧ (256 : BitVec 16).toNat ≤ 256) ∧
    28 + (zeros 1024).length ≤ start.params.maxPacketSize ∧ Maps start.params 0x0119 ⟨48000, .d16, 2, .le⟩ ∧
    (zeros 1024).length = (256 : BitVec 16).toNat * bpf ⟨48000, .d16, 2, .le⟩ := by
  refine ⟨by decide, ?_, by decide, ?_⟩ <;> rw [zeros_length] <;> decide
theorem witness_TxPacketResult_opaque : ¬(((txAs 0x00110103).regs.get .txFormat).toNat / 1048576 % 16 = 0) ∧
    28 + (zeros 2020).length ≤ start.params.maxPacketSize := by
  rw [zeros_length]; decide
theorem witness_TxPacketErrors : ((0 : BitVec 16).toNat < 1 ∧ 256 < (257 : BitVec 16).toNat) ∧
    (((txAs 0x00010015).regs.get .txFormat).toNat / 32 % 8 = 0 ∧ UnmappedRate start.params 0x00A9) ∧
    (((txAs 0x00040103).regs.get .txFormat).toNat / 32 % 8 = 0 ∧ UnmappedDepth start.params 0x011C) ∧
    (Maps start.params 0x0119 ⟨48000, .d16, 2, .le⟩ ∧
      (zeros 3).length ≠ (1 : BitVec 16).toNat * bpf ⟨48000, .d16, 2, .le⟩) ∧
    (¬(((txAs 0x00110103).regs.get .txFormat).toNat / 1048576 % 16 = 0) ∧
      start.params.maxPacketSize < 28 + (zeros 2021).length) ∧
    (Maps start.params 0x0719 ⟨48000, .d16, 8, .le⟩ ∧
      (zeros 4096).length = (256 : BitVec 16).toNat * bpf ⟨48000, .d16, 8, .le⟩ ∧
      start.params.maxPacketSize < 28 + (zeros 4096).length) := by
  rw [zeros_length, zeros_length, zeros_length]; decide
theorem witness_TxWithinFitSucceeds : (start.regs.get .txFormat).toNat / 32 % 8 = 0 ∧
    (start.regs.get .txFormat).toNat / 1048576 % 16 = 0 ∧ Maps start.params 0x0119 ⟨48000, .d16, 2, .le⟩ ∧
    (zeros 1024).length = (256 : BitVec 16).toNat * bpf ⟨48000, .d16, 2, .le⟩ ∧ start.params.WF ∧
    res (.framesFit 0x0119) start = some ⟨.ok, .count 256⟩ := by
  rw [zeros_length]; decide
theorem witness_TxDatagramDecodes : exec (.txPacket 1 [1, 2, 3, 4]) start = .next (after (.txPacket 1 [1, 2, 3, 4]) start) ∧
    ∃ dg, (after (.txPacket 1 [1, 2, 3, 4]) start).result = some ⟨.ok, .bytes dg⟩ := ⟨rfl, _, rfl⟩
theorem witness_TransmitIndependent : start.params = full.params ∧
    (∀ r ∈ [Reg.txFormat, .txSeq, .txName0, .txName1, .txName2, .txName3], start.regs.get r = full.regs.get r) ∧
    exec (.txPacket 1 [1, 2, 3, 4]) full = .next (after (.txPacket 1 [1, 2, 3, 4]) full) ∧
    isReceive (.rxPacket 1 d1) = true ∧ exec (.rxPacket 1 d1) start = .next (after (.rxPacket 1 d1) start) :=
  ⟨rfl, fun _ _ => rfl, rfl, rfl, rfl⟩

-- Control, at the ends of the register map.
theorem witness_CfgReadResult : indexOfReg .statSeqResets = 0x1D ∧ (0x1D : BitVec 8).toNat ≤ 0x1D ∧
    0x1D < (0x1E : BitVec 8).toNat := by decide
theorem witness_CfgWriteResult : (indexOfReg .txName3).toNat ≤ 0x0F ∧ 0x1D < (0x1E : BitVec 8).toNat ∧
    (0x10 ≤ (0x10 : BitVec 8).toNat ∧ (0x10 : BitVec 8).toNat ≤ 0x1D) ∧
    0x10 ≤ (0x1D : BitVec 8).toNat ∧ (0x1D : BitVec 8).toNat ≤ 0x1D := by decide
theorem witness_FilterChangeTearsDown : Reg.ctrl ∈ [Reg.ctrl, .filterName0, .filterName1, .filterName2, .filterName3] ∧
    exec (.cfgWrite (indexOfReg .ctrl) 3) (withSess (sess .playing (fr 0x10) 1)) =
      .next (after (.cfgWrite (indexOfReg .ctrl) 3) (withSess (sess .playing (fr 0x10) 1))) ∧
    (after (.cfgWrite (indexOfReg .ctrl) 3) (withSess (sess .playing (fr 0x10) 1))).slots[0]? =
      some (sess .draining (fr 0x10) 1) := ⟨by decide, rfl, by decide⟩
theorem witness_SessionReadResult : Inv start ∧ start.params.nSessions ≤ (2 : BitVec 8).toNat ∧
    start.slots[(1 : BitVec 8).toNat]? = some .cleared := ⟨inv_start, by decide, rfl⟩
theorem witness_StopResult : (Inv start ∧ NoSessionAt start (2 : BitVec 8).toNat ∧ NoSessionAt start (1 : BitVec 8).toNat) ∧
    ∀ st : PlaybackState, (withSess (sess st (fr 0x10) 1)).slots[(0 : BitVec 8).toNat]? = some (sess st (fr 0x10) 1) ∧
      (sess st (fr 0x10) 1).valid = true :=
  ⟨⟨inv_start, .inl (by decide), .inr ⟨.cleared, rfl, rfl⟩⟩, fun _ => ⟨rfl, rfl⟩⟩
theorem witness_DeviceFaultResult : (Inv start ∧ NoSessionAt start (255 : BitVec 8).toNat) ∧
    (withSess (sess .draining (fr 0x10) 1)).slots[(0 : BitVec 8).toNat]? = some (sess .draining (fr 0x10) 1) ∧
    (sess .draining (fr 0x10) 1).valid = true := ⟨⟨inv_start, .inl (by decide)⟩, rfl, rfl⟩
theorem witness_PureQueriesReadNoState : (∃ fc, Instr.lookup 0x0039 = .lookup fc) ∧
    (∃ h pl, Instr.encode (hdr 7 3 0 1 1) [] = .encode h pl) ∧ ∃ dg, Instr.decode d1 = .decode dg :=
  ⟨⟨_, rfl⟩, ⟨_, _, rfl⟩, ⟨_, rfl⟩⟩

-- The whole machine: a block with one pending request.
/-- START with one request pending. -/
def pending (r : Request) : State := { start with requests := [r] }

theorem inv_pending : Inv (pending (.op 0x00000001 0 1 d1 zeroHeader)) where
  params := test_wf_reference
  slotCount := rfl
  slots := by decide
  keys := by decide
  regs := regs_start
  requests := by
    intro r hr
    rw [List.mem_singleton.1 hr]
    decide

/-- The premises of StepKeepsInv, EveryRequestEndsWithAResult, ParametersNeverChange and EventsOnlyAppended. -/
theorem witness_step : Inv (pending (.op 0x00000001 0 1 d1 zeroHeader)) ∧
    (pending (.op 0x00000001 0 1 d1 zeroHeader)).requests = [.op 0x00000001 0 1 d1 zeroHeader] ∧
    step (pending (.op 0x00000001 0 1 d1 zeroHeader)) = .next (after (.rxPacket 1 d1) start) := ⟨inv_pending, rfl, rfl⟩
theorem witness_PowerOnMeetsInv : { Params.reference with nSessions := 1, bufCapFrames := 1, maxPacketSize := 1437 }.WF ∧
    { Params.reference with nSessions := 256, maxPacketSize := 65535, srcAddrW := 128 }.WF := by decide
theorem witness_SetTxNameSelectsName : Bytes.ValidName [] ∧ Bytes.ValidName (List.replicate 16 0x41) := by decide
theorem witness_SetFilterSelectsName : Bytes.ValidName [] ∧ Bytes.ValidName (List.replicate 16 0x41) := by decide

-- Decoding and encoding.
theorem witness_DecodeEncodeRoundTrip : Instr.WF Params.reference (.wireCompressed8 7 ⟨31, 255, 255, 7, 1⟩ (body 1 1 [])) ∧
    Instr.WF Params.reference (.encode (hdr 7 3 0 1 1) []) := by decide
theorem witness_EncodeDecodedDatagram : decode Params.reference (.datagram 7 (dgram 0x1F 0xFF 0x80 0xDA 0x01 [9])) =
    .ok (.wireCompressed8 5 ⟨31, 0xFF, 0x80, 2, 1⟩ (body 7 1 [9])) := test_decode_wireCompressed8
theorem witness_OperationCodes : (0x00060003 : Word32).toNat % 256 = 0x03 ∧
    BitVec.ofNat 8 ((0x00060003 : Word32).toNat / 256) = 0 ∧
    BitVec.ofNat 16 ((0x00060003 : Word32).toNat / 65536) = 6 := by decide
theorem witness_IllegalOperation : ∀ w ∈ [(0 : Word32), 0x0B, 0x0F, 0x16, 0xFF],
    ¬(1 ≤ w.toNat % 256 ∧ w.toNat % 256 ≤ 10) ∧ ¬(16 ≤ w.toNat % 256 ∧ w.toNat % 256 ≤ 21) := by simp
theorem witness_RowsPartitionRequests : decode Params.reference (.op 0x00000001 0 7 d1 zeroHeader) = .ok (.rxPacket 7 d1) :=
  test_decode_rxPacket
theorem witness_StepRunsDecoded : start.requests = [] ∧
    (pending (.op 0x00000005 0 1 [] zeroHeader)).requests = [.op 0x00000005 0 1 [] zeroHeader] ∧
    decode start.params (.op 0x00000005 0 1 [] zeroHeader) = .ok .tick ∧
    decode start.params (.op 0x00000016 0 1 [] zeroHeader) = .error (.illegalOp 0x16) := ⟨rfl, rfl, rfl, rfl⟩

end Sys2Proof.Tests.Slice0
end

section
/-! PROOFS. Operation requests: the fields of word0 as numbers, the decoder code by code, and the result of a code that is
none (spec 30_encoding.md R100 to R102, 60_exceptions.md R298). -/

namespace Sys2Proof

/-! ## The fields of word0 (R100) -/

theorem toNat_opcOf (word0 : Word32) : (opcOf word0).toNat = word0.toNat % 256 := by
  simp [opcOf, BitVec.extractLsb']

theorem idxOf_eq (word0 : Word32) : idxOf word0 = BitVec.ofNat 8 (word0.toNat / 256) := by
  simp [idxOf, BitVec.extractLsb', Nat.shiftRight_eq_div_pow]

theorem argOf_eq (word0 : Word32) : argOf word0 = BitVec.ofNat 16 (word0.toNat / 65536) := by
  simp [argOf, BitVec.extractLsb', Nat.shiftRight_eq_div_pow]

/-! ## The operation codes (R101, R102) -/

section DecodeOp
variable (word0 word1 : Word32) (src : SrcAddr) (buf : Bytes) (hdr : Header)

/-- The table of R101: each operation code with its instruction, the operands read from the fields of R100. -/
def opTable : List (Nat × Instr) :=
  [(0x01, .rxPacket src buf), (0x02, .txPacket (argOf word0) buf), (0x03, .pop (idxOf word0) (argOf word0)),
   (0x04, .stop (idxOf word0)), (0x05, .tick), (0x06, .cfgWrite (idxOf word0) word1), (0x07, .cfgRead (idxOf word0)),
   (0x08, .sessionRead (idxOf word0)), (0x09, .deviceFault (idxOf word0)), (0x0A, .reset), (0x10, .lookup (argOf word0)),
   (0x11, .bytesPerFrame (argOf word0)), (0x12, .framesInPayload (argOf word0) word1), (0x13, .framesFit (argOf word0)),
   (0x14, .encode hdr buf), (0x15, .decode buf)]

variable {word0 word1 src buf hdr}

/-- The decoder answers the table's instruction for every code of the table. -/
theorem decodeOp_of_mem_opTable {i : Instr} (h : ((opcOf word0).toNat, i) ∈ opTable word0 word1 src buf hdr) :
    decodeOp word0 word1 src buf hdr = .ok i := by
  unfold decodeOp
  simp only [opTable, List.mem_cons, Prod.mk.injEq, List.not_mem_nil, or_false] at h
  rcases h with ⟨hc, rfl⟩ | ⟨hc, rfl⟩ | ⟨hc, rfl⟩ | ⟨hc, rfl⟩ | ⟨hc, rfl⟩ | ⟨hc, rfl⟩ | ⟨hc, rfl⟩ | ⟨hc, rfl⟩ |
    ⟨hc, rfl⟩ | ⟨hc, rfl⟩ | ⟨hc, rfl⟩ | ⟨hc, rfl⟩ | ⟨hc, rfl⟩ | ⟨hc, rfl⟩ | ⟨hc, rfl⟩ | ⟨hc, rfl⟩ <;>
    simp only [hc]

/-- A code outside the two ranges of R101 is illegal (R102). -/
theorem decodeOp_eq_illegalOp (hlow : ¬(1 ≤ (opcOf word0).toNat ∧ (opcOf word0).toNat ≤ 10))
    (hhigh : ¬(16 ≤ (opcOf word0).toNat ∧ (opcOf word0).toNat ≤ 21)) :
    decodeOp word0 word1 src buf hdr = .error (.illegalOp (opcOf word0)) := by
  unfold decodeOp
  split
  case h_17 => rfl
  all_goals omega

end DecodeOp

end Sys2Proof

namespace Sys2Proof.Machine

/-! ## A request that is no instruction -/

/-- A request that decodes to no instruction is taken, and its step is its refusal (R231, R298). -/
theorem step_of_decode_error {s : State} {r : Request} {rest : List Request} {e : DecodeError}
    (hreq : s.requests = r :: rest) (hdec : decode s.params r = .error e) :
    step s = .next (rejectRequest e { s with requests := rest }) := by
  simp only [step, hreq, runRequest, hdec]

/-- An illegal request ends with ILLEGAL_OP and no data, and writes nothing else: no counter counts it (R298). -/
theorem rejectRequest_illegalOp (opc : BitVec 8) (s : State) :
    rejectRequest (.illegalOp opc) s = { s with result := some ⟨.illegalOp, .none⟩ } := rfl

/-! ## The statements -/

/-- Settles O55: the statement's table is `opTable`, with the fields of R100 written as numbers. -/
theorem operationCodes : Obligations.OperationCodes := by
  intro p word0 word1 src buf hdr idx arg i hi
  refine decodeOp_of_mem_opTable ?_
  rw [toNat_opcOf, opTable, idxOf_eq, argOf_eq]
  exact hi

/-- Settles O56: the step takes the request, the decoder refuses its code, and the refusal writes the result alone. -/
theorem illegalOperation : Obligations.IllegalOperation := by
  intro s word0 word1 src buf hdr rest hreq hlow hhigh
  rw [← toNat_opcOf] at hlow hhigh
  have hdec : decode s.params (.op word0 word1 src buf hdr) = .error (.illegalOp (opcOf word0)) :=
    decodeOp_eq_illegalOp hlow hhigh
  rw [step_of_decode_error hreq hdec, rejectRequest_illegalOp]

end Sys2Proof.Machine
end

section
/-! PROOFS. The format table: how an operation that looks a format code up continues or ends, and LOOKUP itself
(spec 40_format_table.md R120). -/

namespace Sys2Proof.Machine

/-! ## The three ends of a lookup, shared by LOOKUP and the frame-arithmetic queries -/

section WithLookup
variable {fc : BitVec 16} {s : State} {k : FormatDescriptor → State}

/-- A mapped code continues with its descriptor (R120). -/
theorem withLookup_of_maps {d : FormatDescriptor} (h : Maps s.params fc.toNat d) : withLookup fc s k = k d := by
  simp only [withLookup, (lookup_ok_iff s.params fc d).2 h]

/-- An unmapped rate ends the operation with UNSUPPORTED_RATE and the format code (R120, R322). -/
theorem withLookup_of_unmappedRate (h : UnmappedRate s.params fc.toNat) :
    withLookup fc s k = finish .unsupportedRate (.formatCode fc) s := by
  simp only [withLookup, (lookup_rate_iff s.params fc).2 h, LookupError.code]

/-- An unmapped data type with a mapped rate ends it with UNSUPPORTED_DEPTH and the format code (R120, R322). -/
theorem withLookup_of_unmappedDepth (h : UnmappedDepth s.params fc.toNat) :
    withLookup fc s k = finish .unsupportedDepth (.formatCode fc) s := by
  simp only [withLookup, (lookup_depth_iff s.params fc).2 h, LookupError.code]

end WithLookup

/-! ## LOOKUP -/

/-- LOOKUP finishes with the descriptor its lookup continues with. -/
theorem exec_lookup (fc : BitVec 16) (s : State) :
    exec (.lookup fc) s = .next (withLookup fc s fun d => finish .ok (.descriptor d) s) := rfl

/-- Settles O1: one clause for each end of the lookup; `finish` writes the result alone. -/
theorem lookupResult : Obligations.LookupResult := by
  intro s fc
  refine ⟨fun d hmaps => ?mapped, fun hrate => ?unmappedRate, fun hdepth => ?unmappedDepth⟩
  case mapped => rw [exec_lookup, withLookup_of_maps hmaps, finish]
  case unmappedRate => rw [exec_lookup, withLookup_of_unmappedRate hrate, finish]
  case unmappedDepth => rw [exec_lookup, withLookup_of_unmappedDepth hdepth, finish]

end Sys2Proof.Machine
end

section
/-! PROOFS. The packet codec: what ENCODE answers in each case of R140, which structural error a datagram has first (R141),
and what DECODE and RX_PACKET do with a datagram that decodes and with one that does not (R141, R143, R151, R231). -/

namespace Sys2Proof

/-! ## The first structural error of a datagram (R141) -/

section StructureError
variable {m : Nat} {dg : Bytes}

theorem structureError_eq_truncated (hshort : dg.length < 28) : structureError m dg = some .truncated := if_pos hshort

theorem structureError_eq_oversized (h28 : 28 ≤ dg.length) (hlong : m < dg.length) :
    structureError m dg = some .oversized := by
  rw [structureError, if_neg (Nat.not_lt.2 h28), if_pos hlong]

theorem structureError_eq_badMagic (h28 : 28 ≤ dg.length) (hfits : dg.length ≤ m) (hbad : dg.take 4 ≠ magic) :
    structureError m dg = some .badMagic := by
  rw [structureError, if_neg (Nat.not_lt.2 h28), if_neg (Nat.not_lt.2 hfits)]
  exact if_pos hbad

/-- Where the magic fails, the length alone decides which error comes first (R143). -/
theorem structureError_same_of_bad_magic {dg' : Bytes} (hlen : dg.length = dg'.length) (hbad : dg.take 4 ≠ magic)
    (hbad' : dg'.take 4 ≠ magic) : ∃ e, structureError m dg = some e ∧ structureError m dg' = some e := by
  rcases Nat.lt_or_ge dg.length 28 with hshort | h28
  · exact ⟨.truncated, structureError_eq_truncated hshort, structureError_eq_truncated (hlen ▸ hshort)⟩
  rcases Nat.lt_or_ge m dg.length with hlong | hfits
  · exact ⟨.oversized, structureError_eq_oversized h28 hlong, structureError_eq_oversized (hlen ▸ h28) (hlen ▸ hlong)⟩
  · exact ⟨.badMagic, structureError_eq_badMagic h28 hfits hbad,
      structureError_eq_badMagic (hlen ▸ h28) (hlen ▸ hfits) hbad'⟩

end StructureError

end Sys2Proof

namespace Sys2Proof.Machine

section Codec
variable {s : State} {h : Header} {pl dg : Bytes}

/-! ## ENCODE (R140) -/

/-- The name is checked before the size. -/
theorem packetEncode_eq_badName {m : Nat} (hname : 16 < h.name.length ∨ (0 : Byte) ∈ h.name) :
    packetEncode m h pl = .error .badName := if_pos hname

theorem packetEncode_eq_tooLarge {m : Nat} (hname : Bytes.ValidName h.name) (hlarge : m < 28 + pl.length) :
    packetEncode m h pl = .error .tooLarge := by
  rw [packetEncode, if_neg (not_or.2 ⟨Nat.not_lt.2 hname.1, hname.2⟩), if_pos hlarge]

theorem exec_encode_of_ok (hok : packetEncode s.params.maxPacketSize h pl = .ok dg) :
    exec (.encode h pl) s = .next (finish .ok (.bytes dg) s) := by
  simp only [exec, execEncode, hok]

theorem exec_encode_of_error {e : EncodeError} (herr : packetEncode s.params.maxPacketSize h pl = .error e) :
    exec (.encode h pl) s = .next (finish e.code .none s) := by
  simp only [exec, execEncode, herr]

/-! ## DECODE (R141) -/

/-- A well-structured datagram decodes to the header read from it and to the rest. -/
theorem decodes_headerOf {p : Params} (hw : WellStructured p dg) : Decodes p dg (headerOf dg) (dg.drop 28) :=
  (decodes_iff p dg _ _).2 (packetDecode_eq_ok_iff.2 ⟨(wellStructured_iff p dg).1 hw, rfl, rfl⟩)

theorem exec_decode_of_decodes (hdec : Decodes s.params dg h pl) :
    exec (.decode dg) s = .next (finish .ok (.packet h pl) s) := by
  simp only [exec, execDecode, (decodes_iff s.params dg h pl).1 hdec]

theorem exec_decode_of_structureError {e : DecodeError} (herr : structureError s.params.maxPacketSize dg = some e) :
    exec (.decode dg) s = .next (finish (decodeErrorCode e) .none s) := by
  simp only [exec, execDecode, packetDecode_eq_error_iff.2 herr]

/-! ## RX_PACKET: structure and dispatch (R151, R231) -/

variable {src : SrcAddr}

/-- A malformed datagram is rejected before its source or a field of it is read (R143, R231). -/
theorem exec_rxPacket_of_structureError {e : DecodeError} (herr : structureError s.params.maxPacketSize dg = some e) :
    exec (.rxPacket src dg) s = .next (rejectRequest e s) := by
  simp only [exec, execRxPacket, packetDecode_eq_error_iff.2 herr]

theorem exec_rxPacket_of_service (hdec : Decodes s.params dg h pl) (hsub : h.subProtocol ≠ 0) :
    exec (.rxPacket src dg) s = .next (forward .service src dg s) := by
  have hclass : wireClass h.subProtocol h.codec = .service := if_pos hsub
  simp only [exec, execRxPacket, (decodes_iff s.params dg h pl).1 hdec, hclass]

theorem exec_rxPacket_of_compressed (hdec : Decodes s.params dg h pl) (hsub : h.subProtocol = 0) (hcodec : h.codec ≠ 0) :
    exec (.rxPacket src dg) s = .next (forward .compressed src dg s) := by
  have hclass : wireClass h.subProtocol h.codec = .compressed := by
    rw [wireClass, if_neg (not_not.2 hsub), if_pos hcodec]
  simp only [exec, execRxPacket, (decodes_iff s.params dg h pl).1 hdec, hclass]

end Codec

/-- Forwarding emits one event, counts once, and answers the code of its kind: the whole next state (R151). -/
theorem forward_eq (kind : ForwardKind) (src : SrcAddr) (dg : Bytes) (s : State) :
    forward kind src dg s = { s with
      events := s.events ++ [.forward kind src dg]
      regs := s.regs.set .statRxForwarded (s.regs.get .statRxForwarded + 1)
      result := some ⟨if kind = .service then .forwardedService else .forwardedCompressed, .none⟩ } := by
  cases kind <;> rfl

/-! ## The statements -/

/-- Settles O7: `packetEncode_eq_ok_iff` gives the laid-out bytes, `datagramBytes_eq_wireLayout` their arithmetic; the two
refusals are those of `packetEncode`, the name's first. -/
theorem encodeResult : Obligations.EncodeResult := by
  intro s h pl
  refine ⟨fun hlen hnul hfits => ?ok, fun hname => ?badName, fun hlen hnul hlarge => ?tooLarge⟩
  case ok =>
    rw [exec_encode_of_ok (packetEncode_eq_ok_iff.2 ⟨⟨hlen, hnul⟩, hfits, rfl⟩), datagramBytes_eq_wireLayout]
    rfl
  case badName => rw [exec_encode_of_error (packetEncode_eq_badName hname), finish, EncodeError.code]
  case tooLarge => rw [exec_encode_of_error (packetEncode_eq_tooLarge ⟨hlen, hnul⟩ hlarge), finish, EncodeError.code]

/-- Settles O8: the header is `headerOf`, and each refusal is the first structural error of its clause. -/
theorem decodeResult : Obligations.DecodeResult := by
  intro s dg
  refine ⟨fun hw => ⟨headerOf dg, decodes_headerOf hw, ?ok⟩, fun hshort => ?truncated, fun h28 hlong => ?oversized,
    fun h28 hfits hbad => ?badMagic⟩
  case ok => rw [exec_decode_of_decodes (decodes_headerOf hw), finish]
  case truncated =>
    rw [exec_decode_of_structureError (structureError_eq_truncated hshort), finish, decodeErrorCode]
  case oversized =>
    rw [exec_decode_of_structureError (structureError_eq_oversized h28 hlong), finish, decodeErrorCode]
  case badMagic =>
    rw [exec_decode_of_structureError (structureError_eq_badMagic h28 hfits hbad), finish, decodeErrorCode]

/-- Settles O10: both datagrams have one and the same structural error, and DECODE and RX_PACKET answer it without reading
the datagram or the source. -/
theorem badMagicReadsNothingElse : Obligations.BadMagicReadsNothingElse := by
  intro s src₁ src₂ dg₁ dg₂ hlen hbad₁ hbad₂
  obtain ⟨e, herr₁, herr₂⟩ := structureError_same_of_bad_magic (m := s.params.maxPacketSize) hlen hbad₁ hbad₂
  constructor
  · rw [exec_decode_of_structureError herr₁, exec_decode_of_structureError herr₂]
  · rw [exec_rxPacket_of_structureError herr₁, exec_rxPacket_of_structureError herr₂]

/-- Settles O20: the class of R92 selects the kind, and `forward_eq` is the whole next state. -/
theorem rxPacketForwards : Obligations.RxPacketForwards := by
  intro s src dg h pl hdec
  refine ⟨fun hsub => ?service, fun hsub hcodec => ?compressed⟩
  case service => rw [exec_rxPacket_of_service hdec hsub, forward_eq, if_pos rfl]
  case compressed => rw [exec_rxPacket_of_compressed hdec hsub hcodec, forward_eq, if_neg (by decide)]

end Sys2Proof.Machine
end

section
/-! PROOFS. The frame-arithmetic queries: what each answers for a mapped code, and that a lookup error ends it
(spec 42_frame_arithmetic.md R170 to R173). -/

namespace Sys2Proof.Machine

/-! ## BYTES_PER_FRAME (R170, R171) -/

/-- BYTES_PER_FRAME finishes with the frame size of the descriptor its lookup continues with. -/
theorem exec_bytesPerFrame (fc : BitVec 16) (s : State) :
    exec (.bytesPerFrame fc) s = .next (withLookup fc s fun d => finish .ok (.count (bpf d)) s) := rfl

/-- Settles O2: one clause for each end of the lookup; `bpf` is the product of R170. -/
theorem bytesPerFrameResult : Obligations.BytesPerFrameResult := by
  intro s fc
  refine ⟨fun d hmaps => ?mapped, fun hrate => ?unmappedRate, fun hdepth => ?unmappedDepth⟩
  case mapped => rw [exec_bytesPerFrame, withLookup_of_maps hmaps, finish, bpf]
  case unmappedRate => rw [exec_bytesPerFrame, withLookup_of_unmappedRate hrate, finish]
  case unmappedDepth => rw [exec_bytesPerFrame, withLookup_of_unmappedDepth hdepth, finish]

/-! ## FRAMES_IN_PAYLOAD (R172) -/

section FramesInPayload
variable {s : State} {fc : BitVec 16} {len : Word32} {d : FormatDescriptor}

theorem framesInPayload_eq_some {n : Nat} (hdvd : n % bpf d = 0) : framesInPayload d n = some (n / bpf d) :=
  if_neg (not_not.2 hdvd)

theorem framesInPayload_eq_none {n : Nat} (hrest : n % bpf d ≠ 0) : framesInPayload d n = none := if_pos hrest

/-- A whole number of frames: the answer is their count. -/
theorem exec_framesInPayload_of_dvd (hmaps : Maps s.params fc.toNat d) (hdvd : len.toNat % bpf d = 0) :
    exec (.framesInPayload fc len) s = .next (finish .ok (.count (len.toNat / bpf d)) s) := by
  simp only [exec, execFramesInPayload, withLookup_of_maps hmaps, framesInPayload_eq_some hdvd]

/-- A remainder is refused without data. -/
theorem exec_framesInPayload_of_rest (hmaps : Maps s.params fc.toNat d) (hrest : len.toNat % bpf d ≠ 0) :
    exec (.framesInPayload fc len) s = .next (finish .malformedPayloadNotMultiple .none s) := by
  simp only [exec, execFramesInPayload, withLookup_of_maps hmaps, framesInPayload_eq_none hrest]

/-- A lookup error takes precedence: the length is not read. -/
theorem exec_framesInPayload_of_unmappedRate (hrate : UnmappedRate s.params fc.toNat) :
    exec (.framesInPayload fc len) s = .next (finish .unsupportedRate (.formatCode fc) s) := by
  simp only [exec, execFramesInPayload, withLookup_of_unmappedRate hrate]

theorem exec_framesInPayload_of_unmappedDepth (hdepth : UnmappedDepth s.params fc.toNat) :
    exec (.framesInPayload fc len) s = .next (finish .unsupportedDepth (.formatCode fc) s) := by
  simp only [exec, execFramesInPayload, withLookup_of_unmappedDepth hdepth]

end FramesInPayload

/-- Settles O3: a mapped code splits on the remainder of the length, and a lookup error ends the query before it. -/
theorem framesInPayloadResult : Obligations.FramesInPayloadResult := by
  intro s fc len
  refine ⟨fun d hmaps => ⟨fun hdvd => ?whole, fun hrest => ?remainder⟩, fun hrate => ?unmappedRate,
    fun hdepth => ?unmappedDepth⟩
  case whole => exact exec_framesInPayload_of_dvd hmaps hdvd
  case remainder => exact exec_framesInPayload_of_rest hmaps hrest
  case unmappedRate => exact exec_framesInPayload_of_unmappedRate hrate
  case unmappedDepth => exact exec_framesInPayload_of_unmappedDepth hdepth

/-! ## FRAMES_FIT (R173) -/

/-- FRAMES_FIT finishes with the frame limit of the descriptor its lookup continues with. -/
theorem exec_framesFit (fc : BitVec 16) (s : State) :
    exec (.framesFit fc) s = .next (withLookup fc s fun d => finish .ok (.count (framesFit s.params d)) s) := rfl

theorem framesFit_le (p : Params) (d : FormatDescriptor) : framesFit p d ≤ 256 := Nat.min_le_left ..

/-- At least one frame fits: a frame has at most 1024 bytes (R171), and the smallest MAX_PACKET_SIZE that R8 allows leaves
1409 bytes of payload. -/
theorem framesFit_pos {p : Params} {fc : BitVec 16} {d : FormatDescriptor} (hwf : p.WF) (hmaps : Maps p fc.toNat d) :
    1 ≤ framesFit p d := by
  obtain ⟨-, -, -, hpacket, -⟩ := hwf
  have hbpf : bpf d ≤ 1024 := maps_bpf_le hmaps fc.isLt
  have hquot : 0 < (p.maxPacketSize - 28) / bpf d := Nat.div_pos (by omega) (maps_bpf hmaps)
  exact Nat.le_min.2 ⟨by decide, hquot⟩

/-- Settles O4: the answer is `framesFit`, which `framesFit_pos` and `framesFit_le` bound. -/
theorem framesFitResult : Obligations.FramesFitResult := by
  intro s fc
  refine ⟨fun d hwf hmaps => ⟨framesFit_pos hwf hmaps, framesFit_le s.params d, ?mapped⟩, fun hrate => ?unmappedRate,
    fun hdepth => ?unmappedDepth⟩
  case mapped => rw [exec_framesFit, withLookup_of_maps hmaps, finish, framesFit, bpf]
  case unmappedRate => rw [exec_framesFit, withLookup_of_unmappedRate hrate, finish]
  case unmappedDepth => rw [exec_framesFit, withLookup_of_unmappedDepth hdepth, finish]

end Sys2Proof.Machine
end

section
/-! PROOFS. Receiving: what RX_PACKET does with a datagram that fails the structural checks (spec
44_receive_session.md R231, 41_packet_codec.md R144). -/

namespace Sys2Proof.Machine

/-- The refusal of a malformed datagram counts it and answers the error's code: the whole next state (R231). -/
theorem rejectRequest_malformed {e : DecodeError} (he : e = .truncated ∨ e = .oversized ∨ e = .badMagic) (s : State) :
    rejectRequest e s = { s with
      regs := s.regs.set .statRxMalformed (s.regs.get .statRxMalformed + 1)
      result := some ⟨decodeErrorCode e, .none⟩ } := by
  obtain rfl | rfl | rfl := he <;> rfl

/-- RX_PACKET ends with the code of the first structural error, whatever the source. -/
theorem exec_rxPacket_of_malformed {s : State} {src : SrcAddr} {dg : Bytes} {e : DecodeError}
    (herr : structureError s.params.maxPacketSize dg = some e) :
    exec (.rxPacket src dg) s = .next { s with
      regs := s.regs.set .statRxMalformed (s.regs.get .statRxMalformed + 1)
      result := some ⟨decodeErrorCode e, .none⟩ } := by
  rw [exec_rxPacket_of_structureError herr, rejectRequest_malformed (structureError_cases herr)]

/-- Settles O19: the checks run in the order length, size limit, magic, and the first that fails names the code. -/
theorem malformedDatagramCounted : Obligations.MalformedDatagramCounted := by
  intro s src dg hmalformed
  rcases Nat.lt_or_ge dg.length 28 with hshort | h28
  · exact ⟨.malformedTruncated, .inl rfl, iff_of_true rfl hshort,
      iff_of_false (by decide) fun ⟨h28, _⟩ => Nat.not_lt.2 h28 hshort,
      exec_rxPacket_of_malformed (structureError_eq_truncated hshort)⟩
  rcases Nat.lt_or_ge s.params.maxPacketSize dg.length with hlong | hfits
  · exact ⟨.malformedOversized, .inr (.inl rfl), iff_of_false (by decide) (Nat.not_lt.2 h28),
      iff_of_true rfl ⟨h28, hlong⟩, exec_rxPacket_of_malformed (structureError_eq_oversized h28 hlong)⟩
  · have hbad : dg.take 4 ≠ magic := fun hmagic => hmalformed ⟨h28, hfits, hmagic⟩
    exact ⟨.malformedBadMagic, .inr (.inr rfl), iff_of_false (by decide) (Nat.not_lt.2 h28),
      iff_of_false (by decide) fun ⟨_, hlong⟩ => Nat.not_lt.2 hfits hlong,
      exec_rxPacket_of_malformed (structureError_eq_badMagic h28 hfits hbad)⟩

end Sys2Proof.Machine
end

section
/-! PROOFS. The control operations: CFG_READ, SESSION_READ, STOP, DEVICE_FAULT and RESET, and the two that sweep over the
slots, the filter change of CFG_WRITE and TICK (spec 46_control.md R290 to R297). -/

namespace Sys2Proof.Machine

/-! ## CFG_READ (R290) -/

/-- Every index up to 0x1D is that of a register (R23). -/
theorem exists_indexOfReg_eq {idx : BitVec 8} (hidx : idx.toNat ≤ 0x1D) : ∃ k, indexOfReg k = idx := by
  have hmapped : regOfIndex idx ≠ none := fun hnone => Nat.not_lt.2 hidx ((regOfIndex_eq_none_iff idx).1 hnone)
  obtain ⟨k, hk⟩ := Option.ne_none_iff_exists'.1 hmapped
  exact ⟨k, indexOfReg_regOfIndex hk⟩

theorem exec_cfgRead_indexOfReg (k : Reg) (s : State) :
    exec (.cfgRead (indexOfReg k)) s = .next (finish .ok (.word (s.regs.get k)) s) := by
  simp only [exec, execCfgRead, regOfIndex_indexOfReg]

theorem exec_cfgRead_of_unmapped {idx : BitVec 8} (hidx : 0x1D < idx.toNat) (s : State) :
    exec (.cfgRead idx) s = .next (finish .cfgUnmapped (.word 0) s) := by
  simp only [exec, execCfgRead, (regOfIndex_eq_none_iff idx).2 hidx]

/-- Settles O37: the register map is total up to 0x1D and empty above it. -/
theorem cfgReadResult : Obligations.CfgReadResult := by
  intro s idx
  refine ⟨?mapped, exists_indexOfReg_eq, fun hidx => ?unmapped⟩
  case mapped =>
    rintro k rfl
    rw [exec_cfgRead_indexOfReg, finish]
  case unmapped => rw [exec_cfgRead_of_unmapped hidx, finish]

/-! ## The slot an operation names (R68, R320) -/

section SlotOf
variable {s : State} {k : Nat}

/-- In a legal state the slot list ends at N_SESSIONS (R38). -/
theorem slot?_eq_none_of_nSessions_le (hinv : Inv s) (hk : s.params.nSessions ≤ k) : s.slot? k = none :=
  List.getElem?_eq_none (hinv.slotCount ▸ hk)

theorem session?_of_valid {sl : Slot} (hsl : s.slots[k]? = some sl) (hvalid : sl.valid = true) :
    s.session? k = some sl := by
  simp only [State.session?, State.slot?, hsl, hvalid, if_true]

/-- An index out of range and a free slot are both no session. -/
theorem session?_of_noSessionAt (hinv : Inv s) (hno : NoSessionAt s k) : s.session? k = none := by
  obtain hrange | ⟨sl, hsl, hfree⟩ := hno
  · simp only [State.session?, slot?_eq_none_of_nSessions_le hinv hrange]
  · simp only [State.session?, State.slot?, hsl, hfree, Bool.false_eq_true, if_false]

end SlotOf

/-! ## SESSION_READ (R293) -/

theorem exec_sessionRead_of_slot {s : State} {k : BitVec 8} {sl : Slot} (hsl : s.slot? k.toNat = some sl) :
    exec (.sessionRead k) s = .next (finish .ok (.session (sessionView s.params s.regs sl)) s) := by
  simp only [exec, execSessionRead, hsl]

theorem exec_sessionRead_of_none {s : State} {k : BitVec 8} (hnone : s.slot? k.toNat = none) :
    exec (.sessionRead k) s = .next (raiseNoSession k s) := by
  simp only [exec, execSessionRead, hnone]

/-- Settles O40: the view copies the slot's fields, and its threshold is that of R195. -/
theorem sessionReadResult : Obligations.SessionReadResult := by
  intro s k
  refine ⟨fun hinv hk => ?outOfRange, fun sl hsl => ?slot⟩
  case outOfRange => rw [exec_sessionRead_of_none (slot?_eq_none_of_nSessions_le hinv hk), raiseNoSession, finish]
  case slot => rw [exec_sessionRead_of_slot hsl, finish, sessionView, threshold, lowWaterMark]

/-! ## STOP (R294) and DEVICE_FAULT (R295) -/

/-- A teardown leaves a session Draining that had frames to play out, and frees every other (R204). -/
theorem tornDown_state (sl : Slot) :
    (tornDown sl).state = if sl.state = .playing ∨ sl.state = .draining then .draining else .idle := by
  cases hst : sl.state <;> simp [tornDown, hst, Slot.cleared]

section Session
variable {s : State} {k : BitVec 8} {sl : Slot}

theorem exec_stop_of_session (hses : s.session? k.toNat = some sl) :
    exec (.stop k) s = .next (finish .ok (.playback (tornDown sl).state)
      (putSlot k.toNat (tornDown sl) (if sl.state = .playing then [.stopped k.toNat] else []) s)) := by
  simp only [exec, execStop, hses, teardown_tornDown]

theorem exec_stop_of_none (hnone : s.session? k.toNat = none) : exec (.stop k) s = .next (raiseNoSession k s) := by
  simp only [exec, execStop, hnone]

theorem exec_deviceFault_of_session (hses : s.session? k.toNat = some sl) :
    exec (.deviceFault k) s = .next (finish .ok .none
      (putSlot k.toNat .cleared (if sl.state = .playing then [.stopped k.toNat] else []) s)) := by
  simp only [exec, execDeviceFault, hses, freeSlot_eq]

theorem exec_deviceFault_of_none (hnone : s.session? k.toNat = none) :
    exec (.deviceFault k) s = .next (raiseNoSession k s) := by
  simp only [exec, execDeviceFault, hnone]

end Session

/-- Settles O41: STOP is a teardown, and `tornDown_state` is the state it answers. -/
theorem stopResult : Obligations.StopResult := by
  intro s k
  refine ⟨fun hinv hno => ?noSession, fun sl hsl hvalid => ?session⟩
  case noSession => rw [exec_stop_of_none (session?_of_noSessionAt hinv hno), raiseNoSession, finish]
  case session => rw [exec_stop_of_session (session?_of_valid hsl hvalid), tornDown_state, finish, putSlot]

/-- Settles O42: freeing leaves the cleared slot, and its only event is the STOPPED of a Playing one (`freeSlot_eq`). -/
theorem deviceFaultResult : Obligations.DeviceFaultResult := by
  intro s k
  refine ⟨fun hinv hno => ?noSession, fun sl hsl hvalid => ?session⟩
  case noSession => rw [exec_deviceFault_of_none (session?_of_noSessionAt hinv hno), raiseNoSession, finish]
  case session => rw [exec_deviceFault_of_session (session?_of_valid hsl hvalid), finish, putSlot]

/-! ## RESET (R297) -/

/-- A reset value has no reserved bit, so each register reads as it is reset (R22, R350). -/
theorem get_reset (p : Params) (r : Reg) : (Regs.reset p).get r = resetValue p r := by
  rw [regsInv_reset p r]
  cases r <;> rfl

/-- Settles O44: the registers read as `get_reset` says, and the other fields are those that RESET writes. -/
theorem resetResult : Obligations.ResetResult :=
  fun s => ⟨_, rfl, get_reset s.params, rfl, rfl, rfl, rfl, rfl⟩

/-! ## The filter change (R292) -/

/-- The registers whose write changes the filter are CTRL and the four words of its name (R291). -/
theorem isFilterReg_iff (k : Reg) :
    isFilterReg k = true ↔ k ∈ [Reg.ctrl, .filterName0, .filterName1, .filterName2, .filterName3] := by
  cases k <;> decide

/-- None of them is a statistics counter. -/
theorem readOnly_of_isFilterReg {k : Reg} (hk : isFilterReg k = true) : k.readOnly = false := by
  revert hk
  cases k <;> decide

/-- A CFG_WRITE of a register that is no statistics counter (R291). -/
theorem exec_cfgWrite_of_writable {k : Reg} (hk : k.readOnly = false) (v : Word32) (s : State) :
    exec (.cfgWrite (indexOfReg k) v) s = .next (finish .ok .none
      (if isFilterReg k then filterChange { s with regs := s.regs.set k v } else { s with regs := s.regs.set k v })) := by
  simp only [exec, execCfgWrite, regOfIndex_indexOfReg, hk, Bool.false_eq_true, if_false]

/-- The filter is enabled, and refuses the session of a slot that is not Draining (R292). -/
abbrev FilterRefuses (r : Regs) (sl : Slot) : Prop :=
  (r.get .ctrl).getLsbD 0 = true ∧ sl.valid = true ∧ sl.state ≠ .draining ∧ sl.name ≠ effectiveFilterName r

/-- With the filter enabled, a slot is torn down where the filter refuses its session, and kept elsewhere. -/
theorem filterSlot_eq {r : Regs} (hen : filterEnabled r = true) (p : Params) (i : Nat) (sl : Slot) :
    filterSlot p r i sl = (if FilterRefuses r sl then tornDown sl else sl,
      if FilterRefuses r sl ∧ sl.state = .playing then [.stopped i] else [], if FilterRefuses r sl then 1 else 0) := by
  have hcond : (sl.valid = true ∧ sl.state ≠ .draining ∧ sl.name ≠ filterName r) ↔ FilterRefuses r sl := by
    rw [filterName_eq]
    exact (and_iff_right hen).symm
  simp only [filterSlot, teardown_tornDown, hcond]
  by_cases hrefuses : FilterRefuses r sl
  · simp only [if_pos hrefuses, and_iff_right hrefuses]
  · rw [if_neg hrefuses, if_neg hrefuses, if_neg (not_and_of_not_left _ hrefuses), if_neg hrefuses]

theorem not_filterRefuses_of_disabled {r : Regs} (hdis : filterEnabled r ≠ true) (sl : Slot) : ¬FilterRefuses r sl :=
  fun hrefuses => hdis hrefuses.1

theorem filterChange_of_disabled {s : State} (hdis : filterEnabled s.regs ≠ true) : filterChange s = s := if_neg hdis

theorem filterChange_of_enabled {s : State} (hen : filterEnabled s.regs = true) :
    filterChange s = { s with
      slots := (sweep (filterSlot s.params s.regs) 0 s.slots).1
      events := s.events ++ (sweep (filterSlot s.params s.regs) 0 s.slots).2.1 } := if_pos hen

@[simp] theorem filterChange_regs (s : State) : (filterChange s).regs = s.regs := by
  by_cases hen : filterEnabled s.regs = true
  · rw [filterChange_of_enabled hen]
  · rw [filterChange_of_disabled hen]

theorem filterChange_slots (s : State) :
    (filterChange s).slots = s.slots.map fun sl => if FilterRefuses s.regs sl then tornDown sl else sl := by
  by_cases hen : filterEnabled s.regs = true
  case pos =>
    rw [filterChange_of_enabled hen]
    exact sweep_slots_map _ (fun i sl => by rw [filterSlot_eq hen]) 0 s.slots
  case neg => simp only [filterChange_of_disabled hen, not_filterRefuses_of_disabled hen, if_false, List.map_id']

theorem filterChange_events (s : State) :
    (filterChange s).events = s.events ++
      (s.slots.zipIdx.filter fun x => decide (FilterRefuses s.regs x.1 ∧ x.1.state = .playing)).map
        fun x => .stopped x.2 := by
  by_cases hen : filterEnabled s.regs = true
  case pos =>
    rw [filterChange_of_enabled hen]
    exact congrArg (s.events ++ ·) (sweep_events_filter _
      (p := fun sl => decide (FilterRefuses s.regs sl ∧ sl.state = .playing))
      (fun i sl => by simp only [filterSlot_eq hen, decide_eq_true_eq]) 0 s.slots)
  case neg =>
    simp only [filterChange_of_disabled hen, not_filterRefuses_of_disabled hen, false_and, decide_false,
      List.filter_false, List.map_nil, List.append_nil]

/-- Settles O39: the write runs `filterChange` on the registers written, which it does not change again. -/
theorem filterChangeTearsDown : Obligations.FilterChangeTearsDown := by
  intro s t k v hk hexec refused
  have hfilter : isFilterReg k = true := (isFilterReg_iff k).2 hk
  rw [exec_cfgWrite_of_writable (readOnly_of_isFilterReg hfilter), if_pos hfilter] at hexec
  cases hexec
  have hregs : (filterChange { s with regs := s.regs.set k v }).regs = s.regs.set k v := filterChange_regs _
  simp only [refused, finish_regs, finish_slots, finish_events, hregs]
  exact ⟨filterChange_slots _, filterChange_events _⟩

/-! ## TICK (R296) -/

/-- A session that TICK ages: any but a Draining one. -/
abbrev Ages (sl : Slot) : Prop := sl.valid = true ∧ sl.state ≠ .draining

/-- The ticks of a slot after one more, saturating (R10). -/
abbrev nextAge (sl : Slot) : Nat := min (sl.idleTicks.toNat + 1) (2 ^ 32 - 1)

/-- The slot of a session that TICK has aged. -/
abbrev agedSlot (sl : Slot) : Slot := { sl with idleTicks := BitVec.ofNat 32 (nextAge sl) }

/-- A session that reaches SESSION_TIMEOUT with this TICK; a timeout of 0 is none. -/
abbrev Expires (r : Regs) (sl : Slot) : Prop :=
  Ages sl ∧ r.get .sessionTimeout ≠ 0 ∧ (r.get .sessionTimeout).toNat ≤ nextAge sl

/-- What TICK leaves of a slot. -/
abbrev tickedSlot (r : Regs) (sl : Slot) : Slot :=
  if Expires r sl then tornDown (agedSlot sl) else if Ages sl then agedSlot sl else sl

/-- The age of a slot that TICK has aged, as a number: the saturating count fits the word. -/
theorem toNat_ofNat_nextAge (sl : Slot) : (BitVec.ofNat 32 (nextAge sl)).toNat = nextAge sl := by
  have hfits : nextAge sl ≤ 2 ^ 32 - 1 := Nat.min_le_right ..
  rw [BitVec.toNat_ofNat]
  exact Nat.mod_eq_of_lt (by omega)

/-- What TICK does to a slot: its aging, its teardown, and whether it counts. -/
theorem tickSlot_eq (p : Params) (r : Regs) (i : Nat) (sl : Slot) :
    tickSlot p r i sl = (tickedSlot r sl, if Expires r sl ∧ sl.state = .playing then [.stopped i] else [],
      if Expires r sl then 1 else 0) := by
  have hle : r.get .sessionTimeout ≤ BitVec.ofNat 32 (nextAge sl) ↔ (r.get .sessionTimeout).toNat ≤ nextAge sl := by
    rw [BitVec.le_def, toNat_ofNat_nextAge]
  simp only [tickSlot, satInc_eq, teardown_tornDown, hle]
  by_cases hexp : Expires r sl
  · rw [if_pos hexp.1, if_pos hexp.2, tickedSlot, if_pos hexp, if_pos hexp]
    simp only [and_iff_right hexp]
  rw [tickedSlot, if_neg hexp, if_neg (not_and_of_not_left _ hexp), if_neg hexp]
  by_cases hages : Ages sl
  · rw [if_pos hages, if_pos hages, if_neg fun hout => hexp ⟨hages, hout⟩]
  · rw [if_neg hages, if_neg hages]

/-- TICK sweeps over the slots: each is ticked, STOPPED comes for the Playing ones that expire, and the expired are
counted. -/
theorem exec_tick (s : State) :
    exec .tick s = .next (finish .ok (.count (s.slots.countP fun sl => decide (Expires s.regs sl))) { s with
      slots := s.slots.map (tickedSlot s.regs)
      events := s.events ++ (s.slots.zipIdx.filter fun x => decide (Expires s.regs x.1 ∧ x.1.state = .playing)).map
        fun x => .stopped x.2 }) := by
  have hslots := sweep_slots_map (tickSlot s.params s.regs) (g := tickedSlot s.regs)
    (fun i sl => by rw [tickSlot_eq]) 0 s.slots
  have hevents := sweep_events_filter (tickSlot s.params s.regs)
    (p := fun sl => decide (Expires s.regs sl ∧ sl.state = .playing))
    (fun i sl => by simp only [tickSlot_eq, decide_eq_true_eq]) 0 s.slots
  have hcount := sweep_countP (tickSlot s.params s.regs) (p := fun sl => decide (Expires s.regs sl))
    (fun i sl => by simp only [tickSlot_eq, decide_eq_true_eq]) 0 s.slots
  simp only [exec, execTick, hslots, hevents, hcount]

/-- Settles O43: the statement's terms are those of `exec_tick`, written out. -/
theorem tickResult : Obligations.TickResult := fun s => exec_tick s

end Sys2Proof.Machine
end

section
/-! PROOFS. Every request ends with a result: no operation faults, none refuses, and none takes a further request
(spec 60_exceptions.md R327). -/

namespace Sys2Proof.Machine

/-! ## An operation that ends -/

/-- `t` ends an operation begun in `s`: it has a result, and the same requests wait. -/
structure Ends (s t : State) : Prop where
  requests : t.requests = s.requests
  result : t.result ≠ none

/-- The outcome of an operation begun in `s` is a next state that ends it: no fault and no refusal. -/
def Answers (s : State) (o : Host.Outcome State Fault Refusal) : Prop := ∃ t, o = .next t ∧ Ends s t

section Operations
variable {s : State}

theorem Ends.answers {t : State} (h : Ends s t) : Answers s (.next t) := ⟨t, rfl, h⟩

/-- `finish` gives the result, so the writes before it need only leave the requests alone. -/
theorem ends_finish {u : State} (c : ResultCode) (d : ResultData) (hreq : u.requests = s.requests) :
    Ends s (finish c d u) := ⟨hreq, Option.some_ne_none _⟩

theorem ends_raiseNoSession (k : BitVec 8) : Ends s (raiseNoSession k s) := ends_finish _ _ rfl

theorem ends_rejectRequest (e : DecodeError) : Ends s (rejectRequest e s) := by
  cases e <;> exact ends_finish _ _ rfl

/-! ## Receiving (R151, R230) -/

theorem ends_forward (kind : ForwardKind) (src : SrcAddr) (dg : Bytes) : Ends s (forward kind src dg s) :=
  ends_finish _ _ rfl

/-- Neither the counter of a refusal nor the regression reset touches a request. -/
theorem ends_rxRefuse (e : RxRefusal) : Ends s (rxRefuse e s) := by
  refine ends_finish _ _ ?_
  cases e <;> rfl

theorem ends_rxCommit (plan : RxPlan) (src : SrcAddr) (name : Bytes) (ctr : Word32) :
    Ends s (rxCommit plan src name ctr s) := by
  unfold rxCommit
  exact ends_finish _ _ (putSlot_requests ..)

theorem ends_receivePcm (src : SrcAddr) (h : Header) (pl : Bytes) : Ends s (receivePcm src h pl s) := by
  obtain ⟨e, -, hrefused⟩ | ⟨plan, -, hcommitted⟩ := receivePcm_cases src h pl s
  · exact hrefused ▸ ends_rxRefuse e
  · exact hcommitted ▸ ends_rxCommit plan src h.name h.frameCounter

theorem answers_rxPacket (src : SrcAddr) (dg : Bytes) : Answers s (exec (.rxPacket src dg) s) := by
  refine Ends.answers ?_
  split
  case h_1 e _ => exact ends_rejectRequest e
  case h_2 h pl _ =>
    split
    · exact ends_receivePcm src h pl
    · exact ends_forward .compressed src dg
    · exact ends_forward .service src dg

/-! ## Transmitting (R270) -/

theorem answers_txPacket (k : BitVec 16) (pl : Bytes) : Answers s (exec (.txPacket k pl) s) := by
  refine Ends.answers ?_
  split <;> exact ends_finish _ _ rfl

/-! ## Playback and control (R202, R290 to R297) -/

/-- POP of a Playing session ends in a full read or an underrun. -/
theorem ends_popPlaying (k n : Nat) (sl : Slot) : Ends s (popPlaying s k n sl) := by
  unfold popPlaying
  split <;> exact ends_finish _ _ rfl

/-- POP of a Draining session ends in a read that leaves frames, or in its last one. -/
theorem ends_popDraining (k n : Nat) (sl : Slot) : Ends s (popDraining s k n sl) := by
  unfold popDraining
  dsimp only
  split <;> exact ends_finish _ _ rfl

theorem answers_pop (k : BitVec 8) (n : BitVec 16) : Answers s (exec (.pop k n) s) := by
  refine Ends.answers ?_
  split
  case h_1 => exact ends_raiseNoSession k
  case h_2 sl _ =>
    cases sl.state with
    | idle => exact ends_finish _ _ rfl
    | buffering => exact ends_finish _ _ rfl
    | playing => exact ends_popPlaying k.toNat n.toNat sl
    | draining => exact ends_popDraining k.toNat n.toNat sl

theorem answers_sessionRead (k : BitVec 8) : Answers s (exec (.sessionRead k) s) := by
  cases hsl : s.slot? k.toNat with
  | none => exact exec_sessionRead_of_none hsl ▸ (ends_raiseNoSession k).answers
  | some sl => exact exec_sessionRead_of_slot hsl ▸ Ends.answers (ends_finish _ _ rfl)

theorem answers_stop (k : BitVec 8) : Answers s (exec (.stop k) s) := by
  cases hses : s.session? k.toNat with
  | none => exact exec_stop_of_none hses ▸ (ends_raiseNoSession k).answers
  | some sl => exact exec_stop_of_session hses ▸ Ends.answers (ends_finish _ _ rfl)

theorem answers_deviceFault (k : BitVec 8) : Answers s (exec (.deviceFault k) s) := by
  cases hses : s.session? k.toNat with
  | none => exact exec_deviceFault_of_none hses ▸ (ends_raiseNoSession k).answers
  | some sl => exact exec_deviceFault_of_session hses ▸ Ends.answers (ends_finish _ _ rfl)

theorem answers_cfgRead (idx : BitVec 8) : Answers s (exec (.cfgRead idx) s) := by
  refine Ends.answers ?_
  split <;> exact ends_finish _ _ rfl

/-- The filter change tears sessions down; it takes no request. -/
@[simp] theorem filterChange_requests (s : State) : (filterChange s).requests = s.requests := by
  by_cases hen : filterEnabled s.regs = true
  · rw [filterChange_of_enabled hen]
  · rw [filterChange_of_disabled hen]

theorem answers_cfgWrite (idx : BitVec 8) (v : Word32) : Answers s (exec (.cfgWrite idx v) s) := by
  refine Ends.answers ?_
  split
  case h_1 => exact ends_finish _ _ rfl
  case h_2 k _ =>
    cases k.readOnly with
    | true => exact ends_finish _ _ rfl
    | false =>
      refine ends_finish _ _ ?_
      cases isFilterReg k with
      | true => exact filterChange_requests _
      | false => rfl

/-! ## The queries (R120, R140, R141, R171 to R173) -/

/-- A lookup error ends a query; for a mapped code its continuation has to. -/
theorem ends_withLookup {fc : BitVec 16} {k : FormatDescriptor → State} (hk : ∀ d, Ends s (k d)) :
    Ends s (withLookup fc s k) := by
  unfold withLookup
  split
  · exact ends_finish _ _ rfl
  · exact hk _

theorem answers_framesInPayload (fc : BitVec 16) (len : Word32) : Answers s (exec (.framesInPayload fc len) s) := by
  refine (ends_withLookup fun d => ?_).answers
  split <;> exact ends_finish _ _ rfl

theorem answers_encode (h : Header) (pl : Bytes) : Answers s (exec (.encode h pl) s) := by
  refine Ends.answers ?_
  split <;> exact ends_finish _ _ rfl

theorem answers_decode (dg : Bytes) : Answers s (exec (.decode dg) s) := by
  refine Ends.answers ?_
  split <;> exact ends_finish _ _ rfl

/-! ## Every operation and every request -/

/-- Every instruction ends with a result (R327). -/
theorem answers_exec (i : Instr) (s : State) : Answers s (exec i s) := by
  cases i with
  | rxPacket src dg => exact answers_rxPacket src dg
  | txPacket k pl => exact answers_txPacket k pl
  | pop k n => exact answers_pop k n
  | stop k => exact answers_stop k
  | tick => exact Ends.answers (ends_finish _ _ rfl)
  | cfgWrite idx v => exact answers_cfgWrite idx v
  | cfgRead idx => exact answers_cfgRead idx
  | sessionRead k => exact answers_sessionRead k
  | deviceFault k => exact answers_deviceFault k
  | reset => exact Ends.answers (ends_finish _ _ rfl)
  | lookup fc => exact (ends_withLookup fun _ => ends_finish _ _ rfl).answers
  | bytesPerFrame fc => exact (ends_withLookup fun _ => ends_finish _ _ rfl).answers
  | framesInPayload fc len => exact answers_framesInPayload fc len
  | framesFit fc => exact (ends_withLookup fun _ => ends_finish _ _ rfl).answers
  | encode h pl => exact answers_encode h pl
  | decode dg => exact answers_decode dg
  | wirePcm f b => exact (ends_receivePcm b.src (wireHeader 0 0 f b) b.payload).answers
  | wireCompressed8 | wireCompressed4 | wireCompressed2 | wireCompressed1 =>
    exact (ends_forward .compressed _ _).answers
  | wireService4 | wireService2 | wireService1 => exact (ends_forward .service _ _).answers

/-- A request that is no instruction ends with its refusal (R231, R298), every other as its instruction does. -/
theorem answers_runRequest (r : Request) (s : State) : Answers s (runRequest r s) := by
  unfold runRequest
  split
  case h_1 i _ => exact answers_exec i s
  case h_2 e _ => exact (ends_rejectRequest e).answers

end Operations

/-- A step takes the first request and runs it on the rest (R73). -/
theorem step_of_requests {s : State} {r : Request} {rest : List Request} (hreq : s.requests = r :: rest) :
    step s = runRequest r { s with requests := rest } := by
  simp only [step, hreq]

/-- Settles O47: the step takes one request, and running it answers a state that ends it with the others waiting. -/
theorem everyRequestEndsWithAResult : Obligations.EveryRequestEndsWithAResult := by
  intro s r rest hreq
  obtain ⟨t, hnext, hends⟩ := answers_runRequest r { s with requests := rest }
  exact ⟨t, (step_of_requests hreq).trans hnext, hends.requests, hends.result⟩

end Sys2Proof.Machine
end

section
/-! PROOFS. Parameters: no state operation writes one, so no instruction and no step does (spec 70_reset_and_hazards.md
R351). -/

namespace Sys2Proof.Machine

/-! ## The operations on the state leave the parameters alone -/

@[simp] theorem rejectRequest_params (e : DecodeError) (s : State) : (rejectRequest e s).params = s.params := by
  cases e <;> rfl

@[simp] theorem forward_params (kind : ForwardKind) (src : SrcAddr) (dg : Bytes) (s : State) :
    (forward kind src dg s).params = s.params := rfl

/-- A refusal writes its counter, and the regression reset a slot and one counter more. -/
@[simp] theorem rxRefuse_params (e : RxRefusal) (s : State) : (rxRefuse e s).params = s.params := by
  cases e <;> rfl

@[simp] theorem rxCommit_params (plan : RxPlan) (src : SrcAddr) (name : Bytes) (ctr : Word32) (s : State) :
    (rxCommit plan src name ctr s).params = s.params := by
  simp only [rxCommit, finish_params, putSlot_params]

@[simp] theorem receivePcm_params (src : SrcAddr) (h : Header) (pl : Bytes) (s : State) :
    (receivePcm src h pl s).params = s.params := by
  obtain ⟨e, -, hrefused⟩ | ⟨plan, -, hcommitted⟩ := receivePcm_cases src h pl s
  · rw [hrefused, rxRefuse_params]
  · rw [hcommitted, rxCommit_params]

@[simp] theorem popPlaying_params (s : State) (k n : Nat) (sl : Slot) : (popPlaying s k n sl).params = s.params := by
  unfold popPlaying
  split <;> rfl

@[simp] theorem popDraining_params (s : State) (k n : Nat) (sl : Slot) : (popDraining s k n sl).params = s.params := by
  unfold popDraining
  dsimp only
  split <;> rfl

@[simp] theorem filterChange_params (s : State) : (filterChange s).params = s.params := by
  by_cases hen : filterEnabled s.regs = true
  · rw [filterChange_of_enabled hen]
  · rw [filterChange_of_disabled hen]

/-- A lookup error writes the result alone; a mapped code leaves the parameters to the continuation. -/
theorem withLookup_params {fc : BitVec 16} {s : State} {k : FormatDescriptor → State}
    (hk : ∀ d, (k d).params = s.params) : (withLookup fc s k).params = s.params := by
  unfold withLookup
  split
  · rfl
  · exact hk _

/-! ## Every instruction -/

/-- Whatever next state the outcome of an operation begun in `s` is, it has the parameters of `s`. -/
def KeepsParams (s : State) (o : Host.Outcome State Fault Refusal) : Prop := ∀ t, o = .next t → t.params = s.params

section Operations
variable {s : State}

theorem keepsParams_next {t : State} (h : t.params = s.params) : KeepsParams s (.next t) := by
  rintro _ ⟨⟩
  exact h

/-- A datagram is rejected, forwarded or received as a PCM packet (`receive_cases`). -/
theorem keepsParams_receive {i : Instr} (hi : isReceive i = true) : KeepsParams s (exec i s) := by
  intro t hexec
  obtain ⟨e, -, rfl⟩ | ⟨kind, src, dg, rfl⟩ | ⟨src, h, pl, rfl⟩ := receive_cases hi hexec
  · exact rejectRequest_params e s
  · exact forward_params kind src dg s
  · exact receivePcm_params src h pl s

theorem keepsParams_pop (k : BitVec 8) (n : BitVec 16) : KeepsParams s (exec (.pop k n) s) := by
  refine keepsParams_next ?_
  split
  case h_1 => rfl
  case h_2 sl _ =>
    cases sl.state with
    | idle => rfl
    | buffering => rfl
    | playing => exact popPlaying_params s k.toNat n.toNat sl
    | draining => exact popDraining_params s k.toNat n.toNat sl

/-- The one write of CFG_WRITE that reaches further than its register is the filter change. -/
theorem keepsParams_cfgWrite (idx : BitVec 8) (v : Word32) : KeepsParams s (exec (.cfgWrite idx v) s) := by
  refine keepsParams_next ?_
  split
  case h_1 => rfl
  case h_2 k _ =>
    cases k.readOnly with
    | true => rfl
    | false =>
      cases isFilterReg k with
      | true => exact filterChange_params { s with regs := s.regs.set k v }
      | false => rfl

theorem keepsParams_framesInPayload (fc : BitVec 16) (len : Word32) :
    KeepsParams s (exec (.framesInPayload fc len) s) := by
  refine keepsParams_next (withLookup_params fun d => ?_)
  split <;> rfl

/-- No instruction writes a parameter (R351); RESET reads them for the registers and slots it writes (R297). The operations
whose branches hold only the frame rules of the state end in one case split. -/
theorem keepsParams_exec (i : Instr) (s : State) : KeepsParams s (exec i s) := by
  cases i with
  | rxPacket | wirePcm | wireCompressed8 | wireCompressed4 | wireCompressed2 | wireCompressed1 | wireService4
  | wireService2 | wireService1 => exact keepsParams_receive rfl
  | txPacket | sessionRead | stop | deviceFault | cfgRead | encode | decode =>
    refine keepsParams_next ?_
    split <;> rfl
  | pop k n => exact keepsParams_pop k n
  | tick => exact keepsParams_next rfl
  | cfgWrite idx v => exact keepsParams_cfgWrite idx v
  | reset => exact keepsParams_next rfl
  | lookup | bytesPerFrame | framesFit => exact keepsParams_next (withLookup_params fun _ => rfl)
  | framesInPayload fc len => exact keepsParams_framesInPayload fc len

/-- A request runs its instruction, or ends with its refusal (R231, R298). -/
theorem keepsParams_runRequest (r : Request) (s : State) : KeepsParams s (runRequest r s) := by
  unfold runRequest
  split
  case h_1 i _ => exact keepsParams_exec i s
  case h_2 e _ => exact keepsParams_next (rejectRequest_params e s)

end Operations

/-- An idle step keeps the state (R334), and every other runs the request it takes. -/
theorem keepsParams_step (s : State) : KeepsParams s (step s) := by
  cases hreq : s.requests with
  | nil =>
    have hidle : step s = .next s := by simp only [step, hreq]
    exact hidle ▸ keepsParams_next rfl
  | cons r rest => exact step_of_requests hreq ▸ keepsParams_runRequest r { s with requests := rest }

/-- Settles O48: `keepsParams_step`, from a frame lemma for each operation on the state. -/
theorem parametersNeverChange : Obligations.ParametersNeverChange := keepsParams_step

end Sys2Proof.Machine
end

section
/-! PROOFS. Decoding and encoding: a datagram and the wire class it decodes to determine each other, an operation request
decodes by its code alone, and the opcode table has one row for each (spec 30_encoding.md R80, R92, R100, R101). -/

namespace Sys2Proof

/-! ## The wire classes by sub-protocol and codec (R92) -/

section WireInstr
variable (f : WireFields) (b : WireBody)

theorem wireInstr_zero_zero : wireInstr 0 0 f b = .wirePcm f b := rfl

theorem wireInstr_compressed8 (c : BitVec 3) : wireInstr 0 (1#1 ++ c : BitVec (1 + 3)) f b = .wireCompressed8 c f b := by
  have hbits : ∀ c : BitVec 3, (1#1 ++ c : BitVec (1 + 3)).getLsbD 3 = true ∧
      (1#1 ++ c : BitVec (1 + 3)).extractLsb' 0 3 = c := by decide
  simp only [wireInstr, BitVec.ofNat_eq_ofNat, BitVec.getLsbD_zero, hbits c, Bool.false_eq_true, if_true, if_false]

theorem wireInstr_compressed4 (c : BitVec 2) : wireInstr 0 (1#2 ++ c : BitVec (2 + 2)) f b = .wireCompressed4 c f b := by
  have hbits : ∀ c : BitVec 2, (1#2 ++ c : BitVec (2 + 2)).getLsbD 3 = false ∧
      (1#2 ++ c : BitVec (2 + 2)).getLsbD 2 = true ∧ (1#2 ++ c : BitVec (2 + 2)).extractLsb' 0 2 = c := by decide
  simp only [wireInstr, BitVec.ofNat_eq_ofNat, BitVec.getLsbD_zero, hbits c, Bool.false_eq_true, if_true, if_false]

theorem wireInstr_compressed2 (c : BitVec 1) : wireInstr 0 (1#3 ++ c : BitVec (3 + 1)) f b = .wireCompressed2 c f b := by
  have hbits : ∀ c : BitVec 1, (1#3 ++ c : BitVec (3 + 1)).getLsbD 3 = false ∧
      (1#3 ++ c : BitVec (3 + 1)).getLsbD 2 = false ∧ (1#3 ++ c : BitVec (3 + 1)).getLsbD 1 = true ∧
      (1#3 ++ c : BitVec (3 + 1)).extractLsb' 0 1 = c := by decide
  simp only [wireInstr, BitVec.ofNat_eq_ofNat, BitVec.getLsbD_zero, hbits c, Bool.false_eq_true, if_true, if_false]

theorem wireInstr_compressed1 : wireInstr 0 1 f b = .wireCompressed1 f b := rfl

variable (codec : BitVec 4)

theorem wireInstr_service4 (u : BitVec 2) : wireInstr (1#1 ++ u : BitVec (1 + 2)) codec f b = .wireService4 u codec f b := by
  have hbits : ∀ u : BitVec 2, (1#1 ++ u : BitVec (1 + 2)).getLsbD 2 = true ∧
      (1#1 ++ u : BitVec (1 + 2)).extractLsb' 0 2 = u := by decide
  simp only [wireInstr, hbits u, if_true]

theorem wireInstr_service2 (u : BitVec 1) : wireInstr (1#2 ++ u : BitVec (2 + 1)) codec f b = .wireService2 u codec f b := by
  have hbits : ∀ u : BitVec 1, (1#2 ++ u : BitVec (2 + 1)).getLsbD 2 = false ∧
      (1#2 ++ u : BitVec (2 + 1)).getLsbD 1 = true ∧ (1#2 ++ u : BitVec (2 + 1)).extractLsb' 0 1 = u := by decide
  simp only [wireInstr, hbits u, Bool.false_eq_true, if_true, if_false]

theorem wireInstr_service1 : wireInstr 1 codec f b = .wireService1 codec f b := rfl

/-- A property of the wire classes holds for every sub-protocol and codec when it holds for the eight forms that the rows
of R92 fix. -/
theorem wireInstr_induction {motive : BitVec 3 → BitVec 4 → Prop} (pcm : motive 0 0)
    (compressed8 : ∀ c : BitVec 3, motive 0 (1#1 ++ c : BitVec (1 + 3)))
    (compressed4 : ∀ c : BitVec 2, motive 0 (1#2 ++ c : BitVec (2 + 2)))
    (compressed2 : ∀ c : BitVec 1, motive 0 (1#3 ++ c : BitVec (3 + 1))) (compressed1 : motive 0 1)
    (service4 : ∀ (u : BitVec 2) (codec : BitVec 4), motive (1#1 ++ u : BitVec (1 + 2)) codec)
    (service2 : ∀ (u : BitVec 1) (codec : BitVec 4), motive (1#2 ++ u : BitVec (2 + 1)) codec)
    (service1 : ∀ codec : BitVec 4, motive 1 codec) (sub : BitVec 3) (codec : BitVec 4) : motive sub codec := by
  have hsub : ∀ sub : BitVec 3, sub = 0 ∨ sub = 1 ∨ (∃ u : BitVec 1, sub = (1#2 ++ u : BitVec (2 + 1))) ∨
      ∃ u : BitVec 2, sub = (1#1 ++ u : BitVec (1 + 2)) := by decide
  have hcodec : ∀ codec : BitVec 4, codec = 0 ∨ codec = 1 ∨ (∃ c : BitVec 1, codec = (1#3 ++ c : BitVec (3 + 1))) ∨
      (∃ c : BitVec 2, codec = (1#2 ++ c : BitVec (2 + 2))) ∨ ∃ c : BitVec 3, codec = (1#1 ++ c : BitVec (1 + 3)) := by
    decide
  obtain rfl | rfl | ⟨u, rfl⟩ | ⟨u, rfl⟩ := hsub sub
  · obtain rfl | rfl | ⟨c, rfl⟩ | ⟨c, rfl⟩ | ⟨c, rfl⟩ := hcodec codec
    · exact pcm
    · exact compressed1
    · exact compressed2 c
    · exact compressed4 c
    · exact compressed8 c
  · exact service1 codec
  · exact service2 u codec
  · exact service4 u codec

/-- The encoder writes a wire class back as the datagram of its sub-protocol and codec. -/
theorem encode_wireInstr (sub : BitVec 3) :
    encode (wireInstr sub codec f b) = .datagram b.src (wireDatagram sub codec f b) := by
  induction sub, codec using wireInstr_induction with
  | pcm => rw [wireInstr_zero_zero, encode]
  | compressed8 c => rw [wireInstr_compressed8, encode]
  | compressed4 c => rw [wireInstr_compressed4, encode]
  | compressed2 c => rw [wireInstr_compressed2, encode]
  | compressed1 => rw [wireInstr_compressed1, encode]
  | service4 u codec => rw [wireInstr_service4, encode]
  | service2 u codec => rw [wireInstr_service2, encode]
  | service1 codec => rw [wireInstr_service1, encode]

end WireInstr

/-! ## Datagrams: decode and encode are inverse -/

section Datagram
variable {p : Params} {src : SrcAddr} {dg : Bytes} {i : Instr}

/-- A datagram decodes exactly where the structural checks pass, to the class of its own fields (R92, R141). -/
theorem decode_datagram_eq_ok_iff :
    decode p (.datagram src dg) = .ok i ↔ structureError p.maxPacketSize dg = none ∧
      i = wireInstr (subProtocolOf (byteAt dg 4)) (codecOf (byteAt dg 7)) (wireFieldsOf dg) (wireBodyOf src dg) := by
  simp only [decode, decodeDatagram]
  cases structureError p.maxPacketSize dg <;> simp [eq_comm]

/-- The datagram of a well-formed body decodes to the class it was written for. -/
theorem decode_wireDatagram {b : WireBody} (hb : WireBody.WF p b) (sub : BitVec 3) (codec : BitVec 4) (f : WireFields) :
    decode p (.datagram b.src (wireDatagram sub codec f b)) = .ok (wireInstr sub codec f b) := by
  obtain ⟨-, hname, hfits⟩ := hb
  exact decodeDatagram_datagramBytes sub codec f b.frameCounter b.payload b.src hname hfits

/-- A wire class with a well-formed body decodes from its encoding. -/
theorem decode_encode_wireInstr {b : WireBody} (hb : WireBody.WF p b) (sub : BitVec 3) (codec : BitVec 4) (f : WireFields) :
    decode p (encode (wireInstr sub codec f b)) = .ok (wireInstr sub codec f b) :=
  encode_wireInstr f b codec sub ▸ decode_wireDatagram hb sub codec f

/-- Encoding what a datagram decodes to lays its own fields out again. -/
theorem encode_of_decode_datagram (hdec : decode p (.datagram src dg) = .ok i) : encode i = .datagram src dg := by
  obtain ⟨hstruct, rfl⟩ := decode_datagram_eq_ok_iff.1 hdec
  obtain ⟨h28, -, hmagic⟩ := (structureError_eq_none_iff _ _).1 hstruct
  rw [encode_wireInstr]
  exact congrArg (Request.datagram src) (datagramBytes_of_fields h28 hmagic)

end Datagram

/-! ## Operation requests -/

/-- The encoding of an operation decodes to the instruction of the table at its code (R100, R101). -/
theorem decode_opRequest {p : Params} {opc idx : BitVec 8} {arg : BitVec 16} {val : Word32} {src : SrcAddr} {buf : Bytes}
    {hdr : Header} {i : Instr} (h : (opc.toNat, i) ∈ opTable (opWord opc idx arg) val src buf hdr) :
    decode p (opRequest opc idx arg val src buf hdr) = .ok i :=
  decodeOp_of_mem_opTable ((opcOf_opWord opc idx arg).symm ▸ h)

end Sys2Proof

namespace Sys2Proof.Machine

/-- Settles O53: an operation is the entry of `opTable` at its code, and a wire class is the `wireInstr` of the
sub-protocol and codec that the encoder writes. -/
theorem decodeEncodeRoundTrip : Obligations.DecodeEncodeRoundTrip := by
  intro p i hwf
  cases i with
  | rxPacket | txPacket | pop | stop | tick | cfgWrite | cfgRead | sessionRead | deviceFault | reset | lookup
  | bytesPerFrame | framesInPayload | framesFit | encode | decode => exact decode_opRequest (by simp [opTable])
  | wirePcm f b => exact wireInstr_zero_zero f b ▸ decode_encode_wireInstr hwf 0 0 f
  | wireCompressed8 c f b => exact wireInstr_compressed8 f b c ▸ decode_encode_wireInstr hwf 0 _ f
  | wireCompressed4 c f b => exact wireInstr_compressed4 f b c ▸ decode_encode_wireInstr hwf 0 _ f
  | wireCompressed2 c f b => exact wireInstr_compressed2 f b c ▸ decode_encode_wireInstr hwf 0 _ f
  | wireCompressed1 f b => exact wireInstr_compressed1 f b ▸ decode_encode_wireInstr hwf 0 1 f
  | wireService4 u codec f b => exact wireInstr_service4 f b codec u ▸ decode_encode_wireInstr hwf _ codec f
  | wireService2 u codec f b => exact wireInstr_service2 f b codec u ▸ decode_encode_wireInstr hwf _ codec f
  | wireService1 codec f b => exact wireInstr_service1 f b codec ▸ decode_encode_wireInstr hwf 1 codec f

/-- Settles O54: a datagram that decodes is laid out from its own fields. -/
theorem encodeDecodedDatagram : Obligations.EncodeDecodedDatagram := fun _ _ _ _ => encode_of_decode_datagram

/-! ## The rows of the opcode table (R92, R101) -/

/-- A row of the OP format selects an operation request by its code alone. -/
theorem opRow_selects_iff {opc word0 word1 : Word32} {src : SrcAddr} {buf : Bytes} {hdr : Header} :
    (opRow opc).Selects (.op word0 word1 src buf hdr) ↔ word0 &&& 0x000000FF = opc := by
  simp [TableRow.Selects, opRow, tableWordOf]

/-- The operation code of R100, as the mask of the OP rows cuts it out. -/
theorem and_opMask (word0 : Word32) : word0 &&& 0x000000FF = BitVec.ofNat 32 (opcOf word0).toNat := by
  apply BitVec.eq_of_toNat_eq
  rw [toNat_opcOf, BitVec.toNat_and, BitVec.toNat_ofNat]
  have hmask : word0.toNat &&& 2 ^ 8 - 1 = word0.toNat % 256 := Nat.and_two_pow_sub_one_eq_mod ..
  have hlt : word0.toNat % 256 < 2 ^ 32 := by omega
  exact hmask.trans (Nat.mod_eq_of_lt hlt).symm

/-- An operation request decodes to an instruction whose row is that of its code. -/
theorem rowOf_of_decodeOp {word0 word1 : Word32} {src : SrcAddr} {buf : Bytes} {hdr : Header} {i : Instr}
    (hdec : decodeOp word0 word1 src buf hdr = .ok i) : rowOf i = opRow (word0 &&& 0x000000FF) := by
  rw [and_opMask]
  unfold decodeOp at hdec
  split at hdec
  case h_17 => cases hdec
  all_goals
    rename_i hcode
    cases hdec
    rw [hcode]
    rfl

/-- The eight rows of the WIRE format. -/
def wireRows : List TableRow :=
  [⟨.wire, 0x00000000, 0xF00000E0⟩, ⟨.wire, 0x80000000, 0x800000E0⟩, ⟨.wire, 0x40000000, 0xC00000E0⟩,
    ⟨.wire, 0x20000000, 0xE00000E0⟩, ⟨.wire, 0x10000000, 0xF00000E0⟩, ⟨.wire, 0x00000080, 0x00000080⟩,
    ⟨.wire, 0x00000040, 0x000000C0⟩, ⟨.wire, 0x00000020, 0x000000E0⟩]

/-- Every row of the table is of the OP format, or one of the eight of the WIRE format. -/
theorem rowOf_cases (i : Instr) : (∃ opc, rowOf i = opRow opc) ∨ rowOf i ∈ wireRows := by
  cases i with
  | rxPacket | txPacket | pop | stop | tick | cfgWrite | cfgRead | sessionRead | deviceFault | reset | lookup
  | bytesPerFrame | framesInPayload | framesFit | encode | decode => exact .inl ⟨_, rfl⟩
  | wirePcm | wireCompressed8 | wireCompressed4 | wireCompressed2 | wireCompressed1 | wireService4 | wireService2
  | wireService1 => exact .inr (by simp [rowOf, wireRows])

/-- The WIRE row of a sub-protocol and a codec: that of the class they select. -/
def wireRow (sub : BitVec 3) (codec : BitVec 4) : TableRow := rowOf (wireInstr sub codec ⟨0, 0, 0, 0, 0⟩ ⟨0, [], 0, []⟩)

/-- The row of a wire class depends on nothing but its sub-protocol and codec. -/
theorem rowOf_wireInstr (sub : BitVec 3) (codec : BitVec 4) (f : WireFields) (b : WireBody) :
    rowOf (wireInstr sub codec f b) = wireRow sub codec := by
  unfold wireRow wireInstr
  split_ifs <;> rfl

theorem wireRow_mem (sub : BitVec 3) (codec : BitVec 4) : wireRow sub codec ∈ wireRows := by
  revert sub codec
  decide

/-- On the bits that the WIRE masks reach, one row of the eight matches each sub-protocol and codec. -/
theorem wireRows_match_iff {row : TableRow} (hrow : row ∈ wireRows) (sub : BitVec 3) (codec : BitVec 4) :
    (codec ++ 0#20 ++ sub ++ 0#5 : BitVec (4 + 20 + 3 + 5)) &&& row.mask = row.pattern ↔ row = wireRow sub codec := by
  have hall : ∀ row ∈ wireRows, ∀ (sub : BitVec 3) (codec : BitVec 4),
      (codec ++ 0#20 ++ sub ++ 0#5 : BitVec (4 + 20 + 3 + 5)) &&& row.mask = row.pattern ↔ row = wireRow sub codec := by
    decide
  exact hall row hrow sub codec

/-- The row that selects a datagram is that of its sub-protocol and codec. -/
theorem wireRows_selects_iff {row : TableRow} (hrow : row ∈ wireRows) (src : SrcAddr) (dg : Bytes) :
    row.Selects (.datagram src dg) ↔ row = wireRow (subProtocolOf (byteAt dg 4)) (codecOf (byteAt dg 7)) := by
  have hformat : ∀ row ∈ wireRows, row.format = .wire ∧ 0xF00000E0 &&& row.mask = row.mask := by decide
  obtain ⟨hwire, hmask⟩ := hformat row hrow
  rw [← wireRows_match_iff hrow, ← Laws.RowSelects.wireWord_and _ (byteAt dg 5) (byteAt dg 6), BitVec.and_assoc, hmask]
  exact and_iff_right hwire

/-- Settles O57: for an operation the code is the row's pattern; for a datagram the row is the one that its sub-protocol
and codec select. -/
theorem rowsPartitionRequests : Obligations.RowsPartitionRequests := by
  intro p r i hdec
  cases r with
  | op word0 word1 src buf hdr =>
    rw [rowOf_of_decodeOp hdec]
    refine ⟨opRow_selects_iff.2 rfl, fun j hj => ?_⟩
    obtain ⟨opc, hop⟩ | hwire := rowOf_cases j
    · rw [hop] at hj ⊢
      rw [opRow_selects_iff.1 hj]
    · have hformat : ∀ row ∈ wireRows, row.format ≠ .op := by decide
      exact absurd hj.1 (hformat _ hwire)
  | datagram src dg =>
    obtain ⟨-, rfl⟩ := decode_datagram_eq_ok_iff.1 hdec
    rw [rowOf_wireInstr]
    refine ⟨(wireRows_selects_iff (wireRow_mem _ _) src dg).2 rfl, fun j hj => ?_⟩
    obtain ⟨opc, hop⟩ | hwire := rowOf_cases j
    · rw [hop] at hj
      cases hj.1
    · exact (wireRows_selects_iff hwire src dg).1 hj

/-- Settles O58: each word is decoded by evaluation. -/
theorem knownWordsDecode : Obligations.KnownWordsDecode := by
  refine ⟨?pop, ?cfgWrite, ?lookup, ?reset, ?pcm, ?compressed8, ?service2⟩ <;> decide

theorem runRequest_of_decode_ok {s : State} {r : Request} {i : Instr} (hdec : decode s.params r = .ok i) :
    runRequest r s = exec i s := by
  simp only [runRequest, hdec]

/-- Settles O59: the two ends of a decode are the two branches of a request that has been taken. -/
theorem stepRunsDecoded : Obligations.StepRunsDecoded := by
  intro s
  refine ⟨fun hidle => ?idle, fun r rest hreq => ⟨fun i hdec => ?runs, fun e hdec => step_of_decode_error hreq hdec⟩⟩
  case idle => simp only [step, hidle]
  case runs => exact (step_of_requests hreq).trans (runRequest_of_decode_ok hdec)

/-! ## ENCODE and DECODE (R146) -/

/-- Settles O9: `packetDecode_packetEncode`, for any two states of one parameter set. -/
theorem encodeDecodeRoundTrip : Obligations.EncodeDecodeRoundTrip := by
  intro s t h pl hparams hname hfits
  have henc := packetEncode_eq_ok_iff.2 ⟨hname, hfits, rfl⟩
  have hdec : Decodes t.params _ h pl := (decodes_iff _ _ _ _).2 (hparams ▸ packetDecode_packetEncode henc)
  exact ⟨_, exec_encode_of_ok henc, exec_decode_of_decodes hdec⟩

/-! ## The meaning of a wire class (R92, R150, R151) -/

/-- What a wire class does, by the dispatch class of its sub-protocol and codec. -/
theorem exec_wireInstr (sub : BitVec 3) (codec : BitVec 4) (f : WireFields) (b : WireBody) (s : State) :
    exec (wireInstr sub codec f b) s = .next (
      match wireClass sub codec with
      | .pcm => receivePcm b.src (wireHeader 0 0 f b) b.payload s
      | .compressed => forward .compressed b.src (wireDatagram sub codec f b) s
      | .service => forward .service b.src (wireDatagram sub codec f b) s) := by
  induction sub, codec using wireInstr_induction with
  | pcm => rfl
  | compressed8 c =>
    have hclass : ∀ c : BitVec 3, wireClass 0 (1#1 ++ c : BitVec (1 + 3)) = .compressed := by decide
    rw [wireInstr_compressed8, hclass c]
    rfl
  | compressed4 c =>
    have hclass : ∀ c : BitVec 2, wireClass 0 (1#2 ++ c : BitVec (2 + 2)) = .compressed := by decide
    rw [wireInstr_compressed4, hclass c]
    rfl
  | compressed2 c =>
    have hclass : ∀ c : BitVec 1, wireClass 0 (1#3 ++ c : BitVec (3 + 1)) = .compressed := by decide
    rw [wireInstr_compressed2, hclass c]
    rfl
  | compressed1 => rfl
  | service4 u codec =>
    have hclass : ∀ u : BitVec 2, (1#1 ++ u : BitVec (1 + 2)) ≠ 0 := by decide
    rw [wireInstr_service4, wireClass, if_pos (hclass u)]
    rfl
  | service2 u codec =>
    have hclass : ∀ u : BitVec 1, (1#2 ++ u : BitVec (2 + 1)) ≠ 0 := by decide
    rw [wireInstr_service2, wireClass, if_pos (hclass u)]
    rfl
  | service1 codec => rfl

/-- A forwarding class emits the datagram of R80 that it stands for, counts it, and answers the code of its kind. -/
theorem exec_wireInstr_forward {sub : BitVec 3} {codec : BitVec 4} {kind : ForwardKind}
    (hclass : wireClass sub codec = match kind with | .compressed => .compressed | .service => .service)
    (f : WireFields) (b : WireBody) (s : State) :
    exec (wireInstr sub codec f b) s = .next { s with
      events := s.events ++ [.forward kind b.src (wireLayout
        ⟨sub, f.srIndex, f.nbsMinus1, f.nbcMinus1, f.dataType, f.reserved, codec, [], b.frameCounter⟩
        b.nameField b.payload)]
      regs := s.regs.set .statRxForwarded (s.regs.get .statRxForwarded + 1)
      result := some ⟨if kind = .service then .forwardedService else .forwardedCompressed, .none⟩ } := by
  rw [exec_wireInstr, hclass, ← datagramBytes_eq_wireLayout]
  cases kind <;> exact congrArg Host.Outcome.next (forward_eq ..)

/-- The four WIRE_COMPRESSED rows are the wire classes of sub-protocol 0 and a non-zero codec, the codec being the number
that the row and its free bits make. -/
theorem compressed_eq_wireInstr {codec : BitVec 4} {f : WireFields} {b : WireBody} {i : Instr}
    (h : (∃ c : BitVec 3, codec.toNat = 8 + c.toNat ∧ i = .wireCompressed8 c f b) ∨
      (∃ c : BitVec 2, codec.toNat = 4 + c.toNat ∧ i = .wireCompressed4 c f b) ∨
      (∃ c : BitVec 1, codec.toNat = 2 + c.toNat ∧ i = .wireCompressed2 c f b) ∨
      (codec.toNat = 1 ∧ i = .wireCompressed1 f b)) :
    i = wireInstr 0 codec f b ∧ wireClass 0 codec = .compressed := by
  have hclass : ∀ codec : BitVec 4, 0 < codec.toNat → wireClass 0 codec = .compressed := by decide
  refine ⟨?_, hclass codec (by omega)⟩
  obtain ⟨c, hc, rfl⟩ | ⟨c, hc, rfl⟩ | ⟨c, hc, rfl⟩ | ⟨hc, rfl⟩ := h
  · have hcodec : ∀ c : BitVec 3, (1#1 ++ c : BitVec (1 + 3)).toNat = 8 + c.toNat := by decide
    rw [← wireInstr_compressed8, BitVec.eq_of_toNat_eq (hc.trans (hcodec c).symm)]
  · have hcodec : ∀ c : BitVec 2, (1#2 ++ c : BitVec (2 + 2)).toNat = 4 + c.toNat := by decide
    rw [← wireInstr_compressed4, BitVec.eq_of_toNat_eq (hc.trans (hcodec c).symm)]
  · have hcodec : ∀ c : BitVec 1, (1#3 ++ c : BitVec (3 + 1)).toNat = 2 + c.toNat := by decide
    rw [← wireInstr_compressed2, BitVec.eq_of_toNat_eq (hc.trans (hcodec c).symm)]
  · rw [← wireInstr_compressed1, BitVec.eq_of_toNat_eq (y := 1#4) hc]
    rfl

/-- The three WIRE_SERVICE rows are the wire classes of a non-zero sub-protocol, whatever the codec. -/
theorem service_eq_wireInstr {sub : BitVec 3} {codec : BitVec 4} {f : WireFields} {b : WireBody} {i : Instr}
    (h : (∃ u : BitVec 2, sub.toNat = 4 + u.toNat ∧ i = .wireService4 u codec f b) ∨
      (∃ u : BitVec 1, sub.toNat = 2 + u.toNat ∧ i = .wireService2 u codec f b) ∨
      (sub.toNat = 1 ∧ i = .wireService1 codec f b)) :
    i = wireInstr sub codec f b ∧ wireClass sub codec = .service := by
  have hne : ∀ sub : BitVec 3, 0 < sub.toNat → sub ≠ 0 := by decide
  refine ⟨?_, if_pos (hne sub (by omega))⟩
  obtain ⟨u, hu, rfl⟩ | ⟨u, hu, rfl⟩ | ⟨hu, rfl⟩ := h
  · have hsub : ∀ u : BitVec 2, (1#1 ++ u : BitVec (1 + 2)).toNat = 4 + u.toNat := by decide
    rw [← wireInstr_service4, BitVec.eq_of_toNat_eq (hu.trans (hsub u).symm)]
  · have hsub : ∀ u : BitVec 1, (1#2 ++ u : BitVec (2 + 1)).toNat = 2 + u.toNat := by decide
    rw [← wireInstr_service2, BitVec.eq_of_toNat_eq (hu.trans (hsub u).symm)]
  · rw [← wireInstr_service1, BitVec.eq_of_toNat_eq (y := 1#3) hu]
    rfl

/-- Settles O21: each of the seven is the `wireInstr` of its sub-protocol and codec, which forwards. -/
theorem wireClassesForward : Obligations.WireClassesForward := by
  intro s f b i sub codec kind code h
  obtain ⟨rfl, rfl, rfl, hrow⟩ | ⟨rfl, rfl, hrow⟩ := h
  · obtain ⟨rfl, hclass⟩ := compressed_eq_wireInstr hrow
    exact exec_wireInstr_forward (kind := .compressed) hclass f b s
  · obtain ⟨rfl, hclass⟩ := service_eq_wireInstr hrow
    exact exec_wireInstr_forward (kind := .service) hclass f b s

/-- The PCM class is that of sub-protocol 0 and codec 0. -/
theorem wireClass_eq_pcm {sub : BitVec 3} {codec : BitVec 4} (h : wireClass sub codec = .pcm) : sub = 0 ∧ codec = 0 := by
  unfold wireClass at h
  split_ifs at h with hsub hcodec
  exact ⟨not_not.1 hsub, not_not.1 hcodec⟩

/-- RX_PACKET of a well-structured datagram runs the wire class of its fields (R92, R150, R151). -/
theorem exec_rxPacket_eq_wireInstr {s : State} {dg : Bytes} (hw : WellStructured s.params dg) (src : SrcAddr) :
    exec (.rxPacket src dg) s =
      exec (wireInstr (subProtocolOf (byteAt dg 4)) (codecOf (byteAt dg 7)) (wireFieldsOf dg) (wireBodyOf src dg)) s := by
  have hdg : wireDatagram (subProtocolOf (byteAt dg 4)) (codecOf (byteAt dg 7)) (wireFieldsOf dg) (wireBodyOf src dg) = dg :=
    datagramBytes_of_fields hw.1 hw.2.2
  rw [exec_wireInstr, hdg]
  simp only [exec, execRxPacket, (decodes_iff _ _ _ _).1 (decodes_headerOf hw)]
  cases hclass : wireClass (subProtocolOf (byteAt dg 4)) (codecOf (byteAt dg 7)) with
  | compressed => simp only [headerOf, hclass]; rfl
  | service => simp only [headerOf, hclass]; rfl
  | pcm =>
    obtain ⟨hsub, hcodec⟩ := wireClass_eq_pcm hclass
    simp only [headerOf, hsub, hcodec]
    rfl

/-- The arrival of a datagram runs the wire class it decodes to. -/
theorem decode_datagram_of_wellStructured {p : Params} {dg : Bytes} (hw : WellStructured p dg) (src : SrcAddr) :
    decode p (.datagram src dg) = .ok
      (wireInstr (subProtocolOf (byteAt dg 4)) (codecOf (byteAt dg 7)) (wireFieldsOf dg) (wireBodyOf src dg)) :=
  decode_datagram_eq_ok_iff.2 ⟨(wellStructured_iff _ _).1 hw, rfl⟩

/-- The arrival of a datagram does what RX_PACKET of it does, malformed or not (notes/assumptions/4.md). -/
theorem runRequest_datagram (src : SrcAddr) (dg : Bytes) (s : State) :
    runRequest (.datagram src dg) s = exec (.rxPacket src dg) s := by
  by_cases hw : WellStructured s.params dg
  · rw [runRequest_of_decode_ok (decode_datagram_of_wellStructured hw src), exec_rxPacket_eq_wireInstr hw]
  · obtain ⟨e, herr⟩ := Option.ne_none_iff_exists'.1 (mt (wellStructured_iff _ _).2 hw)
    rw [exec_rxPacket_of_structureError herr]
    simp only [runRequest, decode, decodeDatagram, herr]

/-- An operation request of code 0x01 runs RX_PACKET of its source and buffer (R101). -/
theorem runRequest_rxPacket {word0 : Word32} (hcode : word0.toNat % 256 = 1) (word1 : Word32) (src : SrcAddr) (dg : Bytes)
    (hdr : Header) (s : State) : runRequest (.op word0 word1 src dg hdr) s = exec (.rxPacket src dg) s := by
  refine runRequest_of_decode_ok (decodeOp_of_mem_opTable ?_)
  rw [toNat_opcOf, hcode]
  exact List.mem_cons_self

/-- Settles O22: both requests run RX_PACKET, and RX_PACKET runs the wire class. -/
theorem datagramIsRxPacket : Obligations.DatagramIsRxPacket := by
  intro s src dg rest word1 hdr word0 hcode
  refine ⟨?_, fun hw => ⟨_, decode_datagram_of_wellStructured hw src, exec_rxPacket_eq_wireInstr hw src⟩⟩
  calc step { s with requests := .datagram src dg :: rest }
      = runRequest (.datagram src dg) { s with requests := rest } := rfl
    _ = exec (.rxPacket src dg) { s with requests := rest } := runRequest_datagram src dg _
    _ = runRequest (.op word0 word1 src dg hdr) { s with requests := rest } :=
        (runRequest_rxPacket hcode word1 src dg hdr _).symm

end Sys2Proof.Machine
end

section
/-! PROOFS. The playback buffer: the closed form of a push, and what POP does in each state of a session
(spec 43_playback_buffer.md R191 to R194, R202, R203, R209). -/

namespace Sys2Proof.Machine

/-! ## Pushing (R191 to R194) -/

/-- Settles O11: `pushFrames_eq` is the closed form of a push, and `pushSilence_eq` says that a silence push is one. -/
theorem pushClosedForm : Obligations.PushClosedForm := by
  intro cap dropped q hcap hq
  refine ⟨fun fs => ?frames, fun m d => pushSilence_eq hcap (silenceFrame d) m dropped hq⟩
  have hpush : fs.foldl (fifoPush cap) (q, dropped) = _ := pushFrames_eq hcap fs q dropped hq
  have hcut : q.length + fs.length - cap = q.length + fs.length - min cap (q.length + fs.length) := by omega
  rw [hpush, newest, List.length_append, hcut]
  exact ⟨rfl, rfl⟩

/-! ## POP (R202, R203, R209) -/

section Pop
variable {s : State} {k : BitVec 8} {n : BitVec 16} {sl : Slot}

theorem exec_pop_of_none (hnone : s.session? k.toNat = none) : exec (.pop k n) s = .next (raiseNoSession k s) := by
  simp only [exec, execPop, hnone]

/-- A session that does not play out answers no frames. -/
theorem exec_pop_of_notPlaying (hses : s.session? k.toNat = some sl) (hst : sl.state = .idle ∨ sl.state = .buffering) :
    exec (.pop k n) s = .next (finish .popNotPlaying (.frames []) s) := by
  obtain hst | hst := hst <;> simp only [exec, execPop, hses, hst]

theorem exec_pop_of_playing (hses : s.session? k.toNat = some sl) (hst : sl.state = .playing) :
    exec (.pop k n) s = .next (popPlaying s k.toNat n.toNat sl) := by
  simp only [exec, execPop, hses, hst]

theorem exec_pop_of_draining (hses : s.session? k.toNat = some sl) (hst : sl.state = .draining) :
    exec (.pop k n) s = .next (popDraining s k.toNat n.toNat sl) := by
  simp only [exec, execPop, hses, hst]

end Pop

section PopSlot
variable {i n : Nat} {sl : Slot} (s : State)

/-- Enough frames: the oldest are delivered and the session plays on. -/
theorem popPlaying_of_le (hle : n ≤ sl.fifo.length) :
    popPlaying s i n sl = finish .ok (.frames (sl.fifo.take n)) (putSlot i { sl with fifo := sl.fifo.drop n } [] s) := by
  simp only [popPlaying, if_neg (Nat.not_lt.2 hle), fifoPop, Nat.min_eq_left hle]

/-- An underrun: all there is is delivered, and the session buffers again. -/
theorem popPlaying_of_lt (hst : sl.state = .playing) (hlt : sl.fifo.length < n) :
    popPlaying s i n sl = finish .popUnderrun (.frames sl.fifo) (count .statUnderruns 1 (putSlot i
      { sl with state := .buffering, fifo := [], prependPending := prependSilence s.regs } [.stopped i] s)) := by
  simp [popPlaying, hlt, fifoPop, Nat.min_eq_right hlt.le, setState, hst]

theorem popDraining_of_lt (hlt : n < sl.fifo.length) :
    popDraining s i n sl = finish .ok (.frames (sl.fifo.take n)) (putSlot i { sl with fifo := sl.fifo.drop n } [] s) := by
  have hrest : sl.fifo.drop n ≠ [] := fun hnil => Nat.not_le.2 hlt (List.drop_eq_nil_iff.1 hnil)
  simp only [popDraining, fifoPop, Nat.min_eq_left hlt.le, if_neg hrest]

/-- The POP that finds or leaves the queue empty frees the slot, and emits nothing: the session was not Playing. -/
theorem popDraining_of_le (hst : sl.state = .draining) (hle : sl.fifo.length ≤ n) :
    popDraining s i n sl = finish .popDrained (.frames sl.fifo) (putSlot i .cleared [] s) := by
  simp [popDraining, fifoPop, Nat.min_eq_right hle, freeSlot_eq, hst]

end PopSlot

/-- Settles O12: without a session, and in Idle and Buffering, POP writes the result alone. -/
theorem popWithoutPlaying : Obligations.PopWithoutPlaying := by
  intro s k n
  refine ⟨fun hinv hno => ?noSession, fun sl hsl hvalid hst => ?notPlaying⟩
  case noSession => rw [exec_pop_of_none (session?_of_noSessionAt hinv hno), raiseNoSession, finish]
  case notPlaying => rw [exec_pop_of_notPlaying (session?_of_valid hsl hvalid) hst, finish]

/-- Settles O13: `popPlaying_of_le`, which emits nothing. -/
theorem popDeliversFrames : Obligations.PopDeliversFrames := by
  intro s k n sl hsl hvalid hst hle
  rw [exec_pop_of_playing (session?_of_valid hsl hvalid) hst, popPlaying_of_le s hle, finish, putSlot, List.append_nil]

/-- Settles O14: `popPlaying_of_lt`, with CTRL bit 1 as the prepend. -/
theorem popUnderrun : Obligations.PopUnderrun := by
  intro s k n sl hsl hvalid hst hlt
  rw [exec_pop_of_playing (session?_of_valid hsl hvalid) hst, popPlaying_of_lt s hst hlt]
  rfl

/-- Settles O15: the queue that POP leaves is empty exactly where it asks for all of it. -/
theorem popDrains : Obligations.PopDrains := by
  intro s k n sl hsl hvalid hst
  rw [exec_pop_of_draining (session?_of_valid hsl hvalid) hst]
  refine ⟨fun hlt => ?plays, fun hle => ?frees⟩
  case plays => rw [popDraining_of_lt s hlt, finish, putSlot, List.append_nil]
  case frees => rw [popDraining_of_le s hst hle, finish, putSlot, List.append_nil]

end Sys2Proof.Machine
end

section
/-! PROOFS. The invariant: each operation on the state keeps it, so each instruction with operands that an agent can present
does, and so does each step (spec 10_state.md R38, R8, R22; 43_playback_buffer.md R208 a). -/

namespace Sys2Proof

/-! ## What a request decodes to has legal operands (R100, R141) -/

theorem instrWF_of_decodeOp {p : Params} {word0 word1 : Word32} {src : SrcAddr} {buf : Bytes} {hdr : Header} {i : Instr}
    (hr : Request.WF p (.op word0 word1 src buf hdr)) (hdec : decodeOp word0 word1 src buf hdr = .ok i) : Instr.WF p i := by
  obtain ⟨hsrc, hbuf, hhdr⟩ := hr
  unfold decodeOp at hdec
  split at hdec <;> cases hdec
  case h_1 => exact ⟨hsrc, hbuf⟩
  case h_2 => exact hbuf
  case h_15 => exact ⟨hhdr, hbuf⟩
  case h_16 => exact hbuf
  all_goals exact trivial

theorem instrWF_wireInstr {p : Params} {b : WireBody} (hb : WireBody.WF p b) (sub : BitVec 3) (codec : BitVec 4)
    (f : WireFields) : Instr.WF p (wireInstr sub codec f b) := by
  unfold wireInstr
  split_ifs <;> exact hb

theorem instrWF_of_decode {p : Params} {r : Request} {i : Instr} (hr : Request.WF p r) (hdec : decode p r = .ok i) :
    Instr.WF p i := by
  cases r with
  | op => exact instrWF_of_decodeOp hr hdec
  | datagram src dg =>
    obtain ⟨hstruct, rfl⟩ := decode_datagram_eq_ok_iff.1 hdec
    obtain ⟨h28, hfits, -⟩ := (structureError_eq_none_iff _ _).1 hstruct
    refine instrWF_wireInstr ⟨hr.1, ?_, ?_⟩ _ _ _
    · simp only [wireBodyOf, memRead_length]
      omega
    · simp only [wireBodyOf, List.length_drop]
      omega

end Sys2Proof

namespace Sys2Proof.Machine

/-! ## Slots -/

theorem slotInv_of_getElem? {s : State} (h : Inv s) {k : Nat} {sl : Slot} (hsl : s.slots[k]? = some sl) :
    SlotInv s.params sl := h.slots sl (List.mem_of_getElem? hsl)

/-- A free slot of a legal state holds the cleared values (R39). -/
theorem eq_cleared_of_free {p : Params} {sl : Slot} (h : SlotInv p sl) (hfree : sl.valid = false) : sl = .cleared := by
  obtain ⟨-, -, -, -, -, -, -, -, hcleared⟩ := h
  exact hcleared hfree

theorem slotInv_tornDown {p : Params} {sl : Slot} (h : SlotInv p sl) (hv : sl.valid = true) : SlotInv p (tornDown sl) := by
  have hteardown := slotInv_teardown h hv false false 0
  rwa [teardown_tornDown] at hteardown

/-- A slot that a teardown leaves valid holds the session it held. -/
theorem tornDown_key {sl : Slot} (hv : (tornDown sl).valid = true) :
    sl.valid = true ∧ (tornDown sl).src = sl.src ∧ (tornDown sl).name = sl.name := by
  unfold tornDown at hv ⊢
  split_ifs at hv ⊢
  · exact ⟨hv, rfl, rfl⟩
  · exact ⟨hv, rfl, rfl⟩
  · cases hv

/-- The age of a session is in no invariant. -/
theorem slotInv_aged {p : Params} {sl : Slot} (h : SlotInv p sl) (hv : sl.valid = true) (ticks : Word32) :
    SlotInv p { sl with idleTicks := ticks } := by
  obtain ⟨hcap, hidle, hempty, hframes, hfmt, hname, hsrc, hprepend, -⟩ := h
  exact ⟨hcap, hidle, hempty, hframes, hfmt, hname, hsrc, hprepend, fun hfree => absurd (hv.symm.trans hfree) (by decide)⟩

/-- A session that plays or drains keeps its invariants when frames are popped (R202). -/
theorem slotInv_popped {p : Params} {sl : Slot} (h : SlotInv p sl) (hv : sl.valid = true)
    (hst : sl.state = .playing ∨ sl.state = .draining) (n : Nat) : SlotInv p { sl with fifo := sl.fifo.drop n } := by
  have hidle : sl.state ≠ .idle := by obtain hst | hst := hst <;> simp [hst]
  obtain ⟨hcap, -, -, hframes, -, -, -, hprepend, -⟩ := id h
  refine slotInv_move h hv hidle hidle ?_ (fun f hf => hframes f (List.mem_of_mem_drop hf)) hprepend
  rw [List.length_drop]
  omega

/-- An underrun leaves a Buffering session with an empty queue (R203). -/
theorem slotInv_underrun {p : Params} {sl : Slot} (h : SlotInv p sl) (hv : sl.valid = true) (hst : sl.state = .playing)
    (prepend : Bool) : SlotInv p { sl with state := .buffering, fifo := [], prependPending := prepend } :=
  slotInv_move h hv (by simp [hst]) (by decide) (Nat.zero_le _) (by simp) (fun _ => rfl)

/-! ## The operations on the state -/

section StateOperations
variable {s : State}

/-- The invariant reads the parameters, the registers, the slots and the requests, and of the registers the reserved bits
alone. -/
theorem inv_congr {t : State} (h : Inv s) (hparams : t.params = s.params) (hslots : t.slots = s.slots)
    (hregs : RegsInv t.regs) (hreq : t.requests = s.requests) : Inv t where
  params := hparams ▸ h.params
  slotCount := by rw [hslots, hparams, h.slotCount]
  slots := by rw [hslots, hparams]; exact h.slots
  keys := hslots ▸ h.keys
  regs := hregs
  requests := by rw [hreq, hparams]; exact h.requests

theorem inv_finish (h : Inv s) (c : ResultCode) (d : ResultData) : Inv (finish c d s) := inv_congr h rfl rfl h.regs rfl

theorem inv_setReg (h : Inv s) (k : Reg) (v : Word32) : Inv { s with regs := s.regs.set k v } :=
  inv_congr h rfl rfl (regsInv_set h.regs k v) rfl

theorem inv_count (h : Inv s) (k : Reg) (n : Nat) : Inv (count k n s) := inv_setReg h k _

theorem inv_emit (h : Inv s) (es : List Event) : Inv (emit es s) := inv_congr h rfl rfl h.regs rfl

theorem regsInv_acceptedCounters {r : Regs} (h : RegsInv r) (plan : RxPlan) (fill dropped : Nat) :
    RegsInv (acceptedCounters plan fill dropped r) :=
  regsInv_bump (regsInv_bump (regsInv_bump (regsInv_bump (regsInv_bump h _ _) _ _) _ _) _ _) _ _

/-- The StreamKeys stay distinct when one slot is replaced by a slot that shares its key with no other. -/
theorem pairwise_distinctKeys_set {l : List Slot} (hl : l.Pairwise DistinctKeys) {k : Nat} {sl : Slot}
    (hnew : ∀ j b, j ≠ k → l[j]? = some b → DistinctKeys sl b) : (l.set k sl).Pairwise DistinctKeys := by
  rw [List.pairwise_iff_getElem] at hl ⊢
  intro i j hi hj hij
  simp only [List.length_set] at hi hj
  rw [List.getElem_set, List.getElem_set]
  split_ifs with hki hkj hkj
  · omega
  · exact hnew j _ (Ne.symm hkj) (List.getElem?_eq_getElem hj)
  · exact fun hv hsl hkey => hnew i _ (Ne.symm hki) (List.getElem?_eq_getElem hi) hsl hv ⟨hkey.1.symm, hkey.2.symm⟩
  · exact hl i j hi hj hij

/-- The session of slot `k` shares its StreamKey with no other slot. -/
theorem distinctKeys_of_ne (h : Inv s) {j k : Nat} {a b : Slot} (ha : s.slots[k]? = some a) (hb : s.slots[j]? = some b)
    (hne : j ≠ k) : DistinctKeys a b := by
  obtain ⟨hk, rfl⟩ := List.getElem?_eq_some_iff.1 ha
  obtain ⟨hj, rfl⟩ := List.getElem?_eq_some_iff.1 hb
  have hpair := List.pairwise_iff_getElem.1 h.keys
  obtain hlt | hlt := Nat.lt_or_gt_of_ne hne
  · exact fun hva hvb hkey => hpair j k hj hk hlt hvb hva ⟨hkey.1.symm, hkey.2.symm⟩
  · exact hpair k j hk hj hlt

/-- Replacing a slot keeps the invariant where the new slot meets its own and is free, holds the StreamKey that the slot
held, or holds one that no slot held. -/
theorem inv_putSlot (h : Inv s) {k : Nat} {old sl : Slot} (hold : s.slots[k]? = some old) (hsl : SlotInv s.params sl)
    (hkey : sl.valid = true →
      (old.valid = true ∧ sl.src = old.src ∧ sl.name = old.name) ∨ NoSessionOf s sl.src sl.name)
    (es : List Event) : Inv (putSlot k sl es s) where
  params := h.params
  slotCount := by rw [putSlot_slots, List.length_set]; exact h.slotCount
  slots := by
    intro x hx
    obtain hx | rfl := List.mem_or_eq_of_mem_set hx
    · exact h.slots x hx
    · exact hsl
  keys := by
    refine pairwise_distinctKeys_set h.keys fun j b hj hb hv hvb hkeys => ?_
    obtain ⟨hvold, hsrc, hname⟩ | hno := hkey hv
    · exact distinctKeys_of_ne h hold hb hj hvold hvb ⟨hsrc ▸ hkeys.1, hname ▸ hkeys.2⟩
    · exact hno b (List.mem_of_getElem? hb) hvb ⟨hkeys.1.symm, hkeys.2.symm⟩
  regs := h.regs
  requests := h.requests

/-- A change of every slot keeps the invariant where it keeps that of each slot and makes no StreamKey. -/
theorem inv_mapSlots (h : Inv s) {t : State} {g : Slot → Slot} (hparams : t.params = s.params) (hregs : t.regs = s.regs)
    (hreq : t.requests = s.requests) (hslots : t.slots = s.slots.map g)
    (hg : ∀ sl, SlotInv s.params sl → SlotInv s.params (g sl))
    (hkey : ∀ sl, (g sl).valid = true → sl.valid = true ∧ (g sl).src = sl.src ∧ (g sl).name = sl.name) : Inv t where
  params := hparams ▸ h.params
  slotCount := by rw [hslots, List.length_map, hparams, h.slotCount]
  slots := by
    rw [hslots, hparams]
    intro x hx
    obtain ⟨sl, hsl, rfl⟩ := List.mem_map.1 hx
    exact hg sl (h.slots sl hsl)
  keys := by
    rw [hslots, List.pairwise_map]
    refine h.keys.imp fun {a b} hab ha hb hkeys => ?_
    obtain ⟨hva, hsrca, hnamea⟩ := hkey a ha
    obtain ⟨hvb, hsrcb, hnameb⟩ := hkey b hb
    exact hab hva hvb ⟨hsrca ▸ hsrcb ▸ hkeys.1, hnamea ▸ hnameb ▸ hkeys.2⟩
  regs := hregs ▸ h.regs
  requests := by rw [hreq, hparams]; exact h.requests

/-- A block whose registers are reset and whose slots are cleared meets the invariant (R297, R350). -/
theorem inv_of_cleared (hparams : s.params.WF) (hregs : s.regs = Regs.reset s.params)
    (hslots : s.slots = List.replicate s.params.nSessions .cleared) (hreq : ∀ r ∈ s.requests, Request.WF s.params r) :
    Inv s where
  params := hparams
  slotCount := by rw [hslots, List.length_replicate]
  slots := by
    rw [hslots]
    intro sl hsl
    rw [List.eq_of_mem_replicate hsl]
    exact slotInv_cleared s.params
  keys := by
    rw [hslots]
    exact List.pairwise_replicate.2 (.inr nofun)
  regs := hregs ▸ regsInv_reset s.params
  requests := hreq

theorem inv_rejectRequest (h : Inv s) (e : DecodeError) : Inv (rejectRequest e s) := by
  cases e with
  | illegalOp => exact inv_finish h _ _
  | truncated | oversized | badMagic => exact inv_finish (inv_count h _ _) _ _

theorem inv_forward (h : Inv s) (kind : ForwardKind) (src : SrcAddr) (dg : Bytes) : Inv (forward kind src dg s) :=
  inv_finish (inv_count (inv_emit h _) _ _) _ _

end StateOperations

/-! ## Receiving (R230 to R242) -/

section Receive
variable {s : State} {src : SrcAddr} {hd : Header} {pl : Bytes}

/-- A refusal counts; a regression resets its session first, which keeps its StreamKey (R206). -/
theorem inv_rxRefuse (h : Inv s) {e : RxRefusal} (hc : rxCheck s src hd pl = .error e) : Inv (rxRefuse e s) := by
  by_cases hreg : ∃ k, e = .seqRegression k
  · obtain ⟨k, rfl⟩ := hreg
    obtain ⟨sl, hsl, hv, -⟩ := rxCheck_regression hc
    have hget : (s.slot? k).getD Slot.cleared = sl := by rw [State.slot?, hsl, Option.getD_some]
    refine inv_finish (inv_count (inv_count (inv_putSlot h hsl ?_ ?_ _) _ _) _ _) _ _
    · rw [hget]
      exact slotInv_sessionReset (slotInv_of_getElem? h hsl) hv _ _ k
    · rw [hget]
      exact fun _ => .inl ⟨hv, rfl, rfl⟩
  · rw [rxRefuse_other fun k hk => hreg ⟨k, hk⟩]
    exact inv_finish (inv_count h _ _) _ _

/-- A mapped code has 1 to 256 channels (R35, R86). -/
theorem formatWF_of_maps {p : Params} {fc : Nat} {d : FormatDescriptor} (hm : Maps p fc d) (hfc : fc < 65536) :
    FormatDescriptor.WF d := by
  obtain ⟨-, -, -, hch, -⟩ := hm
  rw [FormatDescriptor.WF, hch]
  omega

theorem headerCode_lt (hd : Header) : headerCode hd < 65536 := headerFormatCode_toNat hd ▸ (headerFormatCode hd).isLt

theorem admittedSlot_session {plan : RxPlan} (hnew : plan.isNew = false) (src : SrcAddr) (name : Bytes) (sl : Slot) :
    admittedSlot plan src name sl = sl := by
  simp [admittedSlot, hnew]

theorem admittedSlot_new {plan : RxPlan} (hnew : plan.isNew = true) (src : SrcAddr) (name : Bytes) (sl : Slot) :
    admittedSlot plan src name sl = { sl with valid := true, src := src, name := name } := by
  simp [admittedSlot, hnew]

/-- A cleared slot that takes a StreamKey is an Idle session (R237). -/
theorem slotInv_newSession {p : Params} {name : Bytes} (hname : Bytes.ValidName name) (hsrc : SrcAddr.WF p src) :
    SlotInv p { Slot.cleared with valid := true, src := src, name := name } := by
  refine ⟨Nat.zero_le _, fun _ => ?_, fun _ _ => ⟨rfl, rfl⟩, ?_, nofun, hname, hsrc, nofun, nofun⟩
  · simp
  · simp

/-- What an accepted packet says of the slot it takes: once the slot has the packet's StreamKey it meets the invariant, and
no other slot holds that key. -/
theorem slotInv_admittedSlot (h : Inv s) {plan : RxPlan} (hc : rxCheck s src hd pl = .ok plan)
    (hsrc : SrcAddr.WF s.params src) (hname : Bytes.ValidName hd.name) :
    ∃ sl, s.slots[plan.slot]? = some sl ∧ SlotInv s.params (admittedSlot plan src hd.name sl) ∧
      (admittedSlot plan src hd.name sl).valid = true ∧ (admittedSlot plan src hd.name sl).src = src ∧
      (admittedSlot plan src hd.name sl).name = hd.name ∧
      ((sl.valid = true ∧ src = sl.src ∧ hd.name = sl.name) ∨ NoSessionOf s src hd.name) := by
  obtain ⟨-, -, -, hadm⟩ := rxCheck_ok hc
  obtain ⟨hnew, hfind, -⟩ | ⟨hnew, -, hfind, hfree⟩ := admit_ok hadm
  · obtain ⟨⟨sl, hsl, hv, hs, hn⟩, -⟩ := findSession_eq_some_iff.1 hfind
    refine ⟨sl, hsl, ?_⟩
    rw [admittedSlot_session hnew]
    exact ⟨slotInv_of_getElem? h hsl, hv, hs, hn, .inl ⟨hv, hs.symm, hn.symm⟩⟩
  · obtain ⟨⟨sl, hsl, hv⟩, -⟩ := findFree_eq_some_iff.1 hfree
    obtain rfl := eq_cleared_of_free (slotInv_of_getElem? h hsl) hv
    refine ⟨.cleared, hsl, ?_⟩
    rw [admittedSlot_new hnew]
    exact ⟨slotInv_newSession hname hsrc, rfl, rfl, rfl, .inr (findSession_eq_none_iff.1 hfind)⟩

/-- Format negotiation leaves a session that has the packet's format and is not Idle (R240). -/
theorem slotInv_negotiate {p : Params} {sl : Slot} (h : SlotInv p sl) (hv : sl.valid = true) {plan : RxPlan}
    (hfmt : FormatDescriptor.WF plan.fmt) (resume prepend : Bool) :
    let x := (negotiate resume prepend plan sl).1
    SlotInv p x ∧ x.valid = true ∧ x.src = sl.src ∧ x.name = sl.name ∧ x.fmt = plan.fmt ∧ x.state ≠ .idle := by
  obtain ⟨-, hidle, -, -, -, hname, hsrc, -, -⟩ := id h
  unfold negotiate
  split_ifs with henter
  · exact ⟨slotInv_enterFormat hname hsrc hv hfmt _ _ _, hv, rfl, rfl, rfl, by simp⟩
  · obtain ⟨hvalid, hsame⟩ := not_or.1 henter
    exact ⟨h, hv, rfl, rfl, not_not.1 hsame, fun hst => hvalid ((hidle hv).1 hst)⟩

theorem pushBlock_src (p : Params) (r : Regs) (i : Nat) (frames : List Frame) (fill : Nat) (sl : Slot) :
    (pushBlock p r i frames fill sl).1.src = sl.src := by
  rw [pushBlock_slot]

theorem pushBlock_name (p : Params) (r : Regs) (i : Nat) (frames : List Frame) (fill : Nat) (sl : Slot) :
    (pushBlock p r i frames fill sl).1.name = sl.name := by
  rw [pushBlock_slot]

/-- The commit of an accepted packet keeps the invariant (R240 to R242). -/
theorem inv_rxCommit (h : Inv s) {plan : RxPlan} (hc : rxCheck s src hd pl = .ok plan) (hsrc : SrcAddr.WF s.params src)
    (hname : Bytes.ValidName hd.name) (ctr : Word32) : Inv (rxCommit plan src hd.name ctr s) := by
  obtain ⟨⟨⟨hmaps, -, hlen⟩, -⟩, hframes, -⟩ := rxCheck_ok hc
  obtain ⟨sl, hsl, hadm, hv, hadmsrc, hadmname, hkey⟩ := slotInv_admittedSlot h hc hsrc hname
  obtain ⟨hneg, hnv, hnsrc, hnname, hnfmt, hnst⟩ := slotInv_negotiate hadm hv
    (formatWF_of_maps hmaps (headerCode_lt hd)) s.params.notifyStartOnResume (prependSilence s.regs)
  have hwhole : ∀ f ∈ plan.frames, f.length = bpf
      (negotiate s.params.notifyStartOnResume (prependSilence s.regs) plan (admittedSlot plan src hd.name sl)).1.fmt := by
    rw [hframes, hnfmt]
    exact fun f hf => length_of_mem_frameList hlen hf
  obtain ⟨-, -, hcap, -⟩ := h.params
  have hslot := slotInv_pushBlock hcap hneg hnv hnst s.regs plan.slot
    (gapFill plan (admittedSlot plan src hd.name sl)) hwhole true ctr 0
  obtain ⟨hparams, hreq, hslots, -, hregs, -⟩ := rxCommit_eq hsl src hd.name ctr
  have hput := inv_putSlot h hsl hslot (fun _ => by
    simpa only [pushBlock_src, pushBlock_name, hnsrc, hnname, hadmsrc, hadmname] using hkey) []
  exact inv_congr hput hparams hslots (hregs ▸ regsInv_acceptedCounters h.regs plan _ _) hreq

theorem inv_receivePcm (h : Inv s) (hsrc : SrcAddr.WF s.params src) (hname : Bytes.ValidName hd.name) :
    Inv (receivePcm src hd pl s) := by
  obtain ⟨e, hc, heq⟩ | ⟨plan, hc, heq⟩ := receivePcm_cases src hd pl s
  · rw [heq]
    exact inv_rxRefuse h hc
  · rw [heq]
    exact inv_rxCommit h hc hsrc hname hd.frameCounter

end Receive

/-! ## Every instruction -/

/-- Whatever next state an outcome is, it meets the invariant. -/
def LeavesInv (o : Host.Outcome State Fault Refusal) : Prop := ∀ t, o = .next t → Inv t

section Operations
variable {s : State}

theorem leavesInv_next (h : Inv s) : LeavesInv (.next s) := by
  rintro _ ⟨⟩
  exact h

/-- The sessions an operation names are the valid slots. -/
theorem session?_eq_some_iff {k : Nat} {sl : Slot} :
    s.session? k = some sl ↔ s.slots[k]? = some sl ∧ sl.valid = true := by
  simp only [State.session?, State.slot?]
  cases s.slots[k]? with
  | none => simp
  | some a =>
    simp only [Option.some.injEq, Option.ite_none_right_eq_some]
    exact ⟨fun ⟨hv, ha⟩ => ⟨ha, ha ▸ hv⟩, fun ⟨ha, hv⟩ => ⟨ha ▸ hv, ha⟩⟩

theorem leavesInv_rxPacket (h : Inv s) {src : SrcAddr} (hsrc : SrcAddr.WF s.params src) (dg : Bytes) :
    LeavesInv (exec (.rxPacket src dg) s) := by
  refine leavesInv_next ?_
  split
  case h_1 e _ => exact inv_rejectRequest h e
  case h_2 hd pl hdec =>
    obtain ⟨-, rfl, -⟩ := packetDecode_eq_ok_iff.1 hdec
    split
    · exact inv_receivePcm h hsrc (headerOf_validName dg)
    · exact inv_forward h _ _ _
    · exact inv_forward h _ _ _

theorem leavesInv_txPacket (h : Inv s) (k : BitVec 16) (pl : Bytes) : LeavesInv (exec (.txPacket k pl) s) := by
  refine leavesInv_next ?_
  split
  · exact inv_finish (inv_count h _ _) _ _
  · exact inv_finish (inv_count (inv_setReg h _ _) _ _) _ _

/-- POP leaves a session with fewer frames, a Buffering one without frames, or a free slot (R202, R203, R209). -/
theorem leavesInv_pop (h : Inv s) (k : BitVec 8) (n : BitVec 16) : LeavesInv (exec (.pop k n) s) := by
  cases hses : s.session? k.toNat with
  | none => exact exec_pop_of_none hses ▸ leavesInv_next (inv_finish h _ _)
  | some sl =>
    obtain ⟨hsl, hv⟩ := session?_eq_some_iff.1 hses
    have hslot : SlotInv s.params sl := slotInv_of_getElem? h hsl
    cases hst : sl.state with
    | idle => exact exec_pop_of_notPlaying hses (.inl hst) ▸ leavesInv_next (inv_finish h _ _)
    | buffering => exact exec_pop_of_notPlaying hses (.inr hst) ▸ leavesInv_next (inv_finish h _ _)
    | playing =>
      refine exec_pop_of_playing hses hst ▸ leavesInv_next ?_
      obtain hle | hlt := le_or_gt n.toNat sl.fifo.length
      · exact popPlaying_of_le s hle ▸ inv_finish (inv_putSlot h hsl (slotInv_popped hslot hv (.inl hst) _)
          (fun _ => .inl ⟨hv, rfl, rfl⟩) _) _ _
      · exact popPlaying_of_lt s hst hlt ▸ inv_finish (inv_count (inv_putSlot h hsl (slotInv_underrun hslot hv hst _)
          (fun _ => .inl ⟨hv, rfl, rfl⟩) _) _ _) _ _
    | draining =>
      refine exec_pop_of_draining hses hst ▸ leavesInv_next ?_
      obtain hle | hlt := le_or_gt sl.fifo.length n.toNat
      · exact popDraining_of_le s hst hle ▸ inv_finish (inv_putSlot h hsl (slotInv_cleared _) nofun _) _ _
      · exact popDraining_of_lt s hlt ▸ inv_finish (inv_putSlot h hsl (slotInv_popped hslot hv (.inr hst) _)
          (fun _ => .inl ⟨hv, rfl, rfl⟩) _) _ _

theorem leavesInv_stop (h : Inv s) (k : BitVec 8) : LeavesInv (exec (.stop k) s) := by
  cases hses : s.session? k.toNat with
  | none => exact exec_stop_of_none hses ▸ leavesInv_next (inv_finish h _ _)
  | some sl =>
    obtain ⟨hsl, hv⟩ := session?_eq_some_iff.1 hses
    exact exec_stop_of_session hses ▸ leavesInv_next (inv_finish (inv_putSlot h hsl
      (slotInv_tornDown (slotInv_of_getElem? h hsl) hv) (fun hv' => .inl (tornDown_key hv')) _) _ _)

theorem leavesInv_deviceFault (h : Inv s) (k : BitVec 8) : LeavesInv (exec (.deviceFault k) s) := by
  cases hses : s.session? k.toNat with
  | none => exact exec_deviceFault_of_none hses ▸ leavesInv_next (inv_finish h _ _)
  | some sl =>
    obtain ⟨hsl, -⟩ := session?_eq_some_iff.1 hses
    exact exec_deviceFault_of_session hses ▸ leavesInv_next (inv_finish (inv_putSlot h hsl (slotInv_cleared _) nofun _) _ _)

theorem leavesInv_tick (h : Inv s) : LeavesInv (exec .tick s) := by
  rw [exec_tick]
  refine leavesInv_next (inv_mapSlots h (g := tickedSlot s.regs) rfl rfl rfl rfl ?_ ?_)
  · intro sl hsl
    unfold tickedSlot
    split_ifs with hexp hages
    · exact slotInv_tornDown (slotInv_aged hsl hexp.1.1 _) hexp.1.1
    · exact slotInv_aged hsl hages.1 _
    · exact hsl
  · intro sl hv
    unfold tickedSlot at hv ⊢
    split_ifs at hv ⊢
    · exact tornDown_key hv
    · exact ⟨hv, rfl, rfl⟩
    · exact ⟨hv, rfl, rfl⟩

/-- The filter change tears sessions down and does nothing else (R292). -/
theorem inv_filterChange (h : Inv s) : Inv (filterChange s) := by
  refine inv_mapSlots h (filterChange_params s) (filterChange_regs s) (filterChange_requests s) (filterChange_slots s) ?_ ?_
  · intro sl hsl
    split_ifs with hrefuses
    · exact slotInv_tornDown hsl hrefuses.2.1
    · exact hsl
  · intro sl hv
    split_ifs at hv ⊢
    · exact tornDown_key hv
    · exact ⟨hv, rfl, rfl⟩

theorem leavesInv_cfgWrite (h : Inv s) (idx : BitVec 8) (v : Word32) : LeavesInv (exec (.cfgWrite idx v) s) := by
  refine leavesInv_next ?_
  split
  case h_1 => exact inv_finish h _ _
  case h_2 k _ =>
    cases k.readOnly with
    | true => exact inv_finish h _ _
    | false =>
      cases isFilterReg k with
      | true => exact inv_finish (inv_filterChange (inv_setReg h k v)) _ _
      | false => exact inv_finish (inv_setReg h k v) _ _

theorem inv_withLookup (h : Inv s) {fc : BitVec 16} {k : FormatDescriptor → State} (hk : ∀ d, Inv (k d)) :
    Inv (withLookup fc s k) := by
  unfold withLookup
  split
  · exact inv_finish h _ _
  · exact hk _

/-- Every instruction whose operands an agent can present keeps the invariant. -/
theorem leavesInv_exec (h : Inv s) {i : Instr} (hwf : Instr.WF s.params i) : LeavesInv (exec i s) := by
  cases i with
  | rxPacket src dg => exact leavesInv_rxPacket h hwf.1 dg
  | txPacket k pl => exact leavesInv_txPacket h k pl
  | pop k n => exact leavesInv_pop h k n
  | stop k => exact leavesInv_stop h k
  | tick => exact leavesInv_tick h
  | cfgWrite idx v => exact leavesInv_cfgWrite h idx v
  | deviceFault k => exact leavesInv_deviceFault h k
  | reset => exact leavesInv_next (inv_of_cleared h.params rfl rfl h.requests)
  | lookup | bytesPerFrame | framesFit => exact leavesInv_next (inv_withLookup h fun _ => inv_finish h _ _)
  | framesInPayload =>
    refine leavesInv_next (inv_withLookup h fun d => ?_)
    split <;> exact inv_finish h _ _
  | cfgRead | sessionRead | encode | decode =>
    refine leavesInv_next ?_
    split <;> exact inv_finish h _ _
  | wirePcm f b => exact leavesInv_next (inv_receivePcm h hwf.1 (untilNul_validName hwf.2.1.le))
  | wireCompressed8 | wireCompressed4 | wireCompressed2 | wireCompressed1 | wireService4 | wireService2 | wireService1 =>
    exact leavesInv_next (inv_forward h _ _ _)

theorem leavesInv_runRequest (h : Inv s) {r : Request} (hr : Request.WF s.params r) : LeavesInv (runRequest r s) := by
  unfold runRequest
  split
  case h_1 i hdec => exact leavesInv_exec h (instrWF_of_decode hr hdec)
  case h_2 e _ => exact leavesInv_next (inv_rejectRequest h e)

end Operations

/-- Settles O51: an idle step keeps the state, and every other runs a request that an agent can have driven. -/
theorem stepKeepsInv : Obligations.StepKeepsInv := by
  intro s t h hstep
  cases hreq : s.requests with
  | nil =>
    simp only [step, hreq] at hstep
    cases hstep
    exact h
  | cons r rest =>
    have hdriven := h.requests
    rw [hreq] at hdriven
    have htaken : Inv { s with requests := rest } :=
      ⟨h.params, h.slotCount, h.slots, h.keys, h.regs, fun r' hr' => hdriven r' (List.mem_cons_of_mem r hr')⟩
    exact leavesInv_runRequest htaken (hdriven r List.mem_cons_self) t ((step_of_requests hreq).symm.trans hstep)

/-- Settles O50: a block that powers on is cleared, and the reference parameters are well formed. -/
theorem powerOnMeetsInv : Obligations.PowerOnMeetsInv :=
  have hpowerOn : ∀ p : Params, p.WF → Inv (State.powerOn p) := fun _ hp => inv_of_cleared hp rfl rfl nofun
  ⟨hpowerOn, hpowerOn Params.reference (by decide)⟩

end Sys2Proof.Machine
end

section
/-! PROOFS. What one operation does to one slot: the state changes of R198, the events of R201, and the stream that only grows
(spec 43_playback_buffer.md sections 3 and 5, 10_state.md R40). All follow from the four shapes of an operation's effect. -/

namespace Sys2Proof.Machine

section OneSlot
variable {i : Instr} {s t : State} {k : Nat} {a b : Slot}

/-- A slot that stays as it is, with no STOPPED for it. -/
theorem slotMove_refl {es : List Event} (hes : .stopped k ∉ es) : SlotMove i s t k a a es :=
  ⟨fun h hne => absurd h hne, fun h => absurd h hes, fun hne h => absurd h hne,
    fun _ => ⟨fun h => .inl ⟨h, rfl, rfl⟩, fun h => .inl h⟩⟩

/-- What an operation other than RESET does to one slot is a legal move, and RESET clears it without an event. -/
theorem slotMove_or_reset (he : exec i s = .next t) (ha : s.slots[k]? = some a) (hb : t.slots[k]? = some b) :
    (∃ es, t.events = s.events ++ es ∧ SlotMove i s t k a b es) ∨ (i = .reset ∧ b = .cleared ∧ t.events = s.events) := by
  obtain ⟨hslots, es, hev, hquiet⟩ | ⟨j, a', b', es, ha', hslots, hev, honly, hmove⟩ |
    ⟨g, p, hslots, hev, hleave, hwas, henter, hdrain⟩ | ⟨rfl, hslots, hev⟩ := shape i s t he
  · rw [hslots, ha] at hb
    cases hb
    exact .inl ⟨es, hev, slotMove_refl (hquiet k)⟩
  · rw [hslots] at hb
    by_cases hjk : j = k
    · subst hjk
      obtain ⟨hlt, -⟩ := List.getElem?_eq_some_iff.1 ha'
      rw [List.getElem?_set_self hlt] at hb
      rw [ha'] at ha
      cases ha
      cases hb
      exact .inl ⟨es, hev, hmove⟩
    · rw [List.getElem?_set_ne hjk, ha] at hb
      cases hb
      exact .inl ⟨es, hev, slotMove_refl fun hmem => hjk (honly k hmem).symm⟩
  · rw [hslots, List.getElem?_map, ha] at hb
    cases hb
    refine .inl ⟨_, hev, fun hst hne => (mem_stop ha).2 (hleave a hst hne), fun hmem => hwas a ((mem_stop ha).1 hmem),
      fun hne hst => absurd (henter a hst) hne, fun _ => hdrain a⟩
  · rw [hslots] at hb
    exact .inr ⟨rfl, List.eq_of_mem_replicate (List.mem_of_getElem? hb), hev⟩

/-- Every operation appends to the event stream. -/
theorem exec_appends (he : exec i s = .next t) : ∃ es, t.events = s.events ++ es := by
  obtain ⟨-, es, hev, -⟩ | ⟨k, a, b, es, -, -, hev, -⟩ | ⟨g, p, -, hev, -⟩ | ⟨-, -, hev⟩ := shape i s t he
  · exact ⟨es, hev⟩
  · exact ⟨es, hev⟩
  · exact ⟨_, hev⟩
  · exact ⟨[], by rw [hev, List.append_nil]⟩

end OneSlot

/-- Settles O16: a legal move never leaves Draining but to be freed, and RESET frees. -/
theorem drainingMoves : Obligations.DrainingMoves := by
  intro s t i k a b hinv he ha hb
  obtain ⟨es, -, -, -, -, hmove⟩ | ⟨-, rfl, -⟩ := slotMove_or_reset he ha hb
  · exact hmove hinv
  · exact ⟨fun _ => .inr rfl, nofun⟩

/-- Settles O17: a slot that RESET cleared does not play, and every other move into Playing is a push. -/
theorem playingOnlyByPush : Obligations.PlayingOnlyByPush := by
  intro s t i k a b he ha hb hwas hplays
  obtain ⟨es, -, -, -, henter, -⟩ | ⟨-, rfl, -⟩ := slotMove_or_reset he ha hb
  · exact henter hwas hplays
  · cases hplays

/-- Settles O18: STOPPED is among the events that a legal move appends exactly where it leaves Playing; RESET appends
none. -/
theorem stoppedOnEveryExit : Obligations.StoppedOnEveryExit := by
  intro s t i k a b he ha hb
  obtain ⟨es, hev, hleave, hwas, -, -⟩ | ⟨hreset, -, hev⟩ := slotMove_or_reset he ha hb
  · rw [hev, List.drop_left]
    exact ⟨fun _ => hleave, hwas⟩
  · rw [hev, List.drop_length]
    exact ⟨fun hne => absurd hreset hne, nofun⟩

/-- Settles O49: an idle step and a refusal append nothing, and an instruction appends what `exec_appends` says. -/
theorem eventsOnlyAppended : Obligations.EventsOnlyAppended := by
  intro s t hstep
  cases hreq : s.requests with
  | nil =>
    simp only [step, hreq] at hstep
    cases hstep
    exact ⟨[], (List.append_nil _).symm⟩
  | cons r rest =>
    rw [step_of_requests hreq] at hstep
    unfold runRequest at hstep
    split at hstep
    case h_1 i _ => exact exec_appends (s := { s with requests := rest }) hstep
    case h_2 e _ =>
      cases hstep
      refine ⟨[], ?_⟩
      rw [List.append_nil]
      cases e <;> rfl

end Sys2Proof.Machine
end

section
/-! PROOFS. The queries that read no state, the default table and the round trip of the frame arithmetic, power-on, CFG_WRITE,
and the two pseudo-operations that write a name (spec 40_format_table.md R120, 42_frame_arithmetic.md R174, 46_control.md R291,
R299, 70_reset_and_hazards.md R350, 30_encoding.md R105). -/

namespace Sys2Proof.Machine

/-! ## Frame arithmetic and the default table (R88, R120, R174) -/

/-- Settles O5: the product is a whole number of frames, and a frame is not empty. -/
theorem framesInPayloadRoundTrip : Obligations.FramesInPayloadRoundTrip := by
  intro s fc k d hmaps hlt
  have hlen : (BitVec.ofNat 32 (bpf d * k)).toNat = bpf d * k := (BitVec.toNat_ofNat ..).trans (Nat.mod_eq_of_lt hlt)
  have hexec := exec_framesInPayload_of_dvd (len := BitVec.ofNat 32 (bpf d * k)) hmaps (by rw [hlen, Nat.mul_mod_right])
  rw [hlen, Nat.mul_div_cancel_left k (maps_bpf hmaps)] at hexec
  exact hexec

/-- LOOKUP answers a descriptor exactly where it is the one that the code maps to (R120). -/
theorem exec_lookup_eq_ok_iff {s : State} {fc : BitVec 16} {d : FormatDescriptor} :
    exec (.lookup fc) s = .next { s with result := some ⟨.ok, .descriptor d⟩ } ↔ Maps s.params fc.toNat d := by
  rw [← lookup_ok_iff, exec_lookup, withLookup]
  cases lookup s.params fc <;> simp [finish]

/-- The default table maps the indices 0 to 20, each to a rate from 6000 to 705600 Hz (R88). -/
theorem defaultSrTable_mapped_iff {n : Nat} (hn : n < 32) : (defaultSrTable[n]?).join ≠ none ↔ n ≤ 20 := by
  have hall : ∀ n < 32, (defaultSrTable[n]?).join ≠ none ↔ n ≤ 20 := by decide
  exact hall n hn

theorem defaultSrTable_bounds {n hz : Nat} (hn : n < 32) (hhz : (defaultSrTable[n]?).join = some hz) :
    6000 ≤ hz ∧ hz ≤ 705600 := by
  have hall : ∀ n < 32, ∀ hz ∈ (defaultSrTable[n]?).join, 6000 ≤ hz ∧ hz ≤ 705600 := by decide
  exact hall n hn hz hhz

/-- Every code is mapped, or has an unmapped rate or an unmapped data type (R120). -/
theorem maps_or_unmapped (p : Params) (fc : BitVec 16) :
    (∃ d, Maps p fc.toNat d) ∨ UnmappedRate p fc.toNat ∨ UnmappedDepth p fc.toNat := by
  cases hl : lookup p fc with
  | ok d => exact .inl ⟨d, (lookup_ok_iff p fc d).1 hl⟩
  | error e =>
    cases e with
    | rate => exact .inr (.inl ((lookup_rate_iff p fc).1 hl))
    | depth => exact .inr (.inr ((lookup_depth_iff p fc).1 hl))

/-- Settles O6: a code is mapped where the table maps its rate and its data type is below 4. -/
theorem defaultTableMaps : Obligations.DefaultTableMaps := by
  intro s fc htable
  have hindex : fc.toNat / 8 % 32 < 32 := Nat.mod_lt _ (by decide)
  simp only [exec_lookup_eq_ok_iff]
  refine ⟨⟨?mapped, ?legal⟩, ?bounds⟩
  case mapped =>
    rintro ⟨d, hrate, hdepth, -⟩
    rw [htable] at hrate
    exact ⟨(defaultSrTable_mapped_iff hindex).1 (hrate ▸ Option.some_ne_none _), hdepth⟩
  case legal =>
    rintro ⟨hrate, hdepth⟩
    obtain hmaps | hunmapped | ⟨-, hdepth'⟩ := maps_or_unmapped s.params fc
    · exact hmaps
    · rw [UnmappedRate, htable] at hunmapped
      exact absurd hunmapped ((defaultSrTable_mapped_iff hindex).2 hrate)
    · omega
  case bounds =>
    rintro d ⟨hrate, -, -, hchannels, -⟩
    rw [htable] at hrate
    obtain ⟨hlow, hhigh⟩ := defaultSrTable_bounds hindex hrate
    exact ⟨hlow, hhigh, hchannels⟩

/-! ## Power-on (R350) -/

/-- Settles O45: the registers power on as they are reset. -/
theorem powerOnState : Obligations.PowerOnState :=
  ⟨fun p => ⟨get_reset p, rfl, rfl, rfl⟩, rfl⟩

/-! ## The pure queries (R299) -/

/-- A query whose continuation writes a result that the descriptor decides answers by the parameters alone. -/
theorem withLookup_answers (p : Params) (fc : BitVec 16) (answer : FormatDescriptor → Result) :
    ∃ r : Result, ∀ s : State, s.params = p → ∀ k : FormatDescriptor → State,
      (∀ d, k d = { s with result := some (answer d) }) → withLookup fc s k = { s with result := some r } := by
  cases hl : lookup p fc with
  | error e =>
    refine ⟨⟨e.code, .formatCode fc⟩, ?_⟩
    rintro s rfl k -
    simp only [withLookup, hl, finish]
  | ok d =>
    refine ⟨answer d, ?_⟩
    rintro s rfl k hk
    simp only [withLookup, hl, hk]

/-- The answer of FRAMES_IN_PAYLOAD for a mapped code (R172). -/
def framesInPayloadAnswer (len : Word32) (d : FormatDescriptor) : Result :=
  match framesInPayload d len.toNat with
  | none => ⟨.malformedPayloadNotMultiple, .none⟩
  | some n => ⟨.ok, .count n⟩

theorem exec_framesInPayload_answers (p : Params) (fc : BitVec 16) (len : Word32) : ∃ r : Result, ∀ s : State,
    s.params = p → exec (.framesInPayload fc len) s = .next { s with result := some r } := by
  obtain ⟨r, hr⟩ := withLookup_answers p fc (framesInPayloadAnswer len)
  refine ⟨r, fun s hs => congrArg Host.Outcome.next (hr s hs _ fun d => ?_)⟩
  unfold framesInPayloadAnswer
  cases framesInPayload d len.toNat <;> rfl

theorem exec_encode_answers (p : Params) (h : Header) (pl : Bytes) : ∃ r : Result, ∀ s : State, s.params = p →
    exec (.encode h pl) s = .next { s with result := some r } := by
  cases henc : packetEncode p.maxPacketSize h pl with
  | error e =>
    refine ⟨⟨e.code, .none⟩, ?_⟩
    rintro s rfl
    rw [exec_encode_of_error henc, finish]
  | ok dg =>
    refine ⟨⟨.ok, .bytes dg⟩, ?_⟩
    rintro s rfl
    rw [exec_encode_of_ok henc, finish]

theorem exec_decode_answers (p : Params) (dg : Bytes) : ∃ r : Result, ∀ s : State, s.params = p →
    exec (.decode dg) s = .next { s with result := some r } := by
  cases herr : structureError p.maxPacketSize dg with
  | some e =>
    refine ⟨⟨decodeErrorCode e, .none⟩, ?_⟩
    rintro s rfl
    rw [exec_decode_of_structureError herr, finish]
  | none =>
    have hw : WellStructured p dg := (wellStructured_iff p dg).2 herr
    refine ⟨⟨.ok, .packet (headerOf dg) (dg.drop 28)⟩, ?_⟩
    rintro s rfl
    rw [exec_decode_of_decodes (decodes_headerOf hw), finish]

/-- Settles O46: four of the six are lookups that answer by the descriptor, the others are the codec's. -/
theorem pureQueriesReadNoState : Obligations.PureQueriesReadNoState := by
  rintro i (⟨fc, rfl | rfl | rfl | ⟨len, rfl⟩⟩ | ⟨h, pl, rfl⟩ | ⟨dg, rfl⟩) p
  · obtain ⟨r, hr⟩ := withLookup_answers p fc fun d => ⟨.ok, .descriptor d⟩
    exact ⟨r, fun s hs => congrArg Host.Outcome.next (hr s hs _ fun _ => rfl)⟩
  · obtain ⟨r, hr⟩ := withLookup_answers p fc fun d => ⟨.ok, .count (bpf d)⟩
    exact ⟨r, fun s hs => congrArg Host.Outcome.next (hr s hs _ fun _ => rfl)⟩
  · obtain ⟨r, hr⟩ := withLookup_answers p fc fun d => ⟨.ok, .count (framesFit p d)⟩
    exact ⟨r, fun s hs => congrArg Host.Outcome.next (hr s hs _ fun _ => hs ▸ rfl)⟩
  · exact exec_framesInPayload_answers p fc len
  · exact exec_encode_answers p h pl
  · exact exec_decode_answers p dg

/-! ## CFG_WRITE (R291) -/

section CfgWrite
variable {s : State} {k : Reg}

/-- What a CFG_WRITE of a writable register leaves: the register file with the value stored, and the slots and events of the
filter change where the register is one of the filter's. -/
theorem exec_cfgWrite_effect (hk : k.readOnly = false) (v : Word32) (s : State) :
    ∃ t, exec (.cfgWrite (indexOfReg k) v) s = .next t ∧ t.result = some ⟨.ok, .none⟩ ∧ t.params = s.params ∧
      t.requests = s.requests ∧ t.regs = s.regs.set k v ∧
      (isFilterReg k = false → t.slots = s.slots ∧ t.events = s.events) ∧
      (isFilterReg k = true →
        t.slots = s.slots.map fun sl => if FilterRefuses (s.regs.set k v) sl then tornDown sl else sl) := by
  refine ⟨_, exec_cfgWrite_of_writable hk v s, rfl, ?_⟩
  cases isFilterReg k with
  | false => exact ⟨rfl, rfl, rfl, fun _ => ⟨rfl, rfl⟩, nofun⟩
  | true =>
    exact ⟨filterChange_params _, filterChange_requests _, filterChange_regs _, nofun, fun _ => filterChange_slots _⟩

theorem exec_cfgWrite_of_unmapped {idx : BitVec 8} (hidx : 0x1D < idx.toNat) (v : Word32) :
    exec (.cfgWrite idx v) s = .next (finish .cfgUnmapped .none s) := by
  simp only [exec, execCfgWrite, (regOfIndex_eq_none_iff idx).2 hidx]

theorem exec_cfgWrite_of_readOnly (hk : k.readOnly = true) (v : Word32) :
    exec (.cfgWrite (indexOfReg k) v) s = .next (finish .cfgReadOnly .none s) := by
  simp only [exec, execCfgWrite, regOfIndex_indexOfReg, hk, if_true]

end CfgWrite

/-- Settles O38: `exec_cfgWrite_effect`, with the mask of R291 written out; a statistics counter and an unmapped index are
refused. -/
theorem cfgWriteResult : Obligations.CfgWriteResult := by
  intro s v
  refine ⟨fun k mask hindex hmask => ?writable, fun idx => ⟨fun hidx => ?unmapped, fun hlow hhigh => ?readOnly⟩⟩
  case writable =>
    have hk : k.readOnly = false := by
      rw [← Bool.not_eq_true, readOnly_iff_index]
      omega
    have hregMask : mask = regMask k := by
      rw [hmask]
      cases k <;> rfl
    obtain ⟨t, hexec, hresult, hparams, hreq, hregs, hquiet, -⟩ := exec_cfgWrite_effect hk v s
    have hget : t.regs.get k = v &&& mask := by rw [hregs, get_set_same, hregMask]
    refine ⟨t, hexec, hresult, hparams, hreq, hget, fun j hj => ?_, ?_, fun hfilter => hquiet ?_⟩
    · rw [hregs, get_set_other s.regs v hj]
    · rw [exec_cfgRead_indexOfReg, hget, finish]
    · rwa [← Bool.not_eq_true, isFilterReg_iff]
  case unmapped => rw [exec_cfgWrite_of_unmapped hidx, finish]
  case readOnly =>
    obtain ⟨k, rfl⟩ := exists_indexOfReg_eq hhigh
    rw [exec_cfgWrite_of_readOnly ((readOnly_iff_index k).2 hlow), finish]

/-! ## Writing a name (R32, R33, R105) -/

/-- The four words of a name hold its padded bytes. -/
theorem nameField_nameWord {name : Bytes} (hname : name.length ≤ 16) :
    nameField (nameWord name 0) (nameWord name 1) (nameWord name 2) (nameWord name 3) = padName name := by
  obtain ⟨a0, a1, a2, a3, a4, a5, a6, a7, a8, a9, a10, a11, a12, a13, a14, a15, hpad⟩ := length_sixteen (padName_length hname)
  simp only [nameField, nameWord, hpad, le32, byteAt, le32bytes_of_bytes]
  rfl

/-- The name that the four words of a legal name hold is that name. -/
theorem nameInWords_nameWord {name : Bytes} (hname : Bytes.ValidName name) :
    nameInWords (nameWord name 0) (nameWord name 1) (nameWord name 2) (nameWord name 3) = name := by
  rw [← untilNul_nameField, nameField_nameWord hname.1, untilNul_padName hname]

theorem runAll_append (l₁ l₂ : List Instr) (s : State) : runAll (l₁ ++ l₂) s = (runAll l₁ s).bind (runAll l₂) := by
  induction l₁ generalizing s with
  | nil => rfl
  | cons i rest ih =>
    simp only [List.cons_append, runAll]
    cases exec i s with
    | next t => exact ih t
    | fault r => rfl
    | refused r => rfl

/-- The registers after a list of writes, in order. -/
def writtenRegs (ws : List (Reg × Word32)) (r : Regs) : Regs := ws.foldl (fun r w => r.set w.1 w.2) r

/-- A list of writes of writable registers runs to its end, and writes the registers in order; where none of them is a
register of the filter, it changes no slot and no event. -/
theorem runAll_writes (ws : List (Reg × Word32)) (hws : ∀ w ∈ ws, w.1.readOnly = false) (s : State) :
    ∃ t, runAll (ws.map fun w => writeReg w.1 w.2) s = some t ∧ t.regs = writtenRegs ws s.regs ∧ t.params = s.params ∧
      t.requests = s.requests ∧ ((∀ w ∈ ws, isFilterReg w.1 = false) → t.slots = s.slots ∧ t.events = s.events) := by
  induction ws generalizing s with
  | nil => exact ⟨s, rfl, rfl, rfl, rfl, fun _ => ⟨rfl, rfl⟩⟩
  | cons w ws ih =>
    obtain ⟨hw, hrest⟩ := List.forall_mem_cons.1 hws
    obtain ⟨u, hexec, -, hparams, hreq, hregs, hquiet, -⟩ := exec_cfgWrite_effect hw w.2 s
    obtain ⟨t, hrun, htregs, htparams, htreq, htquiet⟩ := ih hrest u
    refine ⟨t, ?_, ?_, htparams.trans hparams, htreq.trans hreq, fun hfilter => ?_⟩
    · simp only [List.map_cons, runAll, writeReg, hexec]
      exact hrun
    · rw [htregs, hregs]
      rfl
    · obtain ⟨hfw, hfrest⟩ := List.forall_mem_cons.1 hfilter
      obtain ⟨hslots, hev⟩ := hquiet hfw
      obtain ⟨htslots, htev⟩ := htquiet hfrest
      exact ⟨htslots.trans hslots, htev.trans hev⟩

/-- The four writes of SET_TX_NAME (R105). -/
def txNameWrites (name : Bytes) : List (Reg × Word32) :=
  [(.txName0, nameWord name 0), (.txName1, nameWord name 1), (.txName2, nameWord name 2), (.txName3, nameWord name 3)]

theorem setTxName_eq (name : Bytes) : setTxName name = (txNameWrites name).map fun w => writeReg w.1 w.2 := rfl

theorem effectiveTxName_writtenRegs {name : Bytes} (hname : Bytes.ValidName name) (r : Regs) :
    effectiveTxName (writtenRegs (txNameWrites name) r) = name := by
  simp only [effectiveTxName, writtenRegs, txNameWrites, List.foldl, get_set_same, get_set_other, regMask, and_fullMask,
    ne_eq, reduceCtorEq, not_false_eq_true]
  exact nameInWords_nameWord hname

/-- Settles O60: the four writes of `runAll_writes`, none of them of a filter register. -/
theorem setTxNameSelectsName : Obligations.SetTxNameSelectsName := by
  intro s name hname
  obtain ⟨t, hrun, hregs, hparams, hreq, hquiet⟩ :=
    runAll_writes (txNameWrites name) (by simp [txNameWrites, Reg.readOnly]) s
  obtain ⟨hslots, hev⟩ := hquiet (by simp [txNameWrites, isFilterReg])
  refine ⟨t, setTxName_eq name ▸ hrun, hregs ▸ effectiveTxName_writtenRegs hname s.regs, fun r hr => ?_, hslots, hev, hparams,
    hreq⟩
  simp only [List.mem_cons, List.not_mem_nil, or_false, not_or] at hr
  obtain ⟨h0, h1, h2, h3⟩ := hr
  simp only [hregs, writtenRegs, txNameWrites, List.foldl, get_set_other, h0, h1, h2, h3, ne_eq, not_false_eq_true]

/-- The first five writes of SET_FILTER, which disable the filter and write its name (R105). -/
def filterNameWrites (name : Bytes) (prepend : Bool) : List (Reg × Word32) :=
  [(.ctrl, ctrlValue prepend false), (.filterName0, nameWord name 0), (.filterName1, nameWord name 1),
    (.filterName2, nameWord name 2), (.filterName3, nameWord name 3)]

theorem setFilter_eq (name : Bytes) (prepend : Bool) : setFilter name prepend =
    ((filterNameWrites name prepend).map fun w => writeReg w.1 w.2) ++ [writeReg .ctrl (ctrlValue prepend true)] := rfl

/-- The last write of SET_FILTER leaves the name that the writes before it wrote. -/
theorem effectiveFilterName_writtenRegs {name : Bytes} (hname : Bytes.ValidName name) (prepend : Bool) (r : Regs)
    (v : Word32) : effectiveFilterName ((writtenRegs (filterNameWrites name prepend) r).set .ctrl v) = name := by
  simp only [effectiveFilterName, writtenRegs, filterNameWrites, List.foldl, get_set_same, get_set_other, regMask,
    and_fullMask, ne_eq, reduceCtorEq, not_false_eq_true]
  exact nameInWords_nameWord hname

/-- The value that enables the filter, in the bits of CTRL (R24). -/
theorem get_ctrl_of_ctrlValue (prepend : Bool) (r : Regs) :
    ((r.set .ctrl (ctrlValue prepend true)).get .ctrl).getLsbD 0 = true ∧
      ((r.set .ctrl (ctrlValue prepend true)).get .ctrl).toNat = 1 + 2 * prepend.toNat := by
  rw [get_set_same]
  cases prepend <;> decide

/-- A session that a teardown leaves is Draining (R204). -/
theorem draining_of_tornDown_valid {sl : Slot} (hv : (tornDown sl).valid = true) : (tornDown sl).state = .draining := by
  unfold tornDown at hv ⊢
  split_ifs at hv ⊢ with hplaying hdraining
  · rfl
  · exact hdraining
  · cases hv

/-- After a filter change, a session that is not Draining has the filter's name (R292). -/
theorem name_eq_filter_of_kept {r : Regs} (hen : (r.get .ctrl).getLsbD 0 = true) {sl x : Slot}
    (hx : x = if FilterRefuses r sl then tornDown sl else sl) (hv : x.valid = true) (hst : x.state ≠ .draining) :
    x.name = effectiveFilterName r := by
  by_cases hrefuses : FilterRefuses r sl
  · rw [if_pos hrefuses] at hx
    subst hx
    exact absurd (draining_of_tornDown_valid hv) hst
  · rw [if_neg hrefuses] at hx
    subst hx
    by_contra hne
    exact hrefuses ⟨hen, hv, hst, hne⟩

/-- Settles O52: the last of the six writes enables the filter on the name that the writes before it wrote, and its filter
change leaves no session of another name. -/
theorem setFilterSelectsName : Obligations.SetFilterSelectsName := by
  intro s name prepend hname
  obtain ⟨u, hrun, huregs, -⟩ :=
    runAll_writes (filterNameWrites name prepend) (by simp [filterNameWrites, Reg.readOnly]) s
  obtain ⟨t, hexec, -, -, -, hregs, -, hslots⟩ := exec_cfgWrite_effect (k := .ctrl) rfl (ctrlValue prepend true) u
  have hname' : effectiveFilterName t.regs = name := by
    rw [hregs, huregs, effectiveFilterName_writtenRegs hname]
  obtain ⟨hen, hctrl⟩ := get_ctrl_of_ctrlValue prepend u.regs
  rw [← hregs] at hslots hen hctrl
  refine ⟨t, ?_, hname', hctrl, fun x hx hv hst => ?_⟩
  · rw [setFilter_eq, runAll_append, hrun, Option.bind_some, writeReg, runAll, hexec]
    rfl
  · rw [hslots rfl] at hx
    obtain ⟨sl, -, hsl⟩ := List.mem_map.1 hx
    exact (name_eq_filter_of_kept hen hsl.symm hv hst).trans hname'

end Sys2Proof.Machine
end

section
/-! PROOFS. Transmitting: the fields of TX_FORMAT as numbers, what the checks of TX_PACKET answer in each case, and the whole
next state of each end (spec 45_transmit.md R270 to R275, 10_state.md R30, R33). -/

namespace Sys2Proof.Machine

/-! ## The fields of TX_FORMAT (R30) -/

theorem txSrIndex_eq (f : Word32) : txSrIndex f = BitVec.ofNat 5 f.toNat := by
  apply BitVec.eq_of_toNat_eq
  simp [txSrIndex, BitVec.extractLsb']

theorem txSubProtocol_eq (f : Word32) : txSubProtocol f = BitVec.ofNat 3 (f.toNat / 32) := by
  apply BitVec.eq_of_toNat_eq
  simp [txSubProtocol, BitVec.extractLsb', Nat.shiftRight_eq_div_pow]

theorem txNbcMinus1_eq (f : Word32) : txNbcMinus1 f = BitVec.ofNat 8 (f.toNat / 256) := by
  apply BitVec.eq_of_toNat_eq
  simp [txNbcMinus1, BitVec.extractLsb', Nat.shiftRight_eq_div_pow]

theorem txDataType_eq (f : Word32) : txDataType f = BitVec.ofNat 3 (f.toNat / 65536) := by
  apply BitVec.eq_of_toNat_eq
  simp [txDataType, BitVec.extractLsb', Nat.shiftRight_eq_div_pow]

theorem txCodec_eq (f : Word32) : txCodec f = BitVec.ofNat 4 (f.toNat / 1048576) := by
  apply BitVec.eq_of_toNat_eq
  simp [txCodec, BitVec.extractLsb', Nat.shiftRight_eq_div_pow]

/-- The transmit format is PCM: sub-protocol 0 and codec 0 (R92). -/
abbrev TxPcm (r : Regs) : Prop := (r.get .txFormat).toNat / 32 % 8 = 0 ∧ (r.get .txFormat).toNat / 1048576 % 16 = 0

/-- The format code of TX_FORMAT, as a number (R86). -/
abbrev txCode (r : Regs) : Nat :=
  (r.get .txFormat).toNat / 256 % 256 * 256 + (r.get .txFormat).toNat % 32 * 8 + (r.get .txFormat).toNat / 65536 % 8

theorem txFormatCode_toNat (r : Regs) : (txFormatCode r).toNat = txCode r := by
  rw [txFormatCode, formatCode_toNat, txNbcMinus1_eq, txSrIndex_eq, txDataType_eq]
  simp only [BitVec.toNat_ofNat]

theorem txFormatCode_eq (r : Regs) : txFormatCode r = BitVec.ofNat 16 (txCode r) := by
  rw [← txFormatCode_toNat, BitVec.ofNat_toNat, BitVec.setWidth_eq]

theorem txPcm_iff (r : Regs) :
    TxPcm r ↔ txSubProtocol (r.get .txFormat) = 0 ∧ txCodec (r.get .txFormat) = 0 := by
  simp only [txSubProtocol_eq, txCodec_eq, ← BitVec.toNat_inj, BitVec.toNat_ofNat]
  rfl

theorem wireClass_of_txPcm {r : Regs} (h : TxPcm r) :
    wireClass (txSubProtocol (r.get .txFormat)) (txCodec (r.get .txFormat)) = .pcm := by
  obtain ⟨hsub, hcodec⟩ := (txPcm_iff r).1 h
  rw [hsub, hcodec]
  rfl

theorem wireClass_of_not_txPcm {r : Regs} (h : ¬TxPcm r) :
    wireClass (txSubProtocol (r.get .txFormat)) (txCodec (r.get .txFormat)) ≠ .pcm :=
  fun hclass => h ((txPcm_iff r).2 (wireClass_eq_pcm hclass))

/-- The bits that TX_FORMAT has are those of its five fields (R22, R30). -/
theorem txFormat_fields (r : Regs) :
    (r.get .txFormat).toNat = (txSrIndex (r.get .txFormat)).toNat + 32 * (txSubProtocol (r.get .txFormat)).toNat +
      256 * (txNbcMinus1 (r.get .txFormat)).toNat + 65536 * (txDataType (r.get .txFormat)).toNat +
      1048576 * (txCodec (r.get .txFormat)).toNat := by
  rw [txSrIndex_eq, txSubProtocol_eq, txNbcMinus1_eq, txDataType_eq, txCodec_eq]
  simp only [BitVec.toNat_ofNat]
  have hlt : (r.get .txFormat).toNat ≤ 0xF7FFFF := by
    rw [Regs.get, BitVec.toNat_and]
    exact Nat.and_le_right
  have hbit : (r.get .txFormat).toNat / 524288 % 2 = 0 := by
    have hfalse : (r.get .txFormat).getLsbD 19 = false := by
      rw [Regs.get, BitVec.getLsbD_and]
      simp [regMask]
    rw [BitVec.getLsbD, Nat.testBit_eq_decide_div_mod_eq] at hfalse
    simp at hfalse
    omega
  omega

/-! ## The checks (R270) -/

section Checks
variable {p : Params} {r : Regs} {k : BitVec 16} {pl : Bytes}

/-- The payload is of the transmit format: for PCM, `k` whole frames of a mapped one. -/
abbrev TxPayload (p : Params) (r : Regs) (k : BitVec 16) (pl : Bytes) : Prop :=
  ¬TxPcm r ∨ ∃ d, Maps p (txCode r) d ∧ pl.length = k.toNat * bpf d

theorem txFrame_of_badCount (hk : k.toNat < 1 ∨ 256 < k.toNat) : txFrame p r k pl = .error (.txBadCount, .none) := if_pos hk

/-- The transmit name is valid, so TX_PACKET never meets ENCODE_BAD_NAME. -/
theorem packetEncode_txHeader (m : Nat) (r : Regs) (k : BitVec 16) (pl : Bytes) :
    packetEncode m (txHeader r k) pl =
      if m < 28 + pl.length then .error .tooLarge
      else .ok (datagramBytes (txHeader r k).subProtocol (txHeader r k).codec (headerFields (txHeader r k))
        (padName (txName r)) (r.get .txSeq) pl) := by
  have hname : Bytes.ValidName (txHeader r k).name := txName_validName r
  split_ifs with hlarge
  · exact packetEncode_eq_tooLarge hname hlarge
  · exact packetEncode_eq_ok_iff.2 ⟨hname, Nat.le_of_not_lt hlarge, rfl⟩

/-- The last of the checks of R270: the size of the datagram. -/
def txEncoded (p : Params) (r : Regs) (k : BitVec 16) (pl : Bytes) : Except (ResultCode × ResultData) Bytes :=
  if p.maxPacketSize < 28 + pl.length then .error (.encodeTooLarge, .none)
  else .ok (datagramBytes (txHeader r k).subProtocol (txHeader r k).codec (headerFields (txHeader r k))
    (padName (txName r)) (r.get .txSeq) pl)

/-- A legal count and a payload that is not PCM: the size alone is left to check. -/
theorem txFrame_of_not_txPcm (h1 : 1 ≤ k.toNat) (h256 : k.toNat ≤ 256) (hpcm : ¬TxPcm r) :
    txFrame p r k pl = txEncoded p r k pl := by
  have hclass := wireClass_of_not_txPcm hpcm
  rw [txFrame, if_neg (by omega), packetEncode_txHeader, txEncoded]
  cases hw : wireClass (txSubProtocol (r.get .txFormat)) (txCodec (r.get .txFormat)) with
  | pcm => exact absurd hw hclass
  | compressed | service => split_ifs <;> rfl

/-- A legal count and a PCM format that is unmapped. -/
theorem txFrame_of_lookup_error (h1 : 1 ≤ k.toNat) (h256 : k.toNat ≤ 256) (hpcm : TxPcm r) {e : LookupError}
    (hl : lookup p (txFormatCode r) = .error e) :
    txFrame p r k pl = .error (e.code, .formatCode (txFormatCode r)) := by
  rw [txFrame, if_neg (by omega), wireClass_of_txPcm hpcm, hl]

/-- A legal count and a mapped PCM format: the payload is checked, then the size. -/
theorem txFrame_of_lookup_ok (h1 : 1 ≤ k.toNat) (h256 : k.toNat ≤ 256) (hpcm : TxPcm r) {d : FormatDescriptor}
    (hl : lookup p (txFormatCode r) = .ok d) :
    txFrame p r k pl =
      if pl.length ≠ k.toNat * bpf d then .error (.txPayloadMismatch, .none) else txEncoded p r k pl := by
  rw [txFrame, if_neg (by omega), packetEncode_txHeader, txEncoded, wireClass_of_txPcm hpcm, hl]
  by_cases hlarge : p.maxPacketSize < 28 + pl.length <;>
    simp only [hlarge, if_true, if_false, EncodeError.code]

theorem txFrame_of_payload (h1 : 1 ≤ k.toNat) (h256 : k.toNat ≤ 256) (hpl : TxPayload p r k pl) :
    txFrame p r k pl = txEncoded p r k pl := by
  by_cases hpcm : TxPcm r
  · obtain hnot | ⟨d, hmaps, hlen⟩ := hpl
    · exact absurd hpcm hnot
    · rw [← txFormatCode_toNat, ← lookup_ok_iff] at hmaps
      rw [txFrame_of_lookup_ok h1 h256 hpcm hmaps, if_neg (not_not.2 hlen)]
  · exact txFrame_of_not_txPcm h1 h256 hpcm

/-- Every outcome of the checks: the datagram of a legal packet, or one of the errors of R270. -/
theorem txFrame_cases (p : Params) (r : Regs) (k : BitVec 16) (pl : Bytes) :
    (1 ≤ k.toNat ∧ k.toNat ≤ 256 ∧ TxPayload p r k pl ∧ ∃ dg, packetEncode p.maxPacketSize (txHeader r k) pl = .ok dg ∧
      txFrame p r k pl = .ok dg) ∨
    ∃ c d, c ∈ [ResultCode.txBadCount, .unsupportedRate, .unsupportedDepth, .txPayloadMismatch, .encodeTooLarge] ∧
      (d = .none ∨ ∃ fc, d = .formatCode fc) ∧ txFrame p r k pl = .error (c, d) := by
  by_cases hk : k.toNat < 1 ∨ 256 < k.toNat
  · exact .inr ⟨_, _, by simp, .inl rfl, txFrame_of_badCount hk⟩
  obtain ⟨h1, h256⟩ : 1 ≤ k.toNat ∧ k.toNat ≤ 256 := by omega
  by_cases hpl : TxPayload p r k pl
  · rw [txFrame_of_payload h1 h256 hpl, packetEncode_txHeader, txEncoded]
    split_ifs
    · exact .inr ⟨_, _, by simp, .inl rfl, rfl⟩
    · exact .inl ⟨h1, h256, hpl, _, rfl, rfl⟩
  · obtain ⟨hpcm, hnone⟩ := not_or.1 hpl
    rw [not_not] at hpcm
    right
    cases hl : lookup p (txFormatCode r) with
    | error e =>
      refine ⟨_, _, ?_, .inr ⟨_, rfl⟩, txFrame_of_lookup_error h1 h256 hpcm hl⟩
      cases e <;> simp [LookupError.code]
    | ok d =>
      have hlen : pl.length ≠ k.toNat * bpf d := fun hlen =>
        hnone ⟨d, txFormatCode_toNat r ▸ (lookup_ok_iff _ _ _).1 hl, hlen⟩
      refine ⟨_, _, ?_, .inl rfl, (txFrame_of_lookup_ok h1 h256 hpcm hl).trans (if_pos hlen)⟩
      simp

end Checks

/-! ## The two ends of TX_PACKET (R270, R271) -/

section Ends
variable {s : State} {k : BitVec 16} {pl : Bytes}

theorem exec_txPacket_of_error {c : ResultCode} {d : ResultData} (h : txFrame s.params s.regs k pl = .error (c, d)) :
    exec (.txPacket k pl) s = .next { s with
      regs := s.regs.set .statTxErrors (s.regs.get .statTxErrors + 1), result := some ⟨c, d⟩ } := by
  simp only [exec, execTxPacket, h]
  rfl

theorem exec_txPacket_of_ok {dg : Bytes} (h : txFrame s.params s.regs k pl = .ok dg) :
    exec (.txPacket k pl) s = .next { s with
      regs := (s.regs.set .txSeq (s.regs.get .txSeq + 1)).set .statTxPackets (s.regs.get .statTxPackets + 1)
      result := some ⟨.ok, .bytes dg⟩ } := by
  have hcount : (s.regs.set .txSeq (s.regs.get .txSeq + 1)).get .statTxPackets = s.regs.get .statTxPackets :=
    get_set_other _ _ (by decide)
  simp only [exec, execTxPacket, h, count, finish, Regs.bump, hcount]
  rfl

end Ends

/-- The header's frame count of a packet of `k` frames (R84, R270). -/
theorem toNat_nbsMinus1 {k : BitVec 16} (h1 : 1 ≤ k.toNat) : ((k - 1).setWidth 8).toNat = (k.toNat - 1) % 2 ^ 8 := by
  have hone : (1 : BitVec 16).toNat = 1 := rfl
  have hk := k.isLt
  rw [BitVec.toNat_setWidth, BitVec.toNat_sub, hone]
  omega

/-- The datagram of TX_PACKET in the arithmetic of R80 (R270). -/
theorem txEncoded_ok {p : Params} {r : Regs} {k : BitVec 16} {pl : Bytes} (h1 : 1 ≤ k.toNat)
    (hfits : 28 + pl.length ≤ p.maxPacketSize) :
    txEncoded p r k pl = .ok (wireLayout
      { subProtocol := BitVec.ofNat 3 ((r.get .txFormat).toNat / 32), srIndex := BitVec.ofNat 5 (r.get .txFormat).toNat
        nbsMinus1 := BitVec.ofNat 8 (k.toNat - 1), nbcMinus1 := BitVec.ofNat 8 ((r.get .txFormat).toNat / 256)
        dataType := BitVec.ofNat 3 ((r.get .txFormat).toNat / 65536), reserved := 0
        codec := BitVec.ofNat 4 ((r.get .txFormat).toNat / 1048576), name := [], frameCounter := r.get .txSeq }
      (effectiveTxName r ++ List.replicate (16 - (effectiveTxName r).length) 0) pl) := by
  have hnbs : (k - 1).setWidth 8 = BitVec.ofNat 8 (k.toNat - 1) :=
    BitVec.eq_of_toNat_eq ((toNat_nbsMinus1 h1).trans (BitVec.toNat_ofNat ..).symm)
  have hpad : padName (txName r) = effectiveTxName r ++ List.replicate (16 - (effectiveTxName r).length) 0 := by
    rw [padName, zeros, txName_eq]
  rw [txEncoded, if_neg (by omega), hpad, ← txSrIndex_eq, ← txSubProtocol_eq, ← txNbcMinus1_eq, ← txDataType_eq, ← txCodec_eq,
    ← hnbs, ← datagramBytes_eq_wireLayout]
  rfl

/-- Settles O32: the checks pass, and the datagram is laid out from the fields of TX_FORMAT. -/
theorem txPacketResult : Obligations.TxPacketResult := by
  intro s k pl h1 h256 hfits f hpayload
  have hpl : TxPayload s.params s.regs k pl := by
    by_cases hpcm : TxPcm s.regs
    · exact .inr (hpayload hpcm.1 hpcm.2)
    · exact .inl hpcm
  exact exec_txPacket_of_ok ((txFrame_of_payload h1 h256 hpl).trans (txEncoded_ok h1 hfits))

/-- Settles O33: one clause for each error of the checks, in their order. -/
theorem txPacketErrors : Obligations.TxPacketErrors := by
  intro s k pl f fc pcm errs
  have hfc : fc = txFormatCode s.regs := (txFormatCode_eq s.regs).symm
  clear_value fc
  subst hfc
  refine ⟨fun hk => exec_txPacket_of_error (txFrame_of_badCount hk), fun h1 h256 =>
    ⟨fun hpcm hrate => ?rate, fun hpcm hdepth => ?depth, fun d hpcm hmaps hlen => ?mismatch, fun hpl hlarge => ?large⟩⟩
  case rate => exact exec_txPacket_of_error (txFrame_of_lookup_error h1 h256 hpcm ((lookup_rate_iff _ _).2 hrate))
  case depth => exact exec_txPacket_of_error (txFrame_of_lookup_error h1 h256 hpcm ((lookup_depth_iff _ _).2 hdepth))
  case mismatch =>
    refine exec_txPacket_of_error ((txFrame_of_lookup_ok h1 h256 hpcm ((lookup_ok_iff _ _ _).2 hmaps)).trans (if_pos hlen))
  case large =>
    rw [txFormatCode_toNat] at hpl
    exact exec_txPacket_of_error ((txFrame_of_payload h1 h256 hpl).trans (if_pos hlarge))

/-- Settles O34: a count that FRAMES_FIT allows is at most 256, and its frames leave room for the header. -/
theorem txWithinFitSucceeds : Obligations.TxWithinFitSucceeds := by
  intro s k pl d fit fc f hsub hcodec hfc hmaps hlen hwf hfit h1 hle
  have hfit' : fit = framesFit s.params d := by
    rw [exec_framesFit, withLookup_of_maps hmaps] at hfit
    simpa [finish, eq_comm] using hfit
  obtain ⟨-, -, -, hmax, -⟩ := hwf
  rw [hfit', framesFit, Nat.le_min] at hle
  obtain ⟨h256, hquot⟩ := hle
  have hroom : k.toNat * bpf d ≤ s.params.maxPacketSize - 28 := (Nat.le_div_iff_mul_le (maps_bpf hmaps)).1 hquot
  have hpl : TxPayload s.params s.regs k pl := .inr ⟨d, (show fc.toNat = txCode s.regs from hfc) ▸ hmaps, hlen⟩
  have hframe := txFrame_of_payload h1 h256 hpl
  rw [txEncoded, if_neg (by omega)] at hframe
  refine ⟨_, _, exec_txPacket_of_ok hframe, rfl, ?_⟩
  rw [datagramBytes_length, padName_length (txName_validName s.regs).1]

/-- A TX_PACKET that answers a datagram has passed the checks. -/
theorem exec_txPacket_ok_inv {s t : State} {k : BitVec 16} {pl dg : Bytes} (he : exec (.txPacket k pl) s = .next t)
    (hr : t.result = some ⟨.ok, .bytes dg⟩) :
    1 ≤ k.toNat ∧ k.toNat ≤ 256 ∧ TxPayload s.params s.regs k pl ∧
      packetEncode s.params.maxPacketSize (txHeader s.regs k) pl = .ok dg := by
  obtain ⟨h1, h256, hpl, dg', henc, hframe⟩ | ⟨c, d, hc, -, hframe⟩ := txFrame_cases s.params s.regs k pl
  · rw [exec_txPacket_of_ok hframe] at he
    cases he
    cases hr
    exact ⟨h1, h256, hpl, henc⟩
  · rw [exec_txPacket_of_error hframe] at he
    cases he
    cases hr
    exact absurd hc (by decide)

/-- Settles O35: the datagram is the encoding of `txHeader`, so it decodes to it. -/
theorem txDatagramDecodes : Obligations.TxDatagramDecodes := by
  intro s t u k pl dg he hr hparams
  obtain ⟨h1, h256, hpl, henc⟩ := exec_txPacket_ok_inv he hr
  have hdec : Decodes u.params dg (txHeader s.regs k) pl := (decodes_iff _ _ _ _).2 (hparams ▸ packetDecode_packetEncode henc)
  refine ⟨txHeader s.regs k, exec_decode_of_decodes hdec, txName_eq s.regs, rfl, ?count, rfl, txFormat_fields s.regs, ?pcm⟩
  case count =>
    have hnbs : (txHeader s.regs k).nbsMinus1.toNat = (k.toNat - 1) % 2 ^ 8 := toNat_nbsMinus1 h1
    omega
  case pcm =>
    intro hsub hcodec
    obtain hnot | ⟨d, hmaps, hlen⟩ := hpl
    · exact absurd ((txPcm_iff s.regs).2 ⟨hsub, hcodec⟩) hnot
    · refine ⟨d, ?_, hlen⟩
      rwa [← txFormatCode_toNat, txFormatCode, formatCode_toNat] at hmaps

end Sys2Proof.Machine
end

section
/-! PROOFS. Receiving a PCM packet: each refusal of stages 3 to 9 with its whole next state, and the commit of an accepted
packet in the three cases of R240: a first format, the session's own, another one (spec 44_receive_session.md R233 to R246). -/

namespace Sys2Proof.Machine

section Refusals
variable {s : State} {i : Instr} {src : SrcAddr} {h : Header} {pl : Bytes} {d : FormatDescriptor}

/-! ## Refusals before the session lookup (R233 to R236) -/

/-- A refused packet counts once, in the counter of its line, and answers its code; a regression is apart. -/
theorem exec_of_refused (hdel : DeliversPcm s.params i src h pl) {e : RxRefusal} (hc : rxCheck s src h pl = .error e)
    (hne : ∀ k, e ≠ .seqRegression k) :
    exec i s = .next { s with
      regs := s.regs.set e.counter (s.regs.get e.counter + 1), result := some ⟨e.result.1, e.result.2⟩ } := by
  rw [exec_of_deliversPcm hdel]
  simp only [receivePcm, hc, rxRefuse_other hne, finish, count, Regs.bump]
  rfl

theorem rxCheck_of_lookup_error {e : LookupError} (hl : lookup s.params (headerFormatCode h) = .error e) :
    rxCheck s src h pl = .error (.unsupported e (headerFormatCode h)) := by
  simp only [rxCheck, hl]

theorem rxCheck_of_notMultiple (hl : lookup s.params (headerFormatCode h) = .ok d) (hmod : pl.length % bpf d ≠ 0) :
    rxCheck s src h pl = .error .payloadNotMultiple := by
  simp only [rxCheck, hl, if_pos hmod]

theorem rxCheck_of_short (hl : lookup s.params (headerFormatCode h) = .ok d) (hmod : pl.length % bpf d = 0)
    (hshort : pl.length / bpf d < headerFrames h) : rxCheck s src h pl = .error .payloadShort := by
  simp only [rxCheck, hl, if_neg (not_not.2 hmod), if_pos hshort]

theorem rxCheck_of_nameMismatch (hl : lookup s.params (headerFormatCode h) = .ok d) (hmod : pl.length % bpf d = 0)
    (hlong : ¬pl.length / bpf d < headerFrames h) (hname : filterEnabled s.regs = true ∧ h.name ≠ filterName s.regs) :
    rxCheck s src h pl = .error .nameMismatch := by
  simp only [rxCheck, hl, if_neg (not_not.2 hmod), if_neg hlong]
  rw [if_pos hname]

theorem rxCheck_of_rxCapability (hl : lookup s.params (headerFormatCode h) = .ok d) (hmod : pl.length % bpf d = 0)
    (hlong : ¬pl.length / bpf d < headerFrames h) (hname : ¬(filterEnabled s.regs = true ∧ h.name ≠ filterName s.regs))
    (hdepth : depthAccepted s.regs d = false) : rxCheck s src h pl = .error (.rxCapability (headerFormatCode h)) := by
  simp only [rxCheck, hl, if_neg (not_not.2 hmod), if_neg hlong]
  rw [if_neg hname, if_pos hdepth]

/-- Stage 5 in the machine's terms (R32, R235). -/
theorem passesFilter_iff (r : Regs) (name : Bytes) :
    PassesFilter r name ↔ ¬(filterEnabled r = true ∧ name ≠ filterName r) := by
  rw [filterName_eq, not_and, not_not]
  rfl

/-- The payload holds fewer frames than the header declares, in the machine's quotient (R234). -/
theorem quotient_lt_iff (hm : Maps s.params (headerCode h) d) :
    pl.length / bpf d < headerFrames h ↔ pl.length < (h.nbsMinus1.toNat + 1) * bpf d :=
  Nat.div_lt_iff_lt_mul (maps_bpf hm)

/-- Settles O23: one clause for each refusal of stages 3 to 6, in their order. -/
theorem refusedBeforeLookup : Obligations.RefusedBeforeLookup := by
  intro s i src h pl fc hdel hfc
  obtain rfl : fc = headerFormatCode h := BitVec.eq_of_toNat_eq (hfc.trans (headerFormatCode_toNat h).symm)
  refine ⟨fun hrate => ?rate, fun hdepth => ?depth, fun d hmaps => ?mapped⟩
  case rate =>
    exact exec_of_refused hdel (rxCheck_of_lookup_error ((lookup_rate_iff _ _).2 hrate)) nofun
  case depth =>
    exact exec_of_refused hdel (rxCheck_of_lookup_error ((lookup_depth_iff _ _).2 hdepth)) nofun
  case mapped =>
    have hl := (lookup_ok_iff _ _ _).2 hmaps
    have hlt := quotient_lt_iff (pl := pl) (hfc ▸ hmaps)
    refine ⟨fun hmod => ?notMultiple, fun hmod hshort => ?short, fun hfits hname => ?name,
      fun hfits hname hdepth => ?capability⟩
    case notMultiple => exact exec_of_refused hdel (rxCheck_of_notMultiple hl hmod) nofun
    case short => exact exec_of_refused hdel (rxCheck_of_short hl hmod (hlt.2 hshort)) nofun
    case name =>
      obtain ⟨-, hmod, hlong⟩ := hfits
      rw [passesFilter_iff, not_not] at hname
      exact exec_of_refused hdel (rxCheck_of_nameMismatch hl hmod (mt hlt.1 (Nat.not_lt.2 hlong)) hname) nofun
    case capability =>
      obtain ⟨-, hmod, hlong⟩ := hfits
      rw [← depthAccepted_iff, Bool.not_eq_true] at hdepth
      exact exec_of_refused hdel (rxCheck_of_rxCapability hl hmod (mt hlt.1 (Nat.not_lt.2 hlong))
        ((passesFilter_iff _ _).1 hname) hdepth) nofun

/-! ## Refusals by the session lookup (R237 to R239) -/

/-- An admissible packet that stages 7 to 9 refuse. -/
theorem rxCheck_of_admit_error (hadm : Admissible s h pl d) {e : RxRefusal}
    (he : admitStream s.regs s.slots src h = .error e) : rxCheck s src h pl = .error e := by
  rw [rxCheck_of_admissible hadm, he]

theorem admitStream_of_noSlot (hno : NoSessionOf s src h.name) (hfull : ∀ sl ∈ s.slots, sl.valid = true) :
    admitStream s.regs s.slots src h = .error .noSlot := by
  simp only [admitStream, findSession_eq_none_iff.2 hno, findFree_eq_none_iff.2 hfull]

theorem admitStream_of_new (hno : NoSessionOf s src h.name) {k : Nat} (hfree : LowestFree s k) :
    admitStream s.regs s.slots src h = .ok (k, true, 0) := by
  simp only [admitStream, findSession_eq_none_iff.2 hno, findFree_eq_some_iff.2 hfree]

variable {k : Nat} {sl : Slot}

/-- In a legal state, the packet of a session is judged by its counter against that session. -/
theorem admitStream_of_session (hinv : Inv s) (hses : SessionAt s k src h.name sl) :
    admitStream s.regs s.slots src h =
      (classifyCounter (s.regs.get .seqTol) k sl h.frameCounter).map fun gap => (k, false, gap) := by
  simp only [admitStream, findSession_of_sessionAt hinv.keys hses, hses.1, Option.getD_some]
  cases classifyCounter (s.regs.get .seqTol) k sl h.frameCounter <;> rfl

theorem classifyCounter_of_draining {tol ctr : Word32} (hst : sl.state = .draining) :
    classifyCounter tol k sl ctr = .error .draining := if_pos hst

/-- A counter that is not newer than the last one: late within the tolerance, a regression beyond it (R239). -/
theorem classifyCounter_of_old {tol ctr : Word32} (hst : sl.state ≠ .draining) (hseq : sl.seqValid = true)
    (hold : (ctr - sl.lastSeq).toInt ≤ 0) :
    classifyCounter tol k sl ctr =
      .error (if (tol.toNat : Int) < -(ctr - sl.lastSeq).toInt then .seqRegression k else .late) := by
  simp only [classifyCounter, if_neg hst, hseq, if_true, sdiff32, if_pos hold, gt_iff_lt]
  split_ifs <;> rfl

/-- Settles O24: the three refusals of stages 7 to 9 that reset nothing. -/
theorem refusedByLookup : Obligations.RefusedByLookup := by
  intro s i src h pl d hinv hdel hadm
  refine ⟨fun hno hfull => ?noSlot, fun k sl hses => ⟨fun hst => ?draining, fun hst hseq hold htol => ?late⟩⟩
  case noSlot => exact exec_of_refused hdel (rxCheck_of_admit_error hadm (admitStream_of_noSlot hno hfull)) nofun
  case draining =>
    have herr : admitStream s.regs s.slots src h = .error .draining := by
      rw [admitStream_of_session hinv hses, classifyCounter_of_draining hst]
      rfl
    exact exec_of_refused hdel (rxCheck_of_admit_error hadm herr) nofun
  case late =>
    have herr : admitStream s.regs s.slots src h = .error .late := by
      rw [admitStream_of_session hinv hses, classifyCounter_of_old hst hseq hold, if_neg (by omega)]
      rfl
    exact exec_of_refused hdel (rxCheck_of_admit_error hadm herr) nofun

/-! ## The regression reset (R206, R239) -/

/-- A reset session keeps its StreamKey, and nothing else (R206). -/
theorem sessionReset_eq (resume prepend : Bool) (k : Nat) (sl : Slot) :
    sessionReset resume prepend k sl =
      ({ Slot.cleared with valid := sl.valid, src := sl.src, name := sl.name },
        if sl.state = .playing then [.stopped k] else []) := by
  have hevents : (sessionReset resume prepend k sl).2 = (setState resume prepend k .idle sl).2 := rfl
  refine Prod.ext rfl ?_
  rw [hevents, setState_events]
  simp

/-- A counter of the statistics after a count, and every other register. -/
theorem get_bump_ite (r : Regs) {k : Reg} (hk : k.readOnly = true) (n : Nat) (j : Reg) :
    (r.bump k n).get j = r.get j + BitVec.ofNat 32 (if j = k then n else 0) := by
  split_ifs with hj
  · rw [hj, get_bump_counter r n hk]
  · rw [get_bump_other r n hj, BitVec.add_zero]

/-- What a regression leaves of its session, field by field. -/
theorem rxRefuse_seqRegression (hsl : s.slots[k]? = some sl) :
    let t := rxRefuse (.seqRegression k) s
    t.params = s.params ∧ t.requests = s.requests ∧
    t.slots = s.slots.set k { Slot.cleared with valid := sl.valid, src := sl.src, name := sl.name } ∧
    t.events = s.events ++ (if sl.state = .playing then [.stopped k] else []) ∧
    (∀ r, t.regs.get r = s.regs.get r + BitVec.ofNat 32 (one (r = .statRxRejected ∨ r = .statSeqResets))) ∧
    t.result = some ⟨.rejectedSeqRegression, .none⟩ := by
  have hget : (s.slot? k).getD Slot.cleared = sl := by rw [State.slot?, hsl, Option.getD_some]
  have hregs : (rxRefuse (.seqRegression k) s).regs = (s.regs.bump .statSeqResets 1).bump .statRxRejected 1 := rfl
  refine ⟨rfl, rfl, ?_, ?_, fun r => ?_, rfl⟩
  · simp only [rxRefuse, regressionReset, hget, sessionReset_eq, finish_slots, count_slots, putSlot_slots]
  · simp only [rxRefuse, regressionReset, hget, sessionReset_eq, finish_events, count_events, putSlot_events]
  · rw [hregs, get_bump_ite _ rfl, get_bump_ite _ rfl]
    cases r <;> simp [one]

/-- Settles O25: stage 9 finds the regression, and its reset is `rxRefuse_seqRegression`. -/
theorem regressionResetsSession : Obligations.RegressionResetsSession := by
  intro s i src h pl d k sl hinv hdel hadm hses hst hseq hreg
  have herr : admitStream s.regs s.slots src h = .error (.seqRegression k) := by
    rw [admitStream_of_session hinv hses, classifyCounter_of_old hst hseq (by omega), if_pos hreg]
    rfl
  have hexec : exec i s = .next (rxRefuse (.seqRegression k) s) := by
    rw [exec_of_deliversPcm hdel]
    simp only [receivePcm, rxCheck_of_admit_error hadm herr]
  obtain ⟨hsl, hv, hsrc, hname⟩ := hses
  obtain ⟨hparams, hreq, hslots, hev, hregs, hresult⟩ := rxRefuse_seqRegression hsl
  rw [hv, hsrc, hname] at hslots
  exact ⟨_, hexec, hparams, hreq, hslots, hev, hregs, hresult⟩

end Refusals

end Sys2Proof.Machine
end

section
/-! PROOFS. Accepted packets: the commit of stage 10 as one equation, and its three cases: a first format, the session's own,
another one (spec 44_receive_session.md R240 to R242, 43_playback_buffer.md R200, R207). -/

namespace Sys2Proof.Machine

/-- What stage 10 commits of an admissible packet that stages 7 to 9 let in (R230). -/
def acceptedPlan (h : Header) (pl : Bytes) (d : FormatDescriptor) (k : Nat) (isNew : Bool) (gap : Nat) : RxPlan where
  slot := k
  isNew := isNew
  fmt := d
  frames := frameList pl (bpf d) (h.nbsMinus1.toNat + 1)
  nHdr := h.nbsMinus1.toNat + 1
  mism := decide ((h.nbsMinus1.toNat + 1) * bpf d ≠ pl.length)
  gap := gap

theorem flagsOf_congr {a b c d e f a' b' c' d' e' f' : Prop} [Decidable a] [Decidable b] [Decidable c] [Decidable d]
    [Decidable e] [Decidable f] [Decidable a'] [Decidable b'] [Decidable c'] [Decidable d'] [Decidable e'] [Decidable f']
    (ha : a ↔ a') (hb : b ↔ b') (hc : c ↔ c') (hd : d ↔ d') (he : e ↔ e') (hf : f ↔ f') :
    flagsOf a b c d e f = flagsOf a' b' c' d' e' f' := by
  simp only [flagsOf, one, ha, hb, hc, hd, he, hf]

theorem acceptedCounts_congr {m m' : Prop} [Decidable m] [Decidable m'] (hm : m ↔ m') (gap fill dropped : Nat) :
    acceptedCounts m gap fill dropped = acceptedCounts m' gap fill dropped := by
  funext r
  cases r <;> simp only [acceptedCounts, one, hm]

section Accepted
variable {s : State} {i : Instr} {src : SrcAddr} {h : Header} {pl : Bytes} {d : FormatDescriptor} {k : Nat} {isNew : Bool}
  {gap : Nat}

theorem rxCheck_of_admit_ok (hadm : Admissible s h pl d) (hadmit : admitStream s.regs s.slots src h = .ok (k, isNew, gap)) :
    rxCheck s src h pl = .ok (acceptedPlan h pl d k isNew gap) := by
  rw [rxCheck_of_admissible hadm, hadmit]
  rfl

theorem pushBlock_dropped (p : Params) (r : Regs) (i : Nat) (frames : List Frame) (fill : Nat) (sl : Slot) :
    (pushBlock p r i frames fill sl).2.2 = (pushedQueue p.bufCapFrames (threshold p r sl.fmt) frames fill sl).2 := rfl

/-- The commit of an accepted packet, from the slot `x` that format negotiation leaves and the events `es` of the negotiation:
`content` is the queue before it is cut to the capacity, and `plays` says that the session starts to play. -/
theorem exec_of_accepted (hinv : Inv s) (hdel : DeliversPcm s.params i src h pl) (hadm : Admissible s h pl d)
    (hadmit : admitStream s.regs s.slots src h = .ok (k, isNew, gap)) {old sl0 x : Slot} {es : List Event} {fill : Nat}
    {content : List Frame} {changes plays : Prop} [Decidable changes] [Decidable plays] (hold : s.slots[k]? = some old)
    (hsl0 : admittedSlot (acceptedPlan h pl d k isNew gap) src h.name old = sl0)
    (hneg : negotiate s.params.notifyStartOnResume (prependSilence s.regs) (acceptedPlan h pl d k isNew gap) sl0 = (x, es))
    (hfmt : x.fmt = d) (hroom : x.fifo.length ≤ s.params.bufCapFrames)
    (hchanges : formatChanges (acceptedPlan h pl d k isNew gap) sl0 = true ↔ changes)
    (hfill : (if changes then 0 else gap * (h.nbsMinus1.toNat + 1)) = fill)
    (hcontent : x.fifo ++ (List.replicate ((if x.prependPending then threshold s.params s.regs d else 0) + fill) (zeros (bpf d)) ++
      frameList pl (bpf d) (h.nbsMinus1.toNat + 1)) = content)
    (hplays : plays ↔ x.state = .buffering ∧
      threshold s.params s.regs d ≤ (content.drop (content.length - s.params.bufCapFrames)).length) :
    ∃ t, exec i s = .next t ∧ t.params = s.params ∧ t.requests = s.requests ∧
      t.slots = s.slots.set k { x with
        state := if plays then .playing else x.state
        fifo := content.drop (content.length - s.params.bufCapFrames), prependPending := false
        startedNotified := x.startedNotified || decide plays, seqValid := true, lastSeq := h.frameCounter, idleTicks := 0 } ∧
      t.events = s.events ++ (es ++
        if plays ∧ (x.startedNotified = false ∨ s.params.notifyStartOnResume = true) then [.started k] else []) ∧
      (∀ r, t.regs.get r = s.regs.get r + BitVec.ofNat 32
        (acceptedCounts ((h.nbsMinus1.toNat + 1) * bpf d ≠ pl.length) gap fill (content.length - s.params.bufCapFrames) r)) ∧
      t.result = some ⟨.ok, .rx k (flagsOf (isNew = true) changes (0 < gap) ((h.nbsMinus1.toNat + 1) * bpf d ≠ pl.length)
        (0 < content.length - s.params.bufCapFrames) plays) (BitVec.ofNat 32 gap)
        (content.length - s.params.bufCapFrames)⟩ := by
  obtain ⟨-, -, hcap, -⟩ := hinv.params
  set plan := acceptedPlan h pl d k isNew gap
  have hexec : exec i s = .next (rxCommit plan src h.name h.frameCounter s) := by
    rw [exec_of_deliversPcm hdel]
    simp only [receivePcm, rxCheck_of_admit_ok hadm hadmit]
    rfl
  have hgapFill : gapFill plan sl0 = fill := by
    rw [gapFill, ← hfill]
    exact if_congr hchanges rfl rfl
  have hqueue : pushedQueue s.params.bufCapFrames (threshold s.params s.regs x.fmt) plan.frames fill x =
      (content.drop (content.length - s.params.bufCapFrames), content.length - s.params.bufCapFrames) := by
    rw [pushedQueue_eq hcap _ _ _ hroom, hfmt, ← List.replicate_add]
    refine Prod.ext (congrArg (newest s.params.bufCapFrames) hcontent) ?_
    rw [← hcontent]
    simp only [List.length_append, List.length_replicate]
    rfl
  obtain ⟨hparams, hreq, hslots, hev, hregs, hresult⟩ := rxCommit_eq (plan := plan) hold src h.name h.frameCounter
  rw [hsl0, hneg, hgapFill] at hslots hev hregs hresult
  rw [pushBlock_slot] at hslots hresult
  rw [pushBlock_events] at hev
  rw [pushBlock_dropped] at hregs hresult
  rw [hqueue] at hslots hev hregs hresult
  have hthr : threshold s.params s.regs x.fmt = threshold s.params s.regs d := by rw [hfmt]
  simp only [hthr, ← and_assoc, ← hplays] at hslots hev hresult
  have hnotified : (if plays then true else x.startedNotified) = (x.startedNotified || decide plays) := by
    by_cases hp : plays <;> simp [hp]
  refine ⟨_, hexec, hparams, hreq, ?slots, hev, fun r => ?regs, ?result⟩
  case slots =>
    rw [hslots, hnotified]
    rfl
  case regs =>
    rw [hregs, get_acceptedCounters]
    exact congrArg (fun n => s.regs.get r + BitVec.ofNat 32 n) (congrFun (acceptedCounts_congr decide_eq_true_iff _ _ _) r)
  case result =>
    have hentered : (x.state ≠ .playing ∧ (if plays then PlaybackState.playing else x.state) = .playing) ↔ plays := by
      by_cases hp : plays
      · simp [hp, (hplays.1 hp).1]
      · simp [hp]
    have hflags := (rxFlags_eq plan.isNew (formatChanges plan sl0) (decide (0 < gap)) plan.mism
      (decide (0 < content.length - s.params.bufCapFrames)) _).trans
      (flagsOf_congr (a' := isNew = true) Iff.rfl hchanges decide_eq_true_iff
        (decide_eq_true_iff (p := (h.nbsMinus1.toNat + 1) * bpf d ≠ pl.length)) decide_eq_true_iff
        (decide_eq_true_iff.trans hentered))
    rw [hresult, ← hflags]
    rfl

/-- Entering a format restarts the session from Buffering with an empty queue; STOPPED, if any, comes before RECONFIGURE
(R207). -/
theorem enterFormat_eq (resume prepend : Bool) (k : Nat) (d : FormatDescriptor) (sl : Slot) :
    enterFormat resume prepend k d sl =
      ({ sl with state := .buffering, prependPending := prepend, fifo := [], fmt := d, fmtValid := true },
        (if sl.state = .playing then [.stopped k] else []) ++ [.reconfigure k d]) := by
  refine Prod.ext ?_ ?_
  · simp [enterFormat, setState]
  · simp [enterFormat, setState_events]

/-- An accepted packet whose format the session does not have: the queue holds the prepended silence and the packet's frames,
and no gap is filled (R207, R240, R241). -/
theorem exec_of_entering (hinv : Inv s) (hdel : DeliversPcm s.params i src h pl) (hadm : Admissible s h pl d)
    (hadmit : admitStream s.regs s.slots src h = .ok (k, isNew, gap)) {old sl0 : Slot} {content : List Frame}
    (hold : s.slots[k]? = some old)
    (hsl0 : admittedSlot (acceptedPlan h pl d k isNew gap) src h.name old = sl0)
    (henter : sl0.fmtValid = false ∧ gap = 0 ∨ sl0.fmtValid = true ∧ sl0.fmt ≠ d)
    (hcontent : List.replicate (if (s.regs.get .ctrl).getLsbD 1 then threshold s.params s.regs d else 0) (zeros (bpf d)) ++
      frameList pl (bpf d) (h.nbsMinus1.toNat + 1) = content)
    {plays : Prop} [Decidable plays] (hplays : plays ↔
      threshold s.params s.regs d ≤ (content.drop (content.length - s.params.bufCapFrames)).length) :
    ∃ t, exec i s = .next t ∧ t.params = s.params ∧ t.requests = s.requests ∧
      t.slots = s.slots.set k { sl0 with
        state := if plays then .playing else .buffering, fmtValid := true, fmt := d
        fifo := content.drop (content.length - s.params.bufCapFrames), prependPending := false
        startedNotified := sl0.startedNotified || decide plays, seqValid := true, lastSeq := h.frameCounter, idleTicks := 0 } ∧
      t.events = s.events ++ (((if sl0.state = .playing then [.stopped k] else []) ++ [.reconfigure k d]) ++
        if plays ∧ (sl0.startedNotified = false ∨ s.params.notifyStartOnResume = true) then [.started k] else []) ∧
      (∀ r, t.regs.get r = s.regs.get r + BitVec.ofNat 32
        (acceptedCounts ((h.nbsMinus1.toNat + 1) * bpf d ≠ pl.length) gap 0 (content.length - s.params.bufCapFrames) r)) ∧
      t.result = some ⟨.ok, .rx k (flagsOf (isNew = true) (sl0.fmtValid = true) (0 < gap)
        ((h.nbsMinus1.toNat + 1) * bpf d ≠ pl.length) (0 < content.length - s.params.bufCapFrames) plays)
        (BitVec.ofNat 32 gap) (content.length - s.params.bufCapFrames)⟩ := by
  have hneg : negotiate s.params.notifyStartOnResume (prependSilence s.regs) (acceptedPlan h pl d k isNew gap) sl0 = _ :=
    (if_pos (henter.imp And.left And.right)).trans (enterFormat_eq _ _ _ _ _)
  have hchanges : formatChanges (acceptedPlan h pl d k isNew gap) sl0 = true ↔ sl0.fmtValid = true := by
    rw [formatChanges, Bool.and_eq_true, decide_eq_true_iff]
    obtain ⟨hno, -⟩ | ⟨hyes, hne⟩ := henter
    · simp [hno]
    · exact iff_of_true ⟨hyes, hne⟩ hyes
  have hfill : (if sl0.fmtValid = true then 0 else gap * (h.nbsMinus1.toNat + 1)) = 0 := by
    obtain ⟨-, rfl⟩ | ⟨hyes, -⟩ := henter
    · rw [Nat.zero_mul, ite_self]
    · rw [if_pos hyes]
  exact exec_of_accepted hinv hdel hadm hadmit hold hsl0 hneg rfl (Nat.zero_le _) hchanges hfill hcontent
    (hplays.trans (and_iff_right rfl).symm)

/-- Settles O28: a session of another format, whose session is admitted as it is. -/
theorem formatChangeAccepted : Obligations.FormatChangeAccepted := by
  intro s i src h pl d k sl gap hinv hdel hadm hses hst hvalid hfmt hgap n thr pushed dropped queue plays
  have hadmit : admitStream s.regs s.slots src h = .ok (k, false, gap) := by
    rw [admitStream_of_session hinv hses, classifyCounter_ok_iff.2 ⟨hst, hgap⟩]
    rfl
  obtain ⟨t, hexec, hparams, hreq, hslots, hev, hregs, hresult⟩ := exec_of_entering hinv hdel hadm hadmit hses.1
    (admittedSlot_session rfl _ _ _) (.inr ⟨hvalid, hfmt⟩) (content := pushed) rfl (plays := plays) Iff.rfl
  refine ⟨t, hexec, hparams, hreq, ?_, ?_, hregs, ?_⟩
  · rw [hslots, hvalid]
  · simpa only [List.append_assoc] using hev
  · rw [hresult, flagsOf_congr (a' := False) (b' := True) (by simp) (iff_of_true hvalid trivial) Iff.rfl Iff.rfl Iff.rfl Iff.rfl]

/-- Settles O27: a session that has the packet's format is pushed to as it is. -/
theorem nextPacketAccepted : Obligations.NextPacketAccepted := by
  intro s i src h pl d k sl gap hinv hdel hadm hses hst hvalid hfmt hgap n thr pushed dropped queue starts
  have hadmit : admitStream s.regs s.slots src h = .ok (k, false, gap) := by
    rw [admitStream_of_session hinv hses, classifyCounter_ok_iff.2 ⟨hst, hgap⟩]
    rfl
  have hneg : negotiate s.params.notifyStartOnResume (prependSilence s.regs) (acceptedPlan h pl d k false gap) sl = (sl, []) :=
    if_neg (not_or.2 ⟨by simp [hvalid], not_not.2 hfmt⟩)
  have hchanges : formatChanges (acceptedPlan h pl d k false gap) sl = true ↔ False := by
    have hsame : sl.fmt = (acceptedPlan h pl d k false gap).fmt := hfmt
    simp [formatChanges, hsame]
  have hdropped : (sl.fifo ++ pushed).length - s.params.bufCapFrames = dropped := by rw [List.length_append]
  obtain ⟨hroom, -⟩ := slotInv_of_getElem? hinv hses.1
  obtain ⟨t, hexec, hparams, hreq, hslots, hev, hregs, hresult⟩ := exec_of_accepted hinv hdel hadm hadmit hses.1
    (admittedSlot_session rfl _ _ _) hneg hfmt hroom hchanges (if_neg not_false) (content := sl.fifo ++ pushed) rfl
    (plays := starts) (by rw [hdropped])
  rw [hdropped] at hslots hregs hresult
  refine ⟨t, hexec, hparams, hreq, hslots, hev, hregs, ?_⟩
  rw [hresult, flagsOf_congr (a' := False) (by simp) Iff.rfl Iff.rfl Iff.rfl Iff.rfl Iff.rfl]

/-- The session that a first packet finds: none, for which the lowest free slot is taken, or one that was reset (R237,
R239). -/
theorem admitted_first (hinv : Inv s) {old : Slot}
    (hnew : isNew = true → NoSessionOf s src h.name ∧ LowestFree s k ∧ old = .cleared)
    (hses : isNew = false → SessionAt s k src h.name old ∧ old.fmtValid = false) :
    s.slots[k]? = some old ∧ admitStream s.regs s.slots src h = .ok (k, isNew, 0) ∧ old.fmtValid = false ∧
      old.state = .idle ∧
      admittedSlot (acceptedPlan h pl d k isNew 0) src h.name old = { old with valid := true, src := src, name := h.name } := by
  cases isNew with
  | true =>
    obtain ⟨hno, hfree, rfl⟩ := hnew rfl
    obtain ⟨⟨sl, hsl, hv⟩, -⟩ := id hfree
    obtain rfl := eq_cleared_of_free (slotInv_of_getElem? hinv hsl) hv
    exact ⟨hsl, admitStream_of_new hno hfree, rfl, rfl, admittedSlot_new rfl _ _ _⟩
  | false =>
    obtain ⟨hses, hfmt⟩ := hses rfl
    obtain ⟨hsl, hv, hsrc, hname⟩ := id hses
    obtain ⟨-, hidle, hempty, -⟩ := slotInv_of_getElem? hinv hsl
    have hst : old.state = .idle := (hidle hv).2 hfmt
    obtain ⟨-, hseq⟩ := hempty hv hfmt
    refine ⟨hsl, ?_, hfmt, hst, ?_⟩
    · rw [admitStream_of_session hinv hses, classifyCounter_ok_iff.2 ⟨by rw [hst]; decide, .inl ⟨hseq, rfl⟩⟩]
      rfl
    · rw [admittedSlot_session rfl, ← hv, ← hsrc, ← hname]

/-- Settles O26: the first packet of a session enters its format, from Idle. -/
theorem firstPacketAccepted : Obligations.FirstPacketAccepted := by
  intro s i src h pl d k isNew old hinv hdel hadm hnew hses n thr pushed dropped queue plays
  obtain ⟨hold, hadmit, hfmt, hst, hsl0⟩ := admitted_first (pl := pl) (d := d) hinv hnew hses
  obtain ⟨t, hexec, hparams, hreq, hslots, hev, hregs, hresult⟩ := exec_of_entering hinv hdel hadm hadmit hold hsl0
    (.inl ⟨hfmt, rfl⟩) (content := pushed) rfl (plays := plays) Iff.rfl
  refine ⟨t, hexec, hparams, hreq, hslots, ?_, hregs, ?_⟩
  · have hquiet : ¬old.state = .playing := by rw [hst]; decide
    simp only [if_neg hquiet, List.nil_append] at hev
    rw [hev, List.append_assoc]
  · rw [hresult, flagsOf_congr (b' := False) (c' := False) Iff.rfl (by simp [hfmt]) (by simp) Iff.rfl Iff.rfl Iff.rfl]
    rfl

end Accepted

/-! ## Sessions do not disturb each other (R246) -/

/-- The slot that a PCM packet writes is free, or the session of its StreamKey; it writes no other. -/
theorem receivePcm_slots (src : SrcAddr) (h : Header) (pl : Bytes) (s : State) :
    (receivePcm src h pl s).slots = s.slots ∨ ∃ k sl sl', s.slots[k]? = some sl ∧
      (sl.valid = true → sl.src = src ∧ sl.name = h.name) ∧ (receivePcm src h pl s).slots = s.slots.set k sl' := by
  obtain ⟨e, hc, heq⟩ | ⟨plan, hc, heq⟩ := receivePcm_cases src h pl s
  · rw [heq]
    by_cases hreg : ∃ k, e = .seqRegression k
    · obtain ⟨k, rfl⟩ := hreg
      obtain ⟨sl, hsl, -, hsrc, hname, -⟩ := rxCheck_regression hc
      exact .inr ⟨k, sl, _, hsl, fun _ => ⟨hsrc, hname⟩, rfl⟩
    · rw [rxRefuse_other fun k hk => hreg ⟨k, hk⟩]
      exact .inl rfl
  · rw [heq]
    obtain ⟨-, -, -, hadm⟩ := rxCheck_ok hc
    obtain ⟨-, hfind, -⟩ | ⟨-, -, -, hfree⟩ := admit_ok hadm
    · obtain ⟨⟨sl, hsl, -, hkey⟩, -⟩ := findSession_eq_some_iff.1 hfind
      obtain ⟨-, -, hslots, -⟩ := rxCommit_eq hsl src h.name h.frameCounter
      exact .inr ⟨_, sl, _, hsl, fun _ => hkey, hslots⟩
    · obtain ⟨⟨sl, hsl, hv⟩, -⟩ := findFree_eq_some_iff.1 hfree
      obtain ⟨-, -, hslots, -⟩ := rxCommit_eq hsl src h.name h.frameCounter
      exact .inr ⟨_, sl, _, hsl, fun hv' => absurd (hv.symm.trans hv') (by decide), hslots⟩

/-- Settles O29: a valid slot of another StreamKey is not the one that the packet writes. -/
theorem sessionsIndependent : Obligations.SessionsIndependent := by
  intro s t i src h pl k sl hdel he hsl hv hkey
  rw [exec_of_deliversPcm hdel] at he
  cases he
  obtain hslots | ⟨j, sl', new, hsl', hown, hslots⟩ := receivePcm_slots src h pl s
  · rw [hslots, hsl]
  · have hjk : j ≠ k := by
      rintro rfl
      rw [hsl'] at hsl
      cases hsl
      exact hkey (hown hv)
    rw [hslots, List.getElem?_set_ne hjk, hsl]

end Sys2Proof.Machine
end

section
/-! PROOFS. What each operation counts: the ends of an operation, with the result that it answers and what it adds to the
statistics (spec 10_state.md R34, 60_exceptions.md R323, 45_transmit.md R274). -/

namespace Sys2Proof.Machine

/-! ## What a result counts -/

/-- What an operation adds to each counter but the silence of the gaps, by its result (R34); `rx` and `tx` say whether it
receives or transmits. -/
def countedBy (rx tx : Bool) (c : ResultCode) (d : ResultData) : Reg → Nat
  | .statRxAccepted => one (rx = true ∧ c = .ok)
  | .statRxMalformed => one (rx = true ∧ (c = .malformedTruncated ∨ c = .malformedOversized ∨ c = .malformedBadMagic ∨
      c = .malformedPayloadNotMultiple ∨ c = .malformedPayloadShort))
  | .statRxUnsupported => one (rx = true ∧ (c = .unsupportedRate ∨ c = .unsupportedDepth ∨ c = .unsupportedRxCapability))
  | .statRxRejected => one
      (c = .rejectedNameMismatch ∨ c = .rejectedSeqRegression ∨ c = .rejectedNoSlot ∨ c = .rejectedDraining)
  | .statRxForwarded => one (c = .forwardedCompressed ∨ c = .forwardedService)
  | .statRxLateDropped => one (c = .droppedLate)
  | .statSeqResets => one (c = .rejectedSeqRegression)
  | .statUnderruns => one (c = .popUnderrun)
  | .statTxPackets => one (tx = true ∧ c = .ok)
  | .statTxErrors => one (tx = true ∧ c ≠ .ok)
  | .statOverflowDropped => droppedOf d
  | .statFrameLossEvents => one (0 < gapIn d)
  | .statCountMismatch => one ((flagsIn d).getLsbD 3 = true)
  | _ => 0

/-- The result carries none of the data of an accepted packet (R41). -/
def NoRxData (d : ResultData) : Prop := flagsIn d = 0 ∧ gapIn d = 0 ∧ droppedOf d = 0

theorem countedBy_of_noRxData {d : ResultData} (hd : NoRxData d) (rx tx : Bool) (c : ResultCode) (r : Reg) :
    countedBy rx tx c d r = countedBy rx tx c .none r := by
  obtain ⟨hflags, hgap, hdropped⟩ := hd
  cases r with
  | statOverflowDropped => exact hdropped
  | statFrameLossEvents => simp only [countedBy, hgap]; rfl
  | statCountMismatch => simp only [countedBy, hflags]; rfl
  | _ => rfl

/-- An error that counts once, in `k`, and nothing else; a regression, which resets a session too, is apart. -/
def CountsOnce (rx tx : Bool) (c : ResultCode) (d : ResultData) (k : Reg) : Prop :=
  c.isSuccess = false ∧ c ≠ .rejectedSeqRegression ∧ NoRxData d ∧ ∀ r, countedBy rx tx c .none r = one (r = k)

theorem countsOnce_malformed {e : DecodeError} (he : e = .truncated ∨ e = .oversized ∨ e = .badMagic) :
    CountsOnce true false (decodeErrorCode e) .none .statRxMalformed := by
  obtain rfl | rfl | rfl := he <;> exact ⟨rfl, nofun, ⟨rfl, rfl, rfl⟩, fun r => by cases r <;> rfl⟩

theorem countsOnce_refusal {e : RxRefusal} (he : ∀ k, e ≠ .seqRegression k) :
    CountsOnce true false e.result.1 e.result.2 e.counter := by
  cases e with
  | seqRegression k => exact absurd rfl (he k)
  | unsupported e fc => cases e <;> exact ⟨rfl, nofun, ⟨rfl, rfl, rfl⟩, fun r => by cases r <;> rfl⟩
  | payloadNotMultiple | payloadShort | nameMismatch | rxCapability | noSlot | draining | late =>
    exact ⟨rfl, nofun, ⟨rfl, rfl, rfl⟩, fun r => by cases r <;> rfl⟩

theorem countsOnce_txError {c : ResultCode} {d : ResultData}
    (hc : c ∈ [ResultCode.txBadCount, .unsupportedRate, .unsupportedDepth, .txPayloadMismatch, .encodeTooLarge])
    (hd : d = .none ∨ ∃ fc, d = .formatCode fc) : CountsOnce false true c d .statTxErrors := by
  have hdata : NoRxData d := by obtain rfl | ⟨fc, rfl⟩ := hd <;> exact ⟨rfl, rfl, rfl⟩
  simp only [List.mem_cons, List.not_mem_nil, or_false] at hc
  obtain rfl | rfl | rfl | rfl | rfl := hc <;> exact ⟨rfl, nofun, hdata, fun r => by cases r <;> rfl⟩

/-! ## The ends of a receive operation -/

section Receive
variable {i : Instr} {s t : State}

/-- The counters of the receive errors (R34). -/
def rxErrorCounters : List Reg := [.statRxMalformed, .statRxUnsupported, .statRxRejected, .statRxLateDropped]

theorem counter_mem_rxErrorCounters (e : RxRefusal) : e.counter ∈ rxErrorCounters := by
  cases e <;> simp [RxRefusal.counter, rxErrorCounters]

/-- A receive operation ends in an error that counts once, a forward, a regression, or a commit. -/
theorem receive_ends (hi : isReceive i = true) (he : exec i s = .next t) :
    (∃ c d, ∃ k ∈ rxErrorCounters, CountsOnce true false c d k ∧ t = finish c d (count k 1 s)) ∨
    (∃ kind src dg, t = forward kind src dg s) ∨
    (∃ k sl, s.slots[k]? = some sl ∧ t = rxRefuse (.seqRegression k) s) ∨
    ∃ src h pl plan, rxCheck s src h pl = .ok plan ∧ t = rxCommit plan src h.name h.frameCounter s := by
  obtain ⟨e, hmal, rfl⟩ | hforward | ⟨src, h, pl, rfl⟩ := receive_cases hi he
  · refine .inl ⟨_, .none, _, by decide, countsOnce_malformed hmal, ?_⟩
    obtain rfl | rfl | rfl := hmal <;> rfl
  · exact .inr (.inl hforward)
  · obtain ⟨e, hc, heq⟩ | ⟨plan, hc, heq⟩ := receivePcm_cases src h pl s
    · by_cases hreg : ∃ k, e = .seqRegression k
      · obtain ⟨k, rfl⟩ := hreg
        obtain ⟨sl, hsl, -⟩ := rxCheck_regression hc
        exact .inr (.inr (.inl ⟨k, sl, hsl, heq⟩))
      · have hne : ∀ k, e ≠ .seqRegression k := fun k hk => hreg ⟨k, hk⟩
        exact .inl ⟨_, _, _, counter_mem_rxErrorCounters e, countsOnce_refusal hne, heq.trans (rxRefuse_other hne s)⟩
    · exact .inr (.inr (.inr ⟨src, h, pl, plan, hc, heq⟩))

/-- What a commit leaves of the registers, and what it answers (R34, R41). -/
theorem rxCommit_counts {src : SrcAddr} {h : Header} {pl : Bytes} {plan : RxPlan} (hc : rxCheck s src h pl = .ok plan) :
    ∃ changes entered dropped, (rxCommit plan src h.name h.frameCounter s).result = some ⟨.ok, .rx plan.slot
        (rxFlags plan.isNew changes (decide (0 < plan.gap)) plan.mism (decide (0 < dropped)) entered)
        (BitVec.ofNat 32 plan.gap) dropped⟩ ∧
      ∀ r, (rxCommit plan src h.name h.frameCounter s).regs.get r = s.regs.get r + BitVec.ofNat 32
        (acceptedCounts (plan.mism = true) plan.gap (if changes then 0 else plan.gap * plan.nHdr) dropped r) := by
  obtain ⟨-, -, -, hadm⟩ := rxCheck_ok hc
  have hslot : ∃ sl, s.slots[plan.slot]? = some sl := by
    obtain ⟨-, -, sl, hsl, -⟩ | ⟨-, -, -, hfree⟩ := admit_ok hadm
    · exact ⟨sl, hsl⟩
    · obtain ⟨⟨sl, hsl, -⟩, -⟩ := findFree_eq_some_iff.1 hfree
      exact ⟨sl, hsl⟩
  obtain ⟨sl, hsl⟩ := hslot
  obtain ⟨-, -, -, -, hregs, hresult⟩ := rxCommit_eq hsl src h.name h.frameCounter
  refine ⟨_, _, _, hresult, fun r => ?_⟩
  rw [hregs, get_acceptedCounters]
  rfl

/-- The gap of an accepted packet fits the word that carries it (R239, R241). -/
theorem gap_lt {src : SrcAddr} {h : Header} {pl : Bytes} {plan : RxPlan} (hc : rxCheck s src h pl = .ok plan) :
    plan.gap < 2 ^ 31 := by
  obtain ⟨-, -, -, hadm⟩ := rxCheck_ok hc
  obtain ⟨-, -, sl, -, hclass⟩ | ⟨-, hgap, -⟩ := admit_ok hadm
  · obtain ⟨-, ⟨-, hgap⟩ | ⟨-, hgap⟩⟩ := classifyCounter_ok_iff.1 hclass
    · omega
    · have hlt := BitVec.toInt_lt (x := h.frameCounter - sl.lastSeq)
      generalize (h.frameCounter - sl.lastSeq).toInt = x at hgap hlt
      omega
  · omega

end Receive

/-! ## The ends of an operation that counts nothing -/

/-- A result that no line of R34 counts, whichever operation but a receive or a transmit answers it. -/
def QuietResult (c : ResultCode) (d : ResultData) : Prop :=
  c ∉ [ResultCode.rejectedNameMismatch, .rejectedSeqRegression, .rejectedNoSlot, .rejectedDraining, .forwardedCompressed,
    .forwardedService, .droppedLate, .popUnderrun] ∧ NoRxData d

/-- An operation ends with such a result and leaves the statistics alone; an error changes nothing else either (R323). -/
def QuietEnd (s t : State) : Prop :=
  ∃ c d, t.result = some ⟨c, d⟩ ∧ QuietResult c d ∧ (∀ r : Reg, r.readOnly = true → t.regs.get r = s.regs.get r) ∧
    (c.isSuccess = false → t = finish c d s)

section Quiet
variable {s : State}

theorem quietEnd_finish {c : ResultCode} {d : ResultData} (hq : QuietResult c d) : QuietEnd s (finish c d s) :=
  ⟨c, d, rfl, hq, fun _ _ => rfl, fun _ => rfl⟩

theorem quietEnd_success {u : State} {c : ResultCode} {d : ResultData} (hq : QuietResult c d) (hc : c.isSuccess = true)
    (hregs : u.regs = s.regs) : QuietEnd s (finish c d u) :=
  ⟨c, d, rfl, hq, fun r _ => congrArg (Regs.get · r) hregs, fun h => absurd (hc.symm.trans h) (by decide)⟩

theorem quietEnd_raiseNoSession (k : BitVec 8) : QuietEnd s (raiseNoSession k s) :=
  quietEnd_finish ⟨by decide, rfl, rfl, rfl⟩

theorem quietEnd_withLookup {fc : BitVec 16} {k : FormatDescriptor → State} (hk : ∀ d, QuietEnd s (k d)) :
    QuietEnd s (withLookup fc s k) := by
  unfold withLookup
  split
  · rename_i e _
    refine quietEnd_finish ⟨?_, rfl, rfl, rfl⟩
    cases e <;> decide
  · exact hk _

theorem quietEnd_cfgWrite {t : State} {idx : BitVec 8} {v : Word32} (he : exec (.cfgWrite idx v) s = .next t) :
    QuietEnd s t := by
  obtain hidx | hidx := Nat.lt_or_ge 0x1D idx.toNat
  · rw [exec_cfgWrite_of_unmapped hidx] at he
    cases he
    exact quietEnd_finish ⟨by decide, rfl, rfl, rfl⟩
  obtain ⟨k, rfl⟩ := exists_indexOfReg_eq hidx
  cases hk : k.readOnly with
  | true =>
    rw [exec_cfgWrite_of_readOnly hk] at he
    cases he
    exact quietEnd_finish ⟨by decide, rfl, rfl, rfl⟩
  | false =>
    obtain ⟨u, hexec, hresult, -, -, hregs, -⟩ := exec_cfgWrite_effect hk v s
    rw [hexec] at he
    cases he
    refine ⟨_, _, hresult, ⟨by decide, rfl, rfl, rfl⟩, fun r hr => ?_, nofun⟩
    rw [hregs]
    refine get_set_other _ _ ?_
    rintro rfl
    exact absurd (hr.symm.trans hk) (by decide)

/-- An underrun is the one end of POP that counts (R203). -/
theorem pop_ends {t : State} {k : BitVec 8} {n : BitVec 16} (he : exec (.pop k n) s = .next t) :
    QuietEnd s t ∨ (∃ fs, t.result = some ⟨.popUnderrun, .frames fs⟩) ∧ t.regs = s.regs.bump .statUnderruns 1 := by
  cases hses : s.session? k.toNat with
  | none =>
    rw [exec_pop_of_none hses] at he
    cases he
    exact .inl (quietEnd_raiseNoSession k)
  | some sl =>
    cases hst : sl.state with
    | idle =>
      rw [exec_pop_of_notPlaying hses (.inl hst)] at he
      cases he
      exact .inl (quietEnd_finish ⟨by decide, rfl, rfl, rfl⟩)
    | buffering =>
      rw [exec_pop_of_notPlaying hses (.inr hst)] at he
      cases he
      exact .inl (quietEnd_finish ⟨by decide, rfl, rfl, rfl⟩)
    | playing =>
      rw [exec_pop_of_playing hses hst] at he
      obtain hle | hlt := le_or_gt n.toNat sl.fifo.length
      · rw [popPlaying_of_le s hle] at he
        cases he
        exact .inl (quietEnd_success ⟨by decide, rfl, rfl, rfl⟩ rfl rfl)
      · rw [popPlaying_of_lt s hst hlt] at he
        cases he
        exact .inr ⟨⟨_, rfl⟩, rfl⟩
    | draining =>
      rw [exec_pop_of_draining hses hst] at he
      obtain hle | hlt := le_or_gt sl.fifo.length n.toNat
      · rw [popDraining_of_le s hst hle] at he
        cases he
        exact .inl (quietEnd_success ⟨by decide, rfl, rfl, rfl⟩ rfl rfl)
      · rw [popDraining_of_lt s hlt] at he
        cases he
        exact .inl (quietEnd_success ⟨by decide, rfl, rfl, rfl⟩ rfl rfl)

/-- An operation that neither receives nor transmits nor resets counts nothing but an underrun. -/
theorem other_ends {i : Instr} {t : State} (hrx : isReceive i = false) (htx : isTransmit i = false) (hne : i ≠ .reset)
    (he : exec i s = .next t) :
    QuietEnd s t ∨ (∃ fs, t.result = some ⟨.popUnderrun, .frames fs⟩) ∧ t.regs = s.regs.bump .statUnderruns 1 := by
  cases i with
  | rxPacket | wirePcm | wireCompressed8 | wireCompressed4 | wireCompressed2 | wireCompressed1 | wireService4
  | wireService2 | wireService1 => cases hrx
  | txPacket => cases htx
  | reset => exact absurd rfl hne
  | pop k n => exact pop_ends he
  | cfgWrite idx v => exact .inl (quietEnd_cfgWrite he)
  | tick =>
    cases he
    exact .inl (quietEnd_success ⟨by decide, rfl, rfl, rfl⟩ rfl rfl)
  | stop k =>
    cases hses : s.session? k.toNat with
    | none =>
      rw [exec_stop_of_none hses] at he
      cases he
      exact .inl (quietEnd_raiseNoSession k)
    | some sl =>
      rw [exec_stop_of_session hses] at he
      cases he
      exact .inl (quietEnd_success ⟨by decide, rfl, rfl, rfl⟩ rfl rfl)
  | deviceFault k =>
    cases hses : s.session? k.toNat with
    | none =>
      rw [exec_deviceFault_of_none hses] at he
      cases he
      exact .inl (quietEnd_raiseNoSession k)
    | some sl =>
      rw [exec_deviceFault_of_session hses] at he
      cases he
      exact .inl (quietEnd_success ⟨by decide, rfl, rfl, rfl⟩ rfl rfl)
  | lookup | bytesPerFrame | framesFit =>
    cases he
    exact .inl (quietEnd_withLookup fun _ => quietEnd_finish ⟨by decide, rfl, rfl, rfl⟩)
  | framesInPayload fc len =>
    cases he
    refine .inl (quietEnd_withLookup fun d => ?_)
    split <;> exact quietEnd_finish ⟨by decide, rfl, rfl, rfl⟩
  | encode h pl =>
    cases he
    left
    split
    · rename_i e _
      refine quietEnd_finish ⟨?_, rfl, rfl, rfl⟩
      cases e <;> decide
    · exact quietEnd_finish ⟨by decide, rfl, rfl, rfl⟩
  | decode dg =>
    cases he
    left
    split
    · rename_i e _
      refine quietEnd_finish ⟨?_, rfl, rfl, rfl⟩
      cases e <;> simp [decodeErrorCode]
    · exact quietEnd_finish ⟨by decide, rfl, rfl, rfl⟩
  | cfgRead | sessionRead =>
    cases he
    left
    split <;> exact quietEnd_finish ⟨by decide, rfl, rfl, rfl⟩

end Quiet

/-! ## Independence of the transmit path (R274) -/

section Transmit

/-- TX_PACKET reads the parameters and its six registers only. -/
theorem txFrame_congr {r r' : Regs}
    (h : ∀ x ∈ [Reg.txFormat, .txSeq, .txName0, .txName1, .txName2, .txName3], r.get x = r'.get x)
    (p : Params) (k : BitVec 16) (pl : Bytes) : txFrame p r k pl = txFrame p r' k pl := by
  simp only [List.forall_mem_cons, List.not_mem_nil, false_imp_iff, implies_true, and_true] at h
  obtain ⟨hformat, hseq, hname0, hname1, hname2, hname3⟩ := h
  simp only [txFrame, txHeader, txFormatCode, txName, hformat, hseq, hname0, hname1, hname2, hname3]

/-- No receive operation writes a register of the transmit path. -/
theorem receive_leaves_transmit {i : Instr} {s t : State} (hi : isReceive i = true) (he : exec i s = .next t) {r : Reg}
    (hr : r ∈ [Reg.txSeq, .statTxPackets, .statTxErrors]) : t.regs.get r = s.regs.get r := by
  have apart : ∀ k ∈ rxErrorCounters, r ≠ k := by
    revert hr
    cases r <;> decide
  obtain ⟨c, d, k, hk, -, rfl⟩ | ⟨kind, src, dg, rfl⟩ | ⟨k, sl, hsl, rfl⟩ | ⟨src, h, pl, plan, hc, rfl⟩ := receive_ends hi he
  · exact get_bump_other _ _ (apart k hk)
  · refine get_bump_other _ _ ?_
    rintro rfl
    exact absurd hr (by decide)
  · obtain ⟨-, -, -, -, hregs, -⟩ := rxRefuse_seqRegression hsl
    rw [hregs, one, if_neg, BitVec.add_zero]
    rintro (rfl | rfl) <;> exact absurd hr (by decide)
  · obtain ⟨_, _, _, -, hregs⟩ := rxCommit_counts hc
    rw [hregs]
    simp only [List.mem_cons, List.not_mem_nil, or_false] at hr
    obtain rfl | rfl | rfl := hr <;> exact BitVec.add_zero _

/-- Settles O36: both runs compute the same `txFrame`, and write by the same case of it. -/
theorem transmitIndependent : Obligations.TransmitIndependent := by
  refine ⟨fun s t s' t' k pl hparams hregs hs ht => ?_, fun s t i hi he r hr => receive_leaves_transmit hi he hr⟩
  have hframe : txFrame t.params t.regs k pl = txFrame s.params s.regs k pl := by
    rw [hparams, txFrame_congr hregs]
  have hseq : s.regs.get .txSeq = t.regs.get .txSeq := hregs _ (by decide)
  obtain ⟨-, -, -, dg, -, hok⟩ | ⟨c, d, -, -, herr⟩ := txFrame_cases s.params s.regs k pl
  · rw [exec_txPacket_of_ok hok] at hs
    rw [exec_txPacket_of_ok (hframe.trans hok)] at ht
    cases hs
    cases ht
    refine ⟨rfl, ?_, rfl, rfl, fun r hr => ?_⟩
    · simp only [get_set_other _ _ (show Reg.txSeq ≠ .statTxPackets by decide), get_set_same, hseq]
    · simp only [List.mem_cons, List.not_mem_nil, or_false, not_or] at hr
      obtain ⟨hne_seq, hne_packets, -⟩ := hr
      exact (get_set_other _ _ hne_packets).trans (get_set_other _ _ hne_seq)
  · rw [exec_txPacket_of_error herr] at hs
    rw [exec_txPacket_of_error (hframe.trans herr)] at ht
    cases hs
    cases ht
    refine ⟨rfl, ?_, rfl, rfl, fun r hr => get_set_other _ _ ?_⟩
    · simp only [get_set_other _ _ (show Reg.txSeq ≠ .statTxErrors by decide), hseq]
    · rintro rfl
      exact absurd hr (by decide)

/-- TX_PACKET ends in its datagram, or in an error that counts once. -/
theorem transmit_ends {i : Instr} {s t : State} (hi : isTransmit i = true) (he : exec i s = .next t) :
    (∃ dg, t = { s with
      regs := (s.regs.set .txSeq (s.regs.get .txSeq + 1)).bump .statTxPackets 1, result := some ⟨.ok, .bytes dg⟩ }) ∨
    ∃ c d, CountsOnce false true c d .statTxErrors ∧ t = finish c d (count .statTxErrors 1 s) := by
  cases i with
  | txPacket k pl =>
    obtain ⟨-, -, -, dg, -, hok⟩ | ⟨c, d, hc, hd, herr⟩ := txFrame_cases s.params s.regs k pl
    · refine .inl ⟨dg, ?_⟩
      simp only [exec, execTxPacket, hok] at he
      cases he
      rfl
    · refine .inr ⟨c, d, countsOnce_txError hc hd, ?_⟩
      rw [exec_txPacket_of_error herr] at he
      cases he
      rfl
  | _ => cases hi

end Transmit

/-! ## Errors change nothing (R323) -/

section Errors
variable {s t : State}

/-- The frame of an error that counts once. -/
theorem frame_of_countsOnce {c : ResultCode} {d : ResultData} {k : Reg} (hk : k.readOnly = true) :
    let t := finish c d (count k 1 s)
    t.slots = s.slots ∧ t.events = s.events ∧ (∀ j, j ≠ k → t.regs.get j = s.regs.get j) ∧
      t.regs.get k = s.regs.get k + 1 :=
  ⟨rfl, rfl, fun _ hj => get_bump_other _ _ hj, get_bump_counter _ _ hk⟩

theorem readOnly_of_mem_rxErrorCounters : ∀ k ∈ rxErrorCounters, k.readOnly = true := by decide

/-- Settles O30: an error end of a receive or a transmit counts once; any other is a result and nothing more. -/
theorem errorsChangeNothing : Obligations.ErrorsChangeNothing := by
  rintro s t i ⟨code, data⟩ he hres herror hreg
  have of_success {c : ResultCode} {d : ResultData} (h : t.result = some ⟨c, d⟩) (hc : c.isSuccess = true) : False := by
    rw [h] at hres
    cases hres
    exact absurd (hc.symm.trans herror) (by decide)
  cases hrx : isReceive i with
  | true =>
    obtain ⟨c, d, k, hk, -, rfl⟩ | ⟨kind, src, dg, rfl⟩ | ⟨k, sl, hsl, rfl⟩ | ⟨src, h, pl, plan, hc, rfl⟩ :=
      receive_ends hrx he
    · have hro := readOnly_of_mem_rxErrorCounters k hk
      obtain ⟨hslots, hevents, hother, hcount⟩ := frame_of_countsOnce (s := s) (c := c) (d := d) hro
      exact ⟨hslots, hevents, k, hro, hother, .inl ⟨.inl rfl, hcount⟩⟩
    · cases kind <;> exact (of_success rfl rfl).elim
    · obtain ⟨-, -, -, -, -, hresult⟩ := rxRefuse_seqRegression hsl
      rw [hresult] at hres
      cases hres
      exact absurd rfl hreg
    · obtain ⟨_, _, _, hresult, -⟩ := rxCommit_counts hc
      exact (of_success hresult rfl).elim
  | false =>
    cases htx : isTransmit i with
    | true =>
      obtain ⟨dg, rfl⟩ | ⟨c, d, -, rfl⟩ := transmit_ends htx he
      · exact (of_success rfl rfl).elim
      · obtain ⟨hslots, hevents, hother, hcount⟩ := frame_of_countsOnce (s := s) (c := c) (d := d) (k := .statTxErrors) rfl
        exact ⟨hslots, hevents, _, rfl, hother, .inl ⟨.inr rfl, hcount⟩⟩
    | false =>
      by_cases hreset : i = .reset
      · subst hreset
        cases he
        exact (of_success rfl rfl).elim
      obtain ⟨c, d, hresult, -, -, hkeep⟩ | ⟨⟨fs, hresult⟩, -⟩ := other_ends hrx htx hreset he
      · rw [hresult] at hres
        cases hres
        rw [hkeep herror]
        exact ⟨rfl, rfl, .statRxMalformed, rfl, fun _ _ => rfl, .inr ⟨rfl, rfl, rfl⟩⟩
      · exact (of_success hresult rfl).elim

end Errors

/-! ## The fourteen counters (R34) -/

section Statistics
variable {i : Instr} {s t : State}

/-- The statistics after an operation with result `c`, `d`: each counter but the silence of the gaps by its line, and that one
unchanged where the result has no gap or a format change. -/
def Counted (rx tx : Bool) (s t : State) (c : ResultCode) (d : ResultData) : Prop :=
  (∀ r : Reg, r.readOnly = true → r ≠ .statGapSilenceFrames →
    t.regs.get r = s.regs.get r + BitVec.ofNat 32 (countedBy rx tx c d r)) ∧
  (gapIn d = 0 ∨ (flagsIn d).getLsbD 1 = true → t.regs.get .statGapSilenceFrames = s.regs.get .statGapSilenceFrames)

/-- An end that counts one line, in `k`. -/
theorem counted_of_bump {rx tx : Bool} {c : ResultCode} {d : ResultData} {k : Reg} (hd : NoRxData d)
    (hk : k.readOnly = true) (hgap : k ≠ .statGapSilenceFrames) (hcount : ∀ r, countedBy rx tx c .none r = one (r = k))
    (hregs : t.regs = s.regs.bump k 1) : Counted rx tx s t c d := by
  refine ⟨fun r _ _ => ?_, fun _ => ?_⟩
  · rw [countedBy_of_noRxData hd, hcount, hregs, get_bump_ite _ hk, one]
  · rw [hregs]
    exact get_bump_other _ _ hgap.symm

theorem counted_of_quietResult {c : ResultCode} {d : ResultData} (hq : QuietResult c d)
    (hregs : ∀ r : Reg, r.readOnly = true → t.regs.get r = s.regs.get r) : Counted false false s t c d := by
  obtain ⟨hcode, hd⟩ := hq
  simp only [List.mem_cons, List.not_mem_nil, or_false, not_or] at hcode
  obtain ⟨hname, hreg, hslot, hdraining, hcompressed, hservice, hlate, hunderrun⟩ := hcode
  refine ⟨fun r hr _ => ?_, fun _ => hregs _ rfl⟩
  have hzero : countedBy false false c .none r = 0 := by
    cases r <;> simp only [countedBy, one, hname, hreg, hslot, hdraining, hcompressed, hservice, hlate, hunderrun,
      Bool.false_eq_true, false_and, or_self, if_false] <;> rfl
  rw [countedBy_of_noRxData hd, hzero, hregs r hr]
  exact (BitVec.add_zero _).symm

/-- FMT_CHANGED is bit 1 of the flags word, COUNT_MISMATCH bit 3 (R41). -/
theorem rxFlags_bit1 (a b c d e f : Bool) : (rxFlags a b c d e f).getLsbD 1 = b := by
  cases a <;> cases b <;> cases c <;> cases d <;> cases e <;> cases f <;> rfl

theorem rxFlags_bit3 (a b c d e f : Bool) : (rxFlags a b c d e f).getLsbD 3 = d := by
  cases a <;> cases b <;> cases c <;> cases d <;> cases e <;> cases f <;> rfl

theorem gapIn_rx {src : SrcAddr} {h : Header} {pl : Bytes} {plan : RxPlan} (hc : rxCheck s src h pl = .ok plan) (k : Nat)
    (flags : Word32) (dropped : Nat) : gapIn (.rx k flags (BitVec.ofNat 32 plan.gap) dropped) = plan.gap := by
  have hlt := gap_lt hc
  exact Nat.mod_eq_of_lt (by omega)

theorem counted_rxCommit {src : SrcAddr} {h : Header} {pl : Bytes} {plan : RxPlan} (hc : rxCheck s src h pl = .ok plan) :
    ∃ d, (rxCommit plan src h.name h.frameCounter s).result = some ⟨.ok, d⟩ ∧
      Counted true false s (rxCommit plan src h.name h.frameCounter s) .ok d := by
  obtain ⟨changes, entered, dropped, hresult, hregs⟩ := rxCommit_counts hc
  have hgap := gapIn_rx hc
  refine ⟨_, hresult, fun r _ hr => ?_, fun hnone => ?_⟩
  · rw [hregs]
    congr 2
    cases r with
    | statGapSilenceFrames => exact absurd rfl hr
    | statFrameLossEvents => simp only [acceptedCounts, countedBy, hgap]
    | statCountMismatch => simp only [acceptedCounts, countedBy, flagsIn, rxFlags_bit3]
    | _ => rfl
  · have hfill : (if changes then 0 else plan.gap * plan.nHdr) = 0 := by
      rw [hgap, flagsIn, rxFlags_bit1] at hnone
      obtain hzero | hchanges := hnone
      · rw [hzero, Nat.zero_mul, ite_self]
      · rw [if_pos hchanges]
    rw [hregs, acceptedCounts, hfill]
    exact BitVec.add_zero _

theorem counted_receive (hi : isReceive i = true) (he : exec i s = .next t) :
    ∃ c d, t.result = some ⟨c, d⟩ ∧ Counted true false s t c d := by
  obtain ⟨c, d, k, hk, ⟨-, -, hd, hcount⟩, rfl⟩ | ⟨kind, src, dg, rfl⟩ | ⟨k, sl, hsl, rfl⟩ | ⟨src, h, pl, plan, hc, rfl⟩ :=
    receive_ends hi he
  · refine ⟨c, d, rfl, counted_of_bump hd (readOnly_of_mem_rxErrorCounters k hk) ?_ hcount rfl⟩
    rintro rfl
    exact absurd hk (by decide)
  · refine ⟨_, .none, rfl, counted_of_bump (k := .statRxForwarded) ⟨rfl, rfl, rfl⟩ rfl nofun (fun r => ?_) rfl⟩
    cases kind <;> cases r <;> rfl
  · obtain ⟨-, -, -, -, hregs, hresult⟩ := rxRefuse_seqRegression hsl
    refine ⟨_, _, hresult, fun r _ _ => ?_, fun _ => (hregs _).trans (BitVec.add_zero _)⟩
    rw [hregs]
    cases r <;> rfl
  · obtain ⟨d, hresult, hcounted⟩ := counted_rxCommit hc
    exact ⟨_, d, hresult, hcounted⟩

theorem counted_transmit (hi : isTransmit i = true) (he : exec i s = .next t) :
    ∃ c d, t.result = some ⟨c, d⟩ ∧ Counted false true s t c d := by
  obtain ⟨dg, rfl⟩ | ⟨c, d, ⟨-, -, hd, hcount⟩, rfl⟩ := transmit_ends hi he
  · refine ⟨.ok, .bytes dg, rfl, fun r hr _ => ?_, fun _ => ?_⟩
    · have hseq : r ≠ .txSeq := by
        rintro rfl
        exact absurd hr (by decide)
      rw [countedBy_of_noRxData ⟨rfl, rfl, rfl⟩, get_bump_ite _ rfl, get_set_other _ _ hseq]
      congr 2
      cases r <;> rfl
    · rw [get_bump_other _ _ (by decide), get_set_other _ _ (by decide)]
  · exact ⟨c, d, rfl, counted_of_bump (k := .statTxErrors) hd rfl nofun hcount rfl⟩

/-- Every operation but RESET counts by the lines of R34. -/
theorem counted_exec (hne : i ≠ .reset) (he : exec i s = .next t) :
    ∃ c d, t.result = some ⟨c, d⟩ ∧ Counted (isReceive i) (isTransmit i) s t c d := by
  cases hrx : isReceive i with
  | true =>
    have htx : isTransmit i = false := by
      cases i with
      | txPacket => cases hrx
      | _ => rfl
    rw [htx]
    exact counted_receive hrx he
  | false =>
    cases htx : isTransmit i with
    | true => exact counted_transmit htx he
    | false =>
      obtain ⟨c, d, hresult, hq, hregs, -⟩ | ⟨⟨fs, hresult⟩, hregs⟩ := other_ends hrx htx hne he
      · exact ⟨c, d, hresult, counted_of_quietResult hq hregs⟩
      · refine ⟨_, _, hresult, counted_of_bump (k := .statUnderruns) ⟨rfl, rfl, rfl⟩ rfl nofun (fun r => ?_) hregs⟩
        cases r <;> rfl

/-- The silence of a gap, in the format of the session: the gap times the frames the header declares (R241). -/
theorem gapSilence_of_deliversPcm {src : SrcAddr} {h : Header} {pl : Bytes} {c : ResultCode} {d : ResultData}
    (hdel : DeliversPcm s.params i src h pl) (he : exec i s = .next t) (hres : t.result = some ⟨c, d⟩)
    (hsame : (flagsIn d).getLsbD 1 = false)
    (hnogap : gapIn d = 0 → t.regs.get .statGapSilenceFrames = s.regs.get .statGapSilenceFrames) :
    t.regs.get .statGapSilenceFrames =
      s.regs.get .statGapSilenceFrames + BitVec.ofNat 32 (gapIn d * (h.nbsMinus1.toNat + 1)) := by
  by_cases hzero : gapIn d = 0
  · rw [hnogap hzero, hzero, Nat.zero_mul]
    exact (BitVec.add_zero _).symm
  rw [exec_of_deliversPcm hdel] at he
  cases he
  obtain ⟨e, -, heq⟩ | ⟨plan, hc, heq⟩ := receivePcm_cases src h pl s
  · rw [heq] at hres
    cases e <;> cases hres <;> exact absurd rfl hzero
  · obtain ⟨-, -, hframes, -⟩ := rxCheck_ok hc
    obtain ⟨changes, entered, dropped, hresult, hregs⟩ := rxCommit_counts hc
    rw [heq, hresult] at hres
    cases hres
    rw [flagsIn, rxFlags_bit1] at hsame
    rw [heq, hregs, gapIn_rx hc, ← hframes, hsame]
    rfl

/-- Settles O31: the thirteen counters that the result fixes are instances of `counted_exec`; the fourteenth needs the header. -/
theorem statisticsCount : Obligations.StatisticsCount := by
  intro s t i c d he hres hne rx
  obtain ⟨c', d', hresult, hcount, hnogap⟩ := counted_exec hne he
  obtain ⟨rfl, rfl⟩ : c' = c ∧ d' = d := by
    rw [hres] at hresult
    cases hresult
    exact ⟨rfl, rfl⟩
  exact ⟨hcount .statRxAccepted rfl nofun, hcount .statRxMalformed rfl nofun, hcount .statRxUnsupported rfl nofun,
    hcount .statRxRejected rfl nofun, hcount .statRxForwarded rfl nofun, hcount .statRxLateDropped rfl nofun,
    hcount .statSeqResets rfl nofun, hcount .statUnderruns rfl nofun, hcount .statTxPackets rfl nofun,
    hcount .statTxErrors rfl nofun, hcount .statOverflowDropped rfl nofun, hcount .statFrameLossEvents rfl nofun,
    hcount .statCountMismatch rfl nofun, hnogap,
    fun hsame src h pl hdel => gapSilence_of_deliversPcm hdel he hres hsame fun hzero => hnogap (.inl hzero)⟩

end Statistics

end Sys2Proof.Machine
end
